-- ==== Sys2Proof/Word.lean ====
section
/-! DEFINITION. The word types of the SPSC ring controller. -/

namespace Sys2Proof

/-- A 32-bit word: `arg`, `val`, `capacity`, `mask`, a burst's `n` and `i` (R20, R105, R107). -/
abbrev Word := BitVec 32

/-- The container of an index register: `IDX_W` is a parameter of at most 32, so an index is held in 32 bits
and every sum and difference is reduced modulo `2^IDX_W` (R5, R7, R146; log 2). -/
abbrev Idx := BitVec 32

/-- A command header, the 36 bits of `p_cmd_hdr` or `c_cmd_hdr` (R105). -/
abbrev Header := BitVec 36

end Sys2Proof
end

