-- ==== Sys2Proof/Config.lean ====
section
/-! DEFINITION. What an implementation fixes: the build parameters of R5, and the free values. -/

namespace Sys2Proof

/-- The OPEN build-time parameters of R5. "A model takes each `OPEN` parameter as an argument": they stand in
`State.build`, no step writes them, and a statement holds for every value of them (log 1). -/
structure Params where
  /-- `MAX_CAPACITY`, the number of physical slots. -/
  maxCapacity : Nat
  /-- `IDX_W`, the width of `head`, `tail`, `head_c`, `tail_p`. -/
  idxW : Nat
  /-- `REF_W`, the width of the descriptor field `data_ref`. -/
  refW : Nat
  /-- `PA_W`, the width of the descriptor field `phys_addr`. -/
  paW : Nat
  /-- `SYNC_STAGES`; timing only, "no rule depends on it". -/
  syncStages : Nat
deriving DecidableEq, Repr

/-- `DESC_W = REF_W + PA_W + 16 + 16 + 64` (R5). -/
def Params.descW (b : Params) : Nat := b.refW + b.paW + 16 + 16 + 64

/-- The "vector value" column of R5, used by 95_test_vectors.md and by `State.reset` (DESIGN CHOICE, log 1). -/
def Config.vectorBuild : Params :=
  { maxCapacity := 256, idxW := 32, refW := 64, paW := 64, syncStages := 2 }

/-- The free value `capacity` takes when the ring stops being live: R39 and U13 call it unspecified (log 12). -/
opaque Config.unspecifiedCapacity : Nat → Word

/-- The free value `mask` takes when the ring stops being live: R39 and U13 call it unspecified (log 12). -/
opaque Config.unspecifiedMask : Nat → Word

end Sys2Proof
end

