-- ==== Sys2Proof/Syntax.lean ====
section
/-! DEFINITION. The syntax: the eleven port commands (R108), the ports, the packet descriptor (R22). -/

namespace Sys2Proof

/-- The two command ports (R100); the four queries are legal on both, each data command on one (R109). -/
inductive Port where
  | producer
  | consumer
deriving DecidableEq, Repr

/-- The eleven commands of R108. Every header carries the 32 bits of `arg` (R105): `len` of ENQB, `req` of DEQB,
ignored by every other command (R112) and kept here so that no bit of a header is dropped. The descriptor operand
of ENQ and ENQD "travels beside it on `p_cmd_desc`, not in it" (R105), and so does the port (R8): neither is part
of the term. -/
inductive Instr where
  /-- IS_EMPTY, R140. -/
  | isEmpty (arg : Word)
  /-- IS_FULL, R141. -/
  | isFull (arg : Word)
  /-- SPACE, R142. -/
  | space (arg : Word)
  /-- COUNT, R143. -/
  | count (arg : Word)
  /-- ENQ, R160. -/
  | enq (arg : Word)
  /-- ENQB, R161. -/
  | enqb (len : Word)
  /-- ENQD, R162. -/
  | enqd (arg : Word)
  /-- DEQ, R180. -/
  | deq (arg : Word)
  /-- PEEK, R182. -/
  | peek (arg : Word)
  /-- DEQB, R183. -/
  | deqb (req : Word)
  /-- DEQD, R184. -/
  | deqd (arg : Word)
deriving DecidableEq, Repr

/-- A `PacketDescriptor` (R22): `data_ref` is "an opaque reference/ownership handle" of `REF_W` bits and `phys_addr`
"an integer token" of `PA_W` bits, both parameters (log 15). The controller looks at no field. -/
structure Descriptor where
  dataRef : Nat
  physAddr : Nat
  length : BitVec 16
  flags : BitVec 16
  timestamp : BitVec 64
deriving DecidableEq, Repr

/-- The descriptor whose `DESC_W` bits are all 0. -/
def Descriptor.zero : Descriptor := { dataRef := 0, physAddr := 0, length := 0, flags := 0, timestamp := 0 }

end Sys2Proof
end

