-- ==== Sys2Proof/WellFormed.lean ====
section
/-! DEFINITION. The checks on syntax and parameters: R5, R22 with R106, R109. Every `Instr` is a well-formed header, since
`arg` is used at its full width; what can be ill-formed is the build, a descriptor that its fields cannot hold,
and a command presented on the port that may not issue it. -/

namespace Sys2Proof

/-- `n` is a power of two not above `2^31`. -/
def isPowerOfTwo (n : Nat) : Bool := (List.range 32).any fun k => 2 ^ k == n

/-- R5's constraint column: `MAX_CAPACITY` a power of two with `2 <= MAX_CAPACITY <= 2^31`,
`log2(MAX_CAPACITY) <= IDX_W <= 32`, `REF_W >= 1`, `PA_W >= 1`, `SYNC_STAGES >= 2`. -/
def Params.wf (b : Params) : Bool :=
  isPowerOfTwo b.maxCapacity && decide (2 ≤ b.maxCapacity) && decide (b.maxCapacity ≤ 2 ^ b.idxW)
    && decide (b.idxW ≤ 32) && decide (1 ≤ b.refW) && decide (1 ≤ b.paW) && decide (2 ≤ b.syncStages)

/-- A descriptor whose two opaque fields fit their widths (R106). -/
def Descriptor.wf (b : Params) (d : Descriptor) : Bool :=
  decide (d.dataRef < 2 ^ b.refW) && decide (d.physAddr < 2 ^ b.paW)

/-- Port legality (R109), the "port" column of R108. -/
def Instr.legalOn (p : Port) : Instr → Bool
  | .isEmpty _ => true
  | .isFull _ => true
  | .space _ => true
  | .count _ => true
  | .enq _ => p == .producer
  | .enqb _ => p == .producer
  | .enqd _ => p == .producer
  | .deq _ => p == .consumer
  | .peek _ => p == .consumer
  | .deqb _ => p == .consumer
  | .deqd _ => p == .consumer

end Sys2Proof
end

