-- ==== Sys2Proof/Decode.lean ====
section
/-! DEFINITION. Decoding and encoding: the 36-bit header (R105, R108, R111) and the descriptor's bits (R106). -/

namespace Sys2Proof

/-- Why a header is no command (R111). The port answers `BadCmd`; the machine does not stop. -/
inductive DecodeError where
  /-- Opcodes 0x0, 0x5, 0x6, 0x7 and 0xB are reserved on both ports. -/
  | reservedOpcode (op : BitVec 4)
deriving DecidableEq, Repr

/-- Field `op`, bits 35:32 (R105). -/
def headerOp (h : Header) : BitVec 4 := h.extractLsb' 32 4

/-- Field `arg`, bits 31:0 (R105), used as it stands (R112). -/
def headerArg (h : Header) : Word := h.extractLsb' 0 32

/-- The decoder, total over all 36-bit headers (R111): the opcode map of R108. -/
def decode (h : Header) : Except DecodeError Instr :=
  match headerOp h with
  | 0x1#4 => .ok (.isEmpty (headerArg h))
  | 0x2#4 => .ok (.isFull (headerArg h))
  | 0x3#4 => .ok (.space (headerArg h))
  | 0x4#4 => .ok (.count (headerArg h))
  | 0x8#4 => .ok (.enq (headerArg h))
  | 0x9#4 => .ok (.enqb (headerArg h))
  | 0xA#4 => .ok (.enqd (headerArg h))
  | 0xC#4 => .ok (.deq (headerArg h))
  | 0xD#4 => .ok (.peek (headerArg h))
  | 0xE#4 => .ok (.deqb (headerArg h))
  | 0xF#4 => .ok (.deqd (headerArg h))
  | op => .error (.reservedOpcode op)

/-- The `op` column of R108. -/
def Instr.opcode : Instr → BitVec 4
  | .isEmpty _ => 0x1
  | .isFull _ => 0x2
  | .space _ => 0x3
  | .count _ => 0x4
  | .enq _ => 0x8
  | .enqb _ => 0x9
  | .enqd _ => 0xA
  | .deq _ => 0xC
  | .peek _ => 0xD
  | .deqb _ => 0xE
  | .deqd _ => 0xF

/-- The `arg` a command's header carries. -/
def Instr.arg : Instr → Word
  | .isEmpty a => a
  | .isFull a => a
  | .space a => a
  | .count a => a
  | .enq a => a
  | .enqb a => a
  | .enqd a => a
  | .deq a => a
  | .peek a => a
  | .deqb a => a
  | .deqd a => a

/-- The encoder: `op` in bits 35:32, `arg` in bits 31:0 (R105). -/
def encode (i : Instr) : Header := i.opcode ++ i.arg

/-- The `DESC_W` bits of a descriptor, `{timestamp, flags, length, phys_addr, data_ref}` (R106), as a number. -/
def packDescriptor (b : Params) (d : Descriptor) : Nat :=
  d.dataRef + 2 ^ b.refW * (d.physAddr + 2 ^ b.paW * (d.length.toNat + 2 ^ 16 * (d.flags.toNat + 2 ^ 16 * d.timestamp.toNat)))

/-- The five fields of the bits on `p_cmd_desc` (R106). The wires are `DESC_W` wide, so a bit of `v` above them is
on no wire and is not looked at (log 15). -/
def unpackDescriptor (b : Params) (v : Nat) : Descriptor :=
  { dataRef := v % 2 ^ b.refW
    physAddr := v / 2 ^ b.refW % 2 ^ b.paW
    length := BitVec.ofNat 16 (v / 2 ^ (b.refW + b.paW))
    flags := BitVec.ofNat 16 (v / 2 ^ (b.refW + b.paW + 16))
    timestamp := BitVec.ofNat 64 (v / 2 ^ (b.refW + b.paW + 32)) }

/-- What the decoder reads from the bits `w` of an opcode-table row: the header is bits 35:0, and a number that needs
a bit above them is no header (log 17). -/
def decodeTableWord (_nbits w : Nat) : Option Instr :=
  if w < 2 ^ 36 then
    match decode (BitVec.ofNat 36 w) with
    | .ok i => some i
    | .error _ => none
  else none

end Sys2Proof
end

