-- ==== Sys2Proof/Machine/State.lean ====
section
/-! DEFINITION. The state of the controller (R20), the outside world's inputs and outputs as plain data, and reset (R39, R244, R246). -/

namespace Sys2Proof.Machine

open Sys2Proof

/-- The status codes of R200. Codes 5 and 6 are never produced, so they have no constructor (U17). -/
inductive Status where
  | ok
  | ringFull
  | ringEmpty
  | invalidCapacity
  | allocFail
  | badCmd
deriving DecidableEq, Repr

/-- A burst record (R31): `idle`, or the spec's `open(n, i)`, `n` slots or items granted and `i` beats done. -/
inductive Burst where
  | idle
  | opened (n i : Word)
deriving DecidableEq, Repr

/-- A response (R107). `desc` is driven on the consumer port only, and only when a rule gives a descriptor;
elsewhere "a model returns no descriptor" (R107, U3; log 14). -/
structure Response where
  status : Status
  val : Word
  desc : Option Descriptor
deriving DecidableEq, Repr

/-- A command as presented on the producer port (R101): `p_cmd_hdr` and the bits of `p_cmd_desc`. -/
structure PCmd where
  hdr : Header
  desc : Nat
deriving DecidableEq, Repr

/-- One turn of the schedule: which of the five agents may step next (R9), with the synchronizers' free choice of `k`
(R72, R73) and HOST's input (R240, R244) (log 6). -/
inductive Turn where
  | p
  | c
  | sh (k : Nat)
  | st (k : Nat)
  | construct (cfgCap : Word)
  | resetRing
deriving DecidableEq, Repr

/-- The slot storage (R60): (slot number, content), slot numbers strictly rising; a slot not listed holds no value (R28). -/
abbrev Memory := List (Nat × Descriptor)

/-- The canonical form of the storage: slot numbers strictly rising, so equal storages are equal lists. -/
abbrev Memory.wf (m : Memory) : Prop := m.Pairwise fun x y => x.1 < y.1

/-- Why a step stops. Neither is reachable from a successful CONSTRUCT (R36). -/
inductive Fault where
  /-- DEQ, PEEK or DEQD read a slot that nothing has written since CONSTRUCT: "a model fault" (R28). Safe. -/
  | slotNoValue (slot : Nat)
  /-- A command's slot number is not below `MAX_CAPACITY`, so the slot does not exist (R60, log 5). Safe. -/
  | noSuchSlot (slot : Nat)
deriving DecidableEq, Repr

/-- Why an instruction has no meaning. No arm of `exec` uses it: every command is modelled. -/
inductive Refusal where
  /-- Raised by an arm of `exec` whose command has no meaning yet. Safe. -/
  | notModelled (mnemonic : String)
deriving DecidableEq, Repr

/-- The state: R20's table, the build parameters (R5), and the outside world's inputs and outputs. -/
structure State where
  /-- The build parameters; no step writes them (R5, log 1). -/
  build : Params
  /-- `slots` (R21, R28). -/
  slots : Memory
  /-- `capacity` (R23). -/
  capacity : Word
  /-- `mask`, `capacity − 1` while live (R23). -/
  mask : Word
  /-- `head` (R24). -/
  head : Idx
  /-- `tail` (R25). -/
  tail : Idx
  /-- `head_c`, the consumer domain's copy of `head` (R29). -/
  headC : Idx
  /-- `tail_p`, the producer domain's copy of `tail` (R30). -/
  tailP : Idx
  /-- `h_flight`, oldest first (R29). -/
  hFlight : List Idx
  /-- `t_flight`, oldest first (R30). -/
  tFlight : List Idx
  /-- `p_burst` (R31). -/
  pBurst : Burst
  /-- `c_burst` (R31). -/
  cBurst : Burst
  /-- `live` (R27). -/
  live : Bool
  /-- `cfg_status` (R27, R35). -/
  cfgStatus : Status
  /-- The producer's command stream, the presented command first (R33, R101). -/
  pIn : List PCmd
  /-- The consumer's command stream, the presented command first (R33, R102). -/
  cIn : List Header
  /-- The schedule and HOST's inputs (R9). -/
  turns : List Turn
  /-- The responses presented on the producer port, oldest first (R107). -/
  pOut : List Response
  /-- The responses presented on the consumer port, oldest first (R107). -/
  cOut : List Response
  /-- The model's own: the port whose command is executed, to which `respond` answers (R8). -/
  port : Port
  /-- The model's own: `p_cmd_desc` of the producer's last accepted command (R101). -/
  descIn : Descriptor
  /-- The model's own: how many free values have been drawn for `capacity` and `mask` (U13). -/
  unspec : Nat
deriving DecidableEq, Repr

/-- The outcome type of a step. -/
abbrev Result := Host.Outcome State Fault Refusal

/-- The state RESET leaves (R39, first column), which is where a model starts (R246). `capacity` and `mask` are
unspecified there: the value 0 is a DESIGN CHOICE (log 11), and so are the empty storage (log 4) and the build (log 1). -/
def State.reset : State :=
  { build := Config.vectorBuild
    slots := []
    capacity := 0
    mask := 0
    head := 0
    tail := 0
    headC := 0
    tailP := 0
    hFlight := []
    tFlight := []
    pBurst := .idle
    cBurst := .idle
    live := false
    cfgStatus := .ok
    pIn := []
    cIn := []
    turns := []
    pOut := []
    cOut := []
    port := .producer
    descIn := Descriptor.zero
    unspec := 0 }

end Sys2Proof.Machine
end

