-- ==== Sys2Proof/Machine/Ops.lean ====
section
/-! DEFINITION. The shared operations: slot storage (R60 to R67), index arithmetic (R146), responses (R107), failing (R206),
the index advances (R160, R162, R180, R184), the synchronizer deliveries (R72, R73), construction and reset (R240, R244). -/

namespace Sys2Proof.Machine

open Sys2Proof

/-! ### The slot storage -/

/-- The content of slot `a`; none where the slot holds no value (R28). -/
def Memory.read : Memory → Nat → Option Descriptor
  | [], _ => none
  | (k, d) :: m, a => if k = a then some d else Memory.read m a

/-- Replaces all `DESC_W` bits of slot `a` (R62, R65), keeping the canonical form. -/
def Memory.write : Memory → Nat → Descriptor → Memory
  | [], a, v => [(a, v)]
  | (k, d) :: m, a, v =>
    if k < a then (k, d) :: Memory.write m a v
    else if k = a then (a, v) :: m
    else (a, v) :: (k, d) :: m

/-- `MemRead(a, 1)` (R8): copied out by value, no side effect (R65, R181). -/
def loadSlot (a : Nat) (s : State) : Except Fault Descriptor :=
  if a < s.build.maxCapacity then
    match s.slots.read a with
    | some d => .ok d
    | none => .error (.slotNoValue a)
  else .error (.noSuchSlot a)

/-- `MemWrite(a, 1, d)` (R8). -/
def storeSlot (a : Nat) (d : Descriptor) (s : State) : Except Fault State :=
  if a < s.build.maxCapacity then .ok { s with slots := s.slots.write a d }
  else .error (.noSuchSlot a)

/-! ### Index arithmetic -/

/-- Reduction modulo `2^IDX_W` (R7, R146). -/
def truncIdx (b : Params) (v : Idx) : Idx := BitVec.ofNat 32 (v.toNat % 2 ^ b.idxW)

/-- `x + y` modulo `2^IDX_W`; the carry out is dropped and nothing records it (R146 a, g). -/
def idxAdd (b : Params) (x y : Idx) : Idx := truncIdx b (x + y)

/-- `x − y` modulo `2^IDX_W` (R146 b). -/
def idxSub (b : Params) (x y : Idx) : Idx := truncIdx b (x - y)

/-- The physical slot of an index: `x & mask` (R61). -/
def slotOf (mask : Word) (x : Idx) : Nat := (x &&& mask).toNat

/-- `min(a, b)` on unsigned 32-bit numbers (R7, R146 e). -/
def minWord (a b : Word) : Word := if a.toNat ≤ b.toNat then a else b

/-- The number of one bits among bits `n − 1 .. 0` of `w`. -/
def popcountBelow (w : Word) : Nat → Nat
  | 0 => 0
  | n + 1 => popcountBelow w n + (if w.getLsbD n then 1 else 0)

/-- `popcount(w)` (R7). -/
def popcount (w : Word) : Nat := popcountBelow w 32

/-! ### Statuses and responses -/

/-- The code of a status on the three status wires (R200). -/
def statusCode : Status → BitVec 3
  | .ok => 0
  | .ringFull => 1
  | .ringEmpty => 2
  | .invalidCapacity => 3
  | .allocFail => 4
  | .badCmd => 7

/-- `respond(status, val)` and `respond(status, val, desc)` (R8, R107): the response goes to the port that issued
the command, and only the consumer port has descriptor wires (R101, R102). -/
def respond (status : Status) (val : Word) (desc : Option Descriptor) (s : State) : State :=
  match s.port with
  | .producer => { s with pOut := s.pOut ++ [{ status := status, val := val, desc := none }] }
  | .consumer => { s with cOut := s.cOut ++ [{ status := status, val := val, desc := desc }] }

/-- `fail <Status>` (R8): `respond(<Status>, 0)` with no state written. It stands where a processor takes an
exception; nothing is saved and nothing is returned from (R206). -/
def fail (status : Status) (s : State) : State := respond status 0 none s

/-! ### Index advances and deliveries -/

/-- `head <- head + n; h_flight <- h_flight ++ [head]` (R160, R162): one step, one new value in flight (R74). -/
def advanceHead (n : Word) (s : State) : State :=
  { s with head := idxAdd s.build s.head n, hFlight := s.hFlight ++ [idxAdd s.build s.head n] }

/-- `tail <- tail + n; t_flight <- t_flight ++ [tail]` (R180, R184). -/
def advanceTail (n : Word) (s : State) : State :=
  { s with tail := idxAdd s.build s.tail n, tFlight := s.tFlight ++ [idxAdd s.build s.tail n] }

/-- One step of SH with the choice `k` (R72): enabled when `live = 1` and `1 <= k <= length(h_flight)`. A choice that
is not enabled is no step (log 7). -/
def deliverHead (k : Nat) (s : State) : State :=
  if s.live ∧ 1 ≤ k then
    match s.hFlight[k - 1]? with
    | some v => { s with headC := v, hFlight := s.hFlight.drop k }
    | none => s
  else s

/-- One step of ST with the choice `k` (R73). -/
def deliverTail (k : Nat) (s : State) : State :=
  if s.live ∧ 1 ≤ k then
    match s.tFlight[k - 1]? with
    | some v => { s with tailP := v, tFlight := s.tFlight.drop k }
    | none => s
  else s

/-! ### Construction and reset -/

/-- What CONSTRUCT and RESET both write: indices 0, flight lists empty, bursts idle (R240, R244). -/
def clearIndices (s : State) : State :=
  { s with head := 0, tail := 0, headC := 0, tailP := 0, hFlight := [], tFlight := [], pBurst := .idle, cBurst := .idle }

/-- `capacity` and `mask` are unspecified while the ring is not live (R39, U13): each takes a free value (log 12). -/
def forgetCapacity (s : State) : State :=
  { s with
    capacity := Config.unspecifiedCapacity s.unspec
    mask := Config.unspecifiedMask s.unspec
    unspec := s.unspec + 1 }

/-- The tests of CONSTRUCT in their order (R208, R240): invalid first, then too large. -/
def capacityStatus (b : Params) (capReq : Word) : Status :=
  if capReq.toNat < 2 ∨ popcount capReq ≠ 1 then .invalidCapacity
  else if b.maxCapacity < capReq.toNat then .allocFail
  else .ok

/-- CONSTRUCT(cap_req) (R240), once it is enabled. -/
def constructRing (capReq : Word) (s : State) : State :=
  match capacityStatus s.build capReq with
  | .ok => { clearIndices s with capacity := capReq, mask := capReq - 1, slots := [], cfgStatus := .ok, live := true }
  | failure => { forgetCapacity (clearIndices s) with cfgStatus := failure, live := false }

/-- HOST's CONSTRUCT step: enabled exactly when `live = 0` and `cfg_status = 0` (R240, C11). -/
def hostConstruct (capReq : Word) (s : State) : State :=
  if s.live = false ∧ s.cfgStatus = .ok then constructRing capReq s else s

/-- HOST's RESET step, enabled in any state (R244). The storage is left as it is (log 13). -/
def hostReset (s : State) : State :=
  { forgetCapacity (clearIndices s) with live := false, cfgStatus := .ok }

end Sys2Proof.Machine
end

