-- ==== Sys2Proof/Machine/Operands.lean ====
section
/-! DEFINITION. The operands of the commands: the views (R139) and the slot addresses (R61). Every operand form there is:
`arg` as it stands (R112), `p_cmd_desc` whole (`State.descIn`), the port's view, the slot at `head`, `tail` or a beat. -/

namespace Sys2Proof.Machine

open Sys2Proof

/-- The pair of indices a port computes with (R13, R139). -/
structure View where
  hd : Idx
  tl : Idx
deriving DecidableEq, Repr

/-- R139: the P view is (`head`, `tail_p`), the C view (`head_c`, `tail`). -/
def viewOf (p : Port) (s : State) : View :=
  match p with
  | .producer => { hd := s.head, tl := s.tailP }
  | .consumer => { hd := s.headC, tl := s.tail }

/-- The slot a single-item enqueue writes: `head & mask` (R61, R160). -/
def enqSlot (s : State) : Nat := slotOf s.mask s.head

/-- The slot beat `i` of an enqueue burst writes: `(head + i) & mask` (R61, R162). -/
def enqdSlot (i : Word) (s : State) : Nat := slotOf s.mask (idxAdd s.build s.head i)

/-- The slot a single-item dequeue or a peek reads: `tail & mask` (R61, R180, R182). -/
def deqSlot (s : State) : Nat := slotOf s.mask s.tail

/-- The slot beat `i` of a dequeue burst reads: `(tail + i) & mask` (R61, R184). -/
def deqdSlot (i : Word) (s : State) : Nat := slotOf s.mask (idxAdd s.build s.tail i)

end Sys2Proof.Machine
end

