-- ==== Sys2Proof/Machine/Flags.lean ====
section
/-! DEFINITION. The empty/full flag generator (R144): combinational functions of the indices, no counter (R34). -/

namespace Sys2Proof.Machine

open Sys2Proof

/-- `cnt = (hd − tl) & mask` (R139, R143). -/
def countOf (b : Params) (mask : Word) (v : View) : Word := idxSub b v.hd v.tl &&& mask

/-- `hd = tl`, all bits compared (R140). -/
def isEmptyView (v : View) : Bool := v.hd == v.tl

/-- `cnt = mask` (R141). -/
def isFullView (b : Params) (mask : Word) (v : View) : Bool := countOf b mask v == mask

/-- `capacity − cnt − 1` in 32 bits (R142, R146 d). -/
def spaceOf (b : Params) (capacity mask : Word) (v : View) : Word := capacity - countOf b mask v - 1

/-- A truth value on the 32 `val` wires (R107). -/
def boolWord (c : Bool) : Word := if c then 1 else 0

/-- The continuous flag outputs of one port (R101, R102). -/
structure FlagOutputs where
  empty : Bool
  full : Bool
  count : Word
  space : Word
deriving DecidableEq, Repr

/-- R144, both arms: with `live = 0` both flags read 1 and both counts 0. -/
def flagOutputs (p : Port) (s : State) : FlagOutputs :=
  if s.live then
    { empty := isEmptyView (viewOf p s)
      full := isFullView s.build s.mask (viewOf p s)
      count := countOf s.build s.mask (viewOf p s)
      space := spaceOf s.build s.capacity s.mask (viewOf p s) }
  else { empty := true, full := true, count := 0, space := 0 }

/-- `p_cmd_ready` and `c_cmd_ready` between two atomic steps: 0 while `live = 0`, else 1 (R104). -/
def cmdReady (s : State) : Bool := s.live

end Sys2Proof.Machine
end

