-- ==== Sys2Proof/Machine/Consumer.lean ====
section
/-! DEFINITION. The meanings of DEQ, PEEK, DEQB, DEQD (R180 to R184). On the producer port each is an illegal command (R109);
the order of checks is port, burst state, capacity (R208). No slot is written (R65). -/

namespace Sys2Proof.Machine

open Sys2Proof

/-- DEQ (R180): slot read, then index advance with the new value into flight; the slot is not cleared. -/
def execDeq (_arg : Word) (s : State) : Result :=
  if s.port = .consumer ∧ s.cBurst = .idle then
    if isEmptyView (viewOf .consumer s) then .next (fail .ringEmpty s)
    else
      match loadSlot (deqSlot s) s with
      | .ok d => .next (respond .ok 0 (some d) (advanceTail 1 s))
      | .error f => .fault f
  else .next (fail .badCmd s)

/-- PEEK (R182): a copy of the next descriptor (R181); no state written. -/
def execPeek (_arg : Word) (s : State) : Result :=
  if s.port = .consumer ∧ s.cBurst = .idle then
    if isEmptyView (viewOf .consumer s) then .next (fail .ringEmpty s)
    else
      match loadSlot (deqSlot s) s with
      | .ok d => .next (respond .ok 0 (some d) s)
      | .error f => .fault f
  else .next (fail .badCmd s)

/-- DEQB (R183): grants `n = min(req, cnt)`; opens a burst when `n > 0`; never `RingEmpty`. -/
def execDeqb (req : Word) (s : State) : Result :=
  if s.port = .consumer ∧ s.cBurst = .idle then
    let n := minWord req (countOf s.build s.mask (viewOf .consumer s))
    if n = 0 then .next (respond .ok n none s)
    else .next (respond .ok n none { s with cBurst := .opened n 0 })
  else .next (fail .badCmd s)

/-- DEQD (R184): one beat; the last one commits the burst. -/
def execDeqd (_arg : Word) (s : State) : Result :=
  match s.port, s.cBurst with
  | .consumer, .opened n i =>
    match loadSlot (deqdSlot i s) s with
    | .ok d =>
      if i.toNat + 1 < n.toNat then
        .next (respond .ok (n - i - 1) (some d) { s with cBurst := .opened n (i + 1) })
      else .next (respond .ok 0 (some d) { advanceTail n s with cBurst := .idle })
    | .error f => .fault f
  | _, _ => .next (fail .badCmd s)

end Sys2Proof.Machine
end

