-- ==== Sys2Proof/Machine/Producer.lean ====
section
/-! DEFINITION. The meanings of ENQ, ENQB, ENQD (R160 to R162). On the consumer port each is an illegal command (R109);
the order of checks is port, burst state, capacity (R208). -/

namespace Sys2Proof.Machine

open Sys2Proof

/-- ENQ (R160): slot write, then index advance with the new value into flight. -/
def execEnq (_arg : Word) (s : State) : Result :=
  if s.port = .producer ∧ s.pBurst = .idle then
    if isFullView s.build s.mask (viewOf .producer s) then .next (fail .ringFull s)
    else
      match storeSlot (enqSlot s) s.descIn s with
      | .ok s1 => .next (respond .ok 0 none (advanceHead 1 s1))
      | .error f => .fault f
  else .next (fail .badCmd s)

/-- ENQB (R161): grants `n = min(len, space)`; opens a burst when `n > 0`; never `RingFull`. -/
def execEnqb (len : Word) (s : State) : Result :=
  if s.port = .producer ∧ s.pBurst = .idle then
    let n := minWord len (spaceOf s.build s.capacity s.mask (viewOf .producer s))
    if n = 0 then .next (respond .ok n none s)
    else .next (respond .ok n none { s with pBurst := .opened n 0 })
  else .next (fail .badCmd s)

/-- ENQD (R162): one beat; the last one commits the burst. -/
def execEnqd (_arg : Word) (s : State) : Result :=
  match s.port, s.pBurst with
  | .producer, .opened n i =>
    match storeSlot (enqdSlot i s) s.descIn s with
    | .ok s1 =>
      if i.toNat + 1 < n.toNat then
        .next (respond .ok (n - i - 1) none { s1 with pBurst := .opened n (i + 1) })
      else .next (respond .ok 0 none { advanceHead n s1 with pBurst := .idle })
    | .error f => .fault f
  | _, _ => .next (fail .badCmd s)

end Sys2Proof.Machine
end

