-- ==== Sys2Proof/Machine/Queries.lean ====
section
/-! DEFINITION. The meanings of IS_EMPTY, IS_FULL, SPACE, COUNT (R140 to R143): legal on both ports and in either burst state. -/

namespace Sys2Proof.Machine

open Sys2Proof

/-- IS_EMPTY (R140). -/
def execIsEmpty (_arg : Word) (s : State) : Result :=
  .next (respond .ok (boolWord (isEmptyView (viewOf s.port s))) none s)

/-- IS_FULL (R141). -/
def execIsFull (_arg : Word) (s : State) : Result :=
  .next (respond .ok (boolWord (isFullView s.build s.mask (viewOf s.port s))) none s)

/-- SPACE (R142). -/
def execSpace (_arg : Word) (s : State) : Result :=
  .next (respond .ok (spaceOf s.build s.capacity s.mask (viewOf s.port s)) none s)

/-- COUNT (R143). -/
def execCount (_arg : Word) (s : State) : Result :=
  .next (respond .ok (countOf s.build s.mask (viewOf s.port s)) none s)

end Sys2Proof.Machine
end

