-- ==== Sys2Proof/Machine/Dispatch.lean ====
section
/-! DEFINITION. One arm per command: the effect of a command its port has accepted (R104). -/

namespace Sys2Proof.Machine

open Sys2Proof

def exec (i : Instr) (s : State) : Host.Outcome State Fault Refusal :=
  match i with
  | .isEmpty arg => Sys2Proof.Machine.execIsEmpty arg s
  | .isFull arg => Sys2Proof.Machine.execIsFull arg s
  | .space arg => Sys2Proof.Machine.execSpace arg s
  | .count arg => Sys2Proof.Machine.execCount arg s
  | .enq arg => Sys2Proof.Machine.execEnq arg s
  | .enqb len => Sys2Proof.Machine.execEnqb len s
  | .enqd arg => Sys2Proof.Machine.execEnqd arg s
  | .deq arg => Sys2Proof.Machine.execDeq arg s
  | .peek arg => Sys2Proof.Machine.execPeek arg s
  | .deqb req => Sys2Proof.Machine.execDeqb req s
  | .deqd arg => Sys2Proof.Machine.execDeqd arg s

end Sys2Proof.Machine
end

