-- ==== Sys2Proof/Machine/Fetch.lean ====
section
/-! DEFINITION. Taking a turn: which agent steps, the acceptance of a presented command (R104), its decoding (R111), and how
a command is placed where the next step takes it. -/

namespace Sys2Proof.Machine

open Sys2Proof

/-- What a turn comes to: a step that is finished, or an accepted command to be executed in a state. -/
inductive TurnTaken where
  | done (s : State)
  | command (i : Instr) (s : State)
deriving DecidableEq, Repr

/-- P's turn (R101, R104). With `live = 0` or nothing presented there is no step; the command stays presented (R241,
log 8). An accepted header that decodes to nothing answers `BadCmd` (R111, R204). -/
def acceptProducer (s : State) : TurnTaken :=
  if s.live then
    match s.pIn with
    | [] => .done s
    | c :: rest =>
      let s1 := { s with pIn := rest, port := .producer, descIn := unpackDescriptor s.build c.desc }
      match decode c.hdr with
      | .ok i => .command i s1
      | .error _ => .done (fail .badCmd s1)
  else .done s

/-- C's turn (R102, R104). -/
def acceptConsumer (s : State) : TurnTaken :=
  if s.live then
    match s.cIn with
    | [] => .done s
    | h :: rest =>
      let s1 := { s with cIn := rest, port := .consumer }
      match decode h with
      | .ok i => .command i s1
      | .error _ => .done (fail .badCmd s1)
  else .done s

/-- One turn of the schedule; with no turn left the block "simply holds its state" (R212, log 7). -/
def takeTurn (s : State) : TurnTaken :=
  match s.turns with
  | [] => .done s
  | t :: rest =>
    let s1 := { s with turns := rest }
    match t with
    | .p => acceptProducer s1
    | .c => acceptConsumer s1
    | .sh k => .done (deliverHead k s1)
    | .st k => .done (deliverTail k s1)
    | .construct capReq => .done (hostConstruct capReq s1)
    | .resetRing => .done (hostReset s1)

/-- A live ring in which a command can be accepted: `s` itself where it is live, else `s` after CONSTRUCT of
`MAX_CAPACITY` slots (log 16). -/
def withLiveRing (s : State) : State :=
  if s.live then s else constructRing (BitVec.ofNat 32 s.build.maxCapacity) s

/-- Which port a header is presented on: the consumer's for its four data commands (`op` 0xC to 0xF), else the producer's (R108). -/
def portOfHeader (h : Header) : Port :=
  if 0xC ≤ (headerOp h).toNat then .consumer else .producer

/-- Presents the header made of the low 36 bits of `w` as the next command and gives its port the next turn, on a
live ring; `p_cmd_desc` is all zeros (log 16). -/
def presentNext (w : Nat) (s : State) : State :=
  let h : Header := BitVec.ofNat 36 w
  let s1 := withLiveRing s
  match portOfHeader h with
  | .producer => { s1 with pIn := { hdr := h, desc := 0 } :: s1.pIn, turns := .p :: s1.turns }
  | .consumer => { s1 with cIn := h :: s1.cIn, turns := .c :: s1.turns }

end Sys2Proof.Machine
end

