-- ==== Sys2Proof/Machine/Step.lean ====
section
/-! DEFINITION. One atomic step of one agent (R9, R10). -/

namespace Sys2Proof.Machine

open Sys2Proof

/-- One step: the next turn of the schedule is taken, and a command it accepts is executed. -/
def step (s : State) : Host.Outcome State Fault Refusal :=
  match takeTurn s with
  | .done s1 => .next s1
  | .command i s1 => exec i s1

/-- `s` with the command whose header is `w` presented so that the very next step accepts and runs it (log 16). -/
def State.withFetchWord (s : State) (_nbits w : Nat) : State := presentNext w s

end Sys2Proof.Machine
end

