-- ==== Sys2Proof/Machine/Pseudo.lean ====
section
/-! DEFINITION. The statements of the assembler syntax (R114) and the pseudo-instructions with their expansions (R115), as data. -/

namespace Sys2Proof.Machine

open Sys2Proof

/-- A statement `<agent>: <mnemonic> [<operand>]` of R114. `desc` is the operand of ENQ and ENQD. `DELIVER` without its
operand is `none`. -/
inductive Stmt where
  | p (i : Instr) (desc : Descriptor)
  | c (i : Instr)
  | construct (capReq : Word)
  | reset
  | shDeliver (k : Option Nat)
  | stDeliver (k : Option Nat)
deriving DecidableEq, Repr

/-- A producer command as it stands on the port's wires (R101, R105, R106). -/
def presented (b : Params) (i : Instr) (d : Descriptor) : PCmd := { hdr := encode i, desc := packDescriptor b d }

/-- The state in which the next step is the statement's: its agent has the turn, its command is presented (R114;
"with no operand `k` is the length of the flight list"). -/
def Stmt.give (st : Stmt) (s : State) : State :=
  match st with
  | .p i d => { s with pIn := presented s.build i d :: s.pIn, turns := .p :: s.turns }
  | .c i => { s with cIn := encode i :: s.cIn, turns := .c :: s.turns }
  | .construct capReq => { s with turns := .construct capReq :: s.turns }
  | .reset => { s with turns := .resetRing :: s.turns }
  | .shDeliver k => { s with turns := .sh (k.getD s.hFlight.length) :: s.turns }
  | .stDeliver k => { s with turns := .st (k.getD s.tFlight.length) :: s.turns }

/-- The mnemonic of a command (R108, R114). -/
def mnemonicText : Instr → String
  | .isEmpty _ => "IS_EMPTY"
  | .isFull _ => "IS_FULL"
  | .space _ => "SPACE"
  | .count _ => "COUNT"
  | .enq _ => "ENQ"
  | .enqb _ => "ENQB"
  | .enqd _ => "ENQD"
  | .deq _ => "DEQ"
  | .peek _ => "PEEK"
  | .deqb _ => "DEQB"
  | .deqd _ => "DEQD"

/-- A descriptor as the literal of R114, `ref`, `pa`, `len`, `flags`, `ts` between braces (the code points 123 and 125). -/
def descriptorText (d : Descriptor) : String :=
  String.singleton (Char.ofNat 123) ++ "ref=" ++ toString d.dataRef ++ ", pa=" ++ toString d.physAddr ++ ", len=" ++ toString d.length.toNat
    ++ ", flags=" ++ toString d.flags.toNat ++ ", ts=" ++ toString d.timestamp.toNat ++ String.singleton (Char.ofNat 125)

/-- The descriptor operand, where the statement has one. -/
def descriptorOperandText : Option Descriptor → String
  | none => ""
  | some d => " " ++ descriptorText d

/-- The operand of a statement: a descriptor for ENQ and ENQD, `len` for ENQB, `req` for DEQB, none for the others (R114). -/
def operandText (i : Instr) (d : Option Descriptor) : String :=
  match i with
  | .isEmpty _ => ""
  | .isFull _ => ""
  | .space _ => ""
  | .count _ => ""
  | .enq _ => descriptorOperandText d
  | .enqb len => " " ++ toString len.toNat
  | .enqd _ => descriptorOperandText d
  | .deq _ => ""
  | .peek _ => ""
  | .deqb req => " " ++ toString req.toNat
  | .deqd _ => ""

/-- `DELIVER [<k>]` (R114). -/
def deliverText : Option Nat → String
  | none => "DELIVER"
  | some k => "DELIVER " ++ toString k

/-- A statement as its line of the assembler syntax, numbers in decimal (R114). R114 lists no form for a data command on the
wrong port. The model's choice there: ENQ and ENQD on C have no operand, since C has no descriptor wires and
95_test_vectors.md P5 step 9 writes `C: ENQ`; DEQB on P and ENQB on C keep their number, which the header carries
(DESIGN CHOICE, log 23). -/
def Stmt.text : Stmt → String
  | .p i d => "P: " ++ mnemonicText i ++ operandText i (some d)
  | .c i => "C: " ++ mnemonicText i ++ operandText i none
  | .construct capReq => "HOST: CONSTRUCT " ++ toString capReq.toNat
  | .reset => "HOST: RESET"
  | .shDeliver k => "SH: " ++ deliverText k
  | .stDeliver k => "ST: " ++ deliverText k

/-- The document's API calls of the producer (R115). -/
inductive PCall where
  | enqueue (d : Descriptor)
  | enqueueBulk (items : List Descriptor)
  | isEmpty
  | isFull
  | availableSpace
  | occupiedCount
deriving DecidableEq, Repr

/-- The document's API calls of the consumer (R115). -/
inductive CCall where
  | dequeue
  | peek
  | dequeueBulk (req : Word)
  | isEmpty
  | isFull
  | availableSpace
  | occupiedCount
deriving DecidableEq, Repr

/-- The expansion of a producer call (R115), `granted` being the `val` its ENQB answers: the first `granted` items
become beats and the rest "stay with the caller". On ENQB and on the queries U12 lets `p_cmd_desc` be any value: the
model's choice is all zeros (DESIGN CHOICE, log 22). -/
def PCall.expand (b : Params) (granted : Nat) : PCall → List PCmd
  | .enqueue d => [presented b (.enq 0) d]
  | .enqueueBulk items =>
    presented b (.enqb (BitVec.ofNat 32 items.length)) Descriptor.zero
      :: (items.take granted).map fun d => presented b (.enqd 0) d
  | .isEmpty => [presented b (.isEmpty 0) Descriptor.zero]
  | .isFull => [presented b (.isFull 0) Descriptor.zero]
  | .availableSpace => [presented b (.space 0) Descriptor.zero]
  | .occupiedCount => [presented b (.count 0) Descriptor.zero]

/-- The expansion of a consumer call (R115), `granted` being the `val` its DEQB answers. -/
def CCall.expand (granted : Nat) : CCall → List Header
  | .dequeue => [encode (.deq 0)]
  | .peek => [encode (.peek 0)]
  | .dequeueBulk req => encode (.deqb req) :: List.replicate granted (encode (.deqd 0))
  | .isEmpty => [encode (.isEmpty 0)]
  | .isFull => [encode (.isFull 0)]
  | .availableSpace => [encode (.space 0)]
  | .occupiedCount => [encode (.count 0)]

/-- `SYNC` (R115): each synchronizer that has something in flight delivers all of it. -/
def syncTurns (s : State) : List Turn :=
  (if s.hFlight.isEmpty then [] else [.sh s.hFlight.length])
    ++ (if s.tFlight.isEmpty then [] else [.st s.tFlight.length])

/-- A settled state (R77). -/
def isSettled (s : State) : Bool := s.hFlight.isEmpty && s.tFlight.isEmpty

end Sys2Proof.Machine
end

