-- ==== Sys2Proof/Safety.lean ====
section
/-! DEFINITION. The terms claims are stated in: logical indices and the invariant (R36, R38), the queue's content (R36 I5),
legal commands (R109, R110), the slot a command stores to, states that differ in `IDX_W` only (R37), runs, fairness
(R76, R11 with D32) and the end of a run (R247). -/

namespace Sys2Proof.Machine

open Sys2Proof

/-! ### The invariant -/

/-- Ghost quantities (R38), "not hardware state": the logical values of the four index registers and of the
values in flight. -/
structure Ghost where
  H : Nat
  T : Nat
  Hc : Nat
  Tp : Nat
  hs : List Nat
  ts : List Nat
deriving DecidableEq, Repr

/-- The register value of a logical index (R38): its value modulo `2^IDX_W`. -/
def idxOf (b : Params) (x : Nat) : Idx := BitVec.ofNat 32 (x % 2 ^ b.idxW)

/-- I3 for one flight list: strictly increasing, every element above the delivered value `base`, the last element
`newest`; when it is empty `base = newest`. -/
structure FlightOk (base newest : Nat) (l : List Nat) : Prop where
  rising : l.Pairwise (· < ·)
  above : ∀ x ∈ l, base < x
  ends : l.getLast?.getD base = newest

/-- R36 for a live ring with the ghost values `g`: the capacity legal (R35), the registers the ghosts modulo
`2^IDX_W`, I1, I3, I4, of I5 that every pending slot is written, and, for a burst, the written beats. I2 and I6
follow; which descriptor a pending slot holds (the rest of I5) is said step by step through `pending`. -/
structure LiveInv (g : Ghost) (s : State) : Prop where
  capPow : ∃ k, s.capacity.toNat = 2 ^ k
  capMin : 2 ≤ s.capacity.toNat
  capMax : s.capacity.toNat ≤ s.build.maxCapacity
  maskEq : s.mask = s.capacity - 1
  headEq : s.head = idxOf s.build g.H
  tailEq : s.tail = idxOf s.build g.T
  headCEq : s.headC = idxOf s.build g.Hc
  tailPEq : s.tailP = idxOf s.build g.Tp
  hFlightEq : s.hFlight = g.hs.map (idxOf s.build)
  tFlightEq : s.tFlight = g.ts.map (idxOf s.build)
  chainT : g.Tp ≤ g.T
  chainHc : g.T ≤ g.Hc
  chainH : g.Hc ≤ g.H
  chainCap : g.H ≤ g.Tp + s.capacity.toNat - 1
  hOk : FlightOk g.Hc g.H g.hs
  tOk : FlightOk g.Tp g.T g.ts
  pOk : ∀ n i, s.pBurst = .opened n i → 1 ≤ n.toNat ∧ n.toNat ≤ s.capacity.toNat - 1 - (g.H - g.Tp) ∧ i.toNat < n.toNat
  cOk : ∀ n i, s.cBurst = .opened n i → 1 ≤ n.toNat ∧ n.toNat ≤ g.Hc - g.T ∧ i.toNat < n.toNat
  written : ∀ x, g.T ≤ x → x < g.H → (s.slots.read (x % s.capacity.toNat)).isSome
  staged : ∀ n i, s.pBurst = .opened n i → ∀ j, j < i.toNat → (s.slots.read ((g.H + j) % s.capacity.toNat)).isSome
  status : s.cfgStatus = .ok

/-- A state with no ring (R39, first two columns). -/
structure RestInv (s : State) : Prop where
  head : s.head = 0
  tail : s.tail = 0
  headC : s.headC = 0
  tailP : s.tailP = 0
  hFlight : s.hFlight = []
  tFlight : s.tFlight = []
  pBurst : s.pBurst = .idle
  cBurst : s.cBurst = .idle
  status : s.cfgStatus = .ok ∨ s.cfgStatus = .invalidCapacity ∨ s.cfgStatus = .allocFail

/-- The invariant of the machine: a legal build (R5), the storage canonical and inside `MAX_CAPACITY` (R60), and R36 while
live, R39's resting values while not. -/
structure Inv (s : State) : Prop where
  build : s.build.wf = true
  canonical : s.slots.wf
  inside : ∀ x ∈ s.slots, x.1 < s.build.maxCapacity
  live : s.live = true → ∃ g, LiveInv g s
  rest : s.live = false → RestInv s

/-- R20's width column, for the registers the model holds in a wider container: every index fits `IDX_W` bits (log 2), every
descriptor fits `DESC_W` bits (log 15). -/
structure WidthsOk (s : State) : Prop where
  head : s.head.toNat < 2 ^ s.build.idxW
  tail : s.tail.toNat < 2 ^ s.build.idxW
  headC : s.headC.toNat < 2 ^ s.build.idxW
  tailP : s.tailP.toNat < 2 ^ s.build.idxW
  hFlight : ∀ v ∈ s.hFlight, v.toNat < 2 ^ s.build.idxW
  tFlight : ∀ v ∈ s.tFlight, v.toNat < 2 ^ s.build.idxW
  slots : ∀ x ∈ s.slots, x.2.wf s.build = true
  descIn : s.descIn.wf s.build = true

/-! ### The queue's content -/

/-- The true occupancy `H − T` (R36 I2, R145). -/
def occupancy (s : State) : Word := idxSub s.build s.head s.tail &&& s.mask

/-- The content of the slot `j` places after `tail`. -/
def pendingAt (s : State) (j : Nat) : Option Descriptor :=
  s.slots.read (slotOf s.mask (idxAdd s.build s.tail (BitVec.ofNat 32 j)))

/-- The committed items not yet dequeued, oldest first: the slots from `tail` up to `head` (R36 I5). -/
def pending (s : State) : List (Option Descriptor) := (List.range (occupancy s).toNat).map (pendingAt s)

/-- The content of the slot `j` places after `head`. -/
def stagedAt (s : State) (j : Nat) : Option Descriptor :=
  s.slots.read (slotOf s.mask (idxAdd s.build s.head (BitVec.ofNat 32 j)))

/-- The items of an open enqueue burst written so far and not yet committed, in order (R162 iii). -/
def staged (s : State) : List (Option Descriptor) :=
  match s.pBurst with
  | .idle => []
  | .opened _ i => (List.range i.toNat).map (stagedAt s)

/-! ### Legal commands -/

/-- Which opcodes a port takes as legal in a burst state (R109, R110). -/
def legalOpcodes (p : Port) (burst : Burst) : List (BitVec 4) :=
  match p, burst with
  | .producer, .idle => [0x1, 0x2, 0x3, 0x4, 0x8, 0x9]
  | .producer, .opened _ _ => [0x1, 0x2, 0x3, 0x4, 0xA]
  | .consumer, .idle => [0x1, 0x2, 0x3, 0x4, 0xC, 0xD, 0xE]
  | .consumer, .opened _ _ => [0x1, 0x2, 0x3, 0x4, 0xF]

/-- The burst record of a port. -/
def burstOf (p : Port) (s : State) : Burst :=
  match p with
  | .producer => s.pBurst
  | .consumer => s.cBurst

/-! ### Whose state a field is -/

/-- The slot a command stores to, none where it stores nothing: `head & mask` for an ENQ that is neither illegal nor
answered `RingFull` (R160), `(head + i) & mask` for a beat of an open enqueue burst (R162); no other command writes
a slot (R60). -/
def storedSlot (i : Instr) (s : State) : Option Nat :=
  match i with
  | .isEmpty _ => none
  | .isFull _ => none
  | .space _ => none
  | .count _ => none
  | .enq _ =>
    if s.port = .producer ∧ s.pBurst = .idle ∧ isFullView s.build s.mask (viewOf .producer s) = false then some (enqSlot s)
    else none
  | .enqb _ => none
  | .enqd _ =>
    match s.port, s.pBurst with
    | .producer, .opened _ beat => some (enqdSlot beat s)
    | .producer, .idle => none
    | .consumer, _ => none
  | .deq _ => none
  | .peek _ => none
  | .deqb _ => none
  | .deqd _ => none

/-- `t` differs from `s` only in what P may write (R210: `slots`, `head`, `h_flight`, `p_burst`) and in its responses. -/
def OnlyProducerState (s t : State) : Prop :=
  t = { s with slots := t.slots, head := t.head, hFlight := t.hFlight, pBurst := t.pBurst, pOut := t.pOut }

/-- `t` differs from `s` only in what C may write (R210: `tail`, `t_flight`, `c_burst`) and in its responses. -/
def OnlyConsumerState (s t : State) : Prop :=
  t = { s with tail := t.tail, tFlight := t.tFlight, cBurst := t.cBurst, cOut := t.cOut }

/-- `s` and `s'` agree on all that P may read (R210: `head`, `tail_p`, `p_burst`, `capacity`, `mask`, `live`), on the
command it executes, its past responses and what it alone writes; they may differ in the slots, in `tail`, `head_c`,
`c_burst`, `t_flight`, `cfg_status` and in the consumer's streams. -/
def SameForProducer (s s' : State) : Prop :=
  s' = { s with
    slots := s'.slots, tail := s'.tail, headC := s'.headC, cBurst := s'.cBurst, tFlight := s'.tFlight,
    cfgStatus := s'.cfgStatus, cIn := s'.cIn, cOut := s'.cOut }

/-- `s` and `s'` agree on all that C may read (R210: `slots`, `tail`, `head_c`, `c_burst`, `capacity`, `mask`, `live`), on
its past responses and what it alone writes; they may differ in `head`, `tail_p`, `p_burst`, `h_flight`,
`cfg_status` and in the producer's streams. -/
def SameForConsumer (s s' : State) : Prop :=
  s' = { s with
    head := s'.head, tailP := s'.tailP, pBurst := s'.pBurst, hFlight := s'.hFlight,
    cfgStatus := s'.cfgStatus, pIn := s'.pIn, pOut := s'.pOut, descIn := s'.descIn }

/-! ### States that differ in the index width only -/

/-- Two states of two builds that differ in `IDX_W` and in the representation of the same logical indices, and in
nothing else (R37). -/
structure SameUpToIndexWidth (s s' : State) : Prop where
  build : s'.build = { s.build with idxW := s'.build.idxW }
  others : s' = { s with
    build := s'.build, head := s'.head, tail := s'.tail, headC := s'.headC, tailP := s'.tailP,
    hFlight := s'.hFlight, tFlight := s'.tFlight }
  logical : s.live = true → ∃ g, LiveInv g s ∧ LiveInv g s'

/-! ### Runs -/

/-- Between two steps the outside world may append commands and turns (R33). -/
def Offers (s t : State) : Prop :=
  ∃ p c u, t = { s with pIn := s.pIn ++ p, cIn := s.cIn ++ c, turns := s.turns ++ u }

/-- An infinite run: every state steps, and the next one is the result with what the outside world appended. -/
def IsRun (e : Nat → State) : Prop := ∀ n, ∃ t, step (e n) = .next t ∧ Offers t (e (n + 1))

/-- SH is enabled (R72). -/
def shEnabled (s : State) : Prop := s.live = true ∧ s.hFlight ≠ []

/-- ST is enabled (R73). -/
def stEnabled (s : State) : Prop := s.live = true ∧ s.tFlight ≠ []

/-- The next step is a step of SH. -/
def shSteps (s : State) : Prop :=
  s.live = true ∧ ∃ k rest, s.turns = .sh k :: rest ∧ 1 ≤ k ∧ k ≤ s.hFlight.length

/-- The next step is a step of ST. -/
def stSteps (s : State) : Prop :=
  s.live = true ∧ ∃ k rest, s.turns = .st k :: rest ∧ 1 ≤ k ∧ k ≤ s.tFlight.length

/-- Weak fairness of both synchronizers (R76): one that stays enabled eventually steps. -/
def WeaklyFair (e : Nat → State) : Prop :=
  (∀ n, (∀ m, n ≤ m → shEnabled (e m)) → ∃ m, n ≤ m ∧ shSteps (e m))
    ∧ (∀ n, (∀ m, n ≤ m → stEnabled (e m)) → ∃ m, n ≤ m ∧ stSteps (e m))

/-- P is enabled: a live ring has a command presented (R104, R243). -/
def pEnabled (s : State) : Prop := s.live = true ∧ s.pIn ≠ []

/-- C is enabled (R104, R243). -/
def cEnabled (s : State) : Prop := s.live = true ∧ s.cIn ≠ []

/-- The next step accepts a command of P. -/
def pSteps (s : State) : Prop := pEnabled s ∧ ∃ rest, s.turns = .p :: rest

/-- The next step accepts a command of C. -/
def cSteps (s : State) : Prop := cEnabled s ∧ ∃ rest, s.turns = .c :: rest

/-- Weak fairness of both ports: a presented command that stays acceptable is eventually accepted. This is what
92_eei_decisions.md D32 settles R11 and R104 as, "While `live = 1` every presented command is eventually accepted and
answered"; the answer comes in the same step. -/
def ServesPorts (e : Nat → State) : Prop :=
  (∀ n, (∀ m, n ≤ m → pEnabled (e m)) → ∃ m, n ≤ m ∧ pSteps (e m))
    ∧ (∀ n, (∀ m, n ≤ m → cEnabled (e m)) → ∃ m, n ≤ m ∧ cSteps (e m))

/-- From the `n`-th state on the collaborators present no further command: what is in the streams is all there is (R247). -/
def StreamsEnd (e : Nat → State) (n : Nat) : Prop :=
  ∀ (m : Nat) (t : State), n ≤ m → step (e m) = .next t → (e (m + 1)).pIn = t.pIn ∧ (e (m + 1)).cIn = t.cIn

/-- The natural end state of R247: "both streams exhausted, `p_burst = c_burst = idle`, and the ring settled". -/
def isQuiescent (s : State) : Bool :=
  s.pIn.isEmpty && s.cIn.isEmpty && s.pBurst == .idle && s.cBurst == .idle && isSettled s

/-- `n` steps. -/
def stepN : Nat → State → Result
  | 0, s => .next s
  | n + 1, s =>
    match step s with
    | .next t => stepN n t
    | .fault f => .fault f
    | .refused r => .refused r

end Sys2Proof.Machine
end

