-- ==== Sys2Proof/Certificates/Slice0/Obligations.lean ====
section
/-! DEFINITION. The statements for the provers: the rules R<n> of spec/ that say what a command, an agent or the machine does. -/

open Sys2Proof Sys2Proof.Machine

/-! ### Encodings -/

/-- R105, R111: decoding and encoding are inverse to each other; no bit of a header is dropped, and a header decodes
to a command exactly when it is that command's encoding. -/
def Obligations.DecodeAndEncodeAreInverse : Prop :=
  ∀ (h : Header) (i : Instr), decode h = .ok i ↔ encode i = h

/-- R105, R108: the eleven rows of the opcode map, each as its match under its mask with `arg` the low 32 bits; the
"port" column; and what bits 3 and 2 of the opcode separate. -/
def Obligations.HeadersDecodeByTheOpcodeMap : Prop :=
  (∀ h : Header,
    (h &&& 0xF00000000#36 = 0x100000000#36 ↔ decode h = .ok (.isEmpty (h.extractLsb' 0 32)))
    ∧ (h &&& 0xF00000000#36 = 0x200000000#36 ↔ decode h = .ok (.isFull (h.extractLsb' 0 32)))
    ∧ (h &&& 0xF00000000#36 = 0x300000000#36 ↔ decode h = .ok (.space (h.extractLsb' 0 32)))
    ∧ (h &&& 0xF00000000#36 = 0x400000000#36 ↔ decode h = .ok (.count (h.extractLsb' 0 32)))
    ∧ (h &&& 0xF00000000#36 = 0x800000000#36 ↔ decode h = .ok (.enq (h.extractLsb' 0 32)))
    ∧ (h &&& 0xF00000000#36 = 0x900000000#36 ↔ decode h = .ok (.enqb (h.extractLsb' 0 32)))
    ∧ (h &&& 0xF00000000#36 = 0xA00000000#36 ↔ decode h = .ok (.enqd (h.extractLsb' 0 32)))
    ∧ (h &&& 0xF00000000#36 = 0xC00000000#36 ↔ decode h = .ok (.deq (h.extractLsb' 0 32)))
    ∧ (h &&& 0xF00000000#36 = 0xD00000000#36 ↔ decode h = .ok (.peek (h.extractLsb' 0 32)))
    ∧ (h &&& 0xF00000000#36 = 0xE00000000#36 ↔ decode h = .ok (.deqb (h.extractLsb' 0 32)))
    ∧ (h &&& 0xF00000000#36 = 0xF00000000#36 ↔ decode h = .ok (.deqd (h.extractLsb' 0 32))))
  ∧ (∀ (h : Header) (i : Instr), decode h = .ok i →
      ((headerOp h).getLsbD 3 = false ↔ i.legalOn .producer = true ∧ i.legalOn .consumer = true)
      ∧ ((headerOp h).getLsbD 3 = true → (headerOp h).getLsbD 2 = false →
          i.legalOn .producer = true ∧ i.legalOn .consumer = false)
      ∧ ((headerOp h).getLsbD 3 = true → (headerOp h).getLsbD 2 = true →
          i.legalOn .producer = false ∧ i.legalOn .consumer = true))

/-- R111: exactly the five reserved opcodes are refused by the decoder, each by its name. -/
def Obligations.OnlyReservedOpcodesAreRejected : Prop :=
  ∀ h : Header,
    (headerOp h ∈ [0x0#4, 0x5#4, 0x6#4, 0x7#4, 0xB#4] → decode h = .error (.reservedOpcode (headerOp h)))
    ∧ (headerOp h ∉ [0x0#4, 0x5#4, 0x6#4, 0x7#4, 0xB#4] → ∃ i, decode h = .ok i)

/-- Sanity: header words of 95_test_vectors.md decode to the commands they stand for. -/
def Obligations.SampleHeadersDecode : Prop :=
  decode 0x1FFFFFFFF#36 = .ok (.isEmpty 0xFFFFFFFF#32) ∧ decode 0x300000000#36 = .ok (.space 0#32)
    ∧ decode 0x90000000A#36 = .ok (.enqb 10#32) ∧ decode 0xA00000000#36 = .ok (.enqd 0#32)
    ∧ decode 0xE00000064#36 = .ok (.deqb 100#32) ∧ decode 0xF00000000#36 = .ok (.deqd 0#32)

/-- R106: the five fields are these slices of the `DESC_W` bits, and packing and unpacking lose nothing in either
direction, so a descriptor comes out equal in every bit (R63). -/
def Obligations.DescriptorBitsFollowTheLayout : Prop :=
  (∀ (b : Params) (v : Nat), v < 2 ^ b.descW →
    (unpackDescriptor b v).dataRef = v % 2 ^ b.refW
    ∧ (unpackDescriptor b v).physAddr = v / 2 ^ b.refW % 2 ^ b.paW
    ∧ (unpackDescriptor b v).length.toNat = v / 2 ^ (b.refW + b.paW) % 2 ^ 16
    ∧ (unpackDescriptor b v).flags.toNat = v / 2 ^ (b.refW + b.paW + 16) % 2 ^ 16
    ∧ (unpackDescriptor b v).timestamp.toNat = v / 2 ^ (b.refW + b.paW + 32) % 2 ^ 64
    ∧ packDescriptor b (unpackDescriptor b v) = v)
  ∧ (∀ (b : Params) (d : Descriptor), d.wf b = true →
    packDescriptor b d < 2 ^ b.descW ∧ unpackDescriptor b (packDescriptor b d) = d)

/-! ### A step and the commands it runs -/

/-- R104, R101, R102: with a ring, a port's turn takes the presented command off its stream and runs the command its
header decodes to; on P the descriptor wires are taken with it. -/
def Obligations.StepRunsTheDecodedCommand : Prop :=
  ∀ (s : State) (ts : List Turn) (i : Instr), s.live = true →
    (∀ (c : PCmd) (rest : List PCmd), s.turns = .p :: ts → s.pIn = c :: rest → decode c.hdr = .ok i →
      step s = exec i { s with turns := ts, pIn := rest, port := .producer, descIn := unpackDescriptor s.build c.desc })
    ∧ (∀ (h : Header) (rest : List Header), s.turns = .c :: ts → s.cIn = h :: rest → decode h = .ok i →
      step s = exec i { s with turns := ts, cIn := rest, port := .consumer })

/-- R204 with R109, R110, R111: a header that is not legal on its port in the present burst state answers `BadCmd` with
`val = 0`, writes no state, and leaves the burst record as it was. -/
def Obligations.IllegalCommandAnswersBadCmd : Prop :=
  ∀ (s : State) (ts : List Turn), s.live = true →
    (∀ (c : PCmd) (rest : List PCmd), s.turns = .p :: ts → s.pIn = c :: rest →
      headerOp c.hdr ∉ legalOpcodes .producer s.pBurst →
      step s = .next { s with
        turns := ts, pIn := rest, port := .producer, descIn := unpackDescriptor s.build c.desc,
        pOut := s.pOut ++ [⟨.badCmd, 0, none⟩] })
    ∧ (∀ (h : Header) (rest : List Header), s.turns = .c :: ts → s.cIn = h :: rest →
      headerOp h ∉ legalOpcodes .consumer s.cBurst →
      step s = .next { s with
        turns := ts, cIn := rest, port := .consumer, cOut := s.cOut ++ [⟨.badCmd, 0, none⟩] })

/-- R109, R110: a command that is legal on its port in the present burst state never answers `BadCmd`. -/
def Obligations.LegalCommandNeverAnswersBadCmd : Prop :=
  ∀ (s t : State) (ts : List Turn), s.live = true → step s = .next t →
    (∀ (c : PCmd) (rest : List PCmd), s.turns = .p :: ts → s.pIn = c :: rest →
      headerOp c.hdr ∈ legalOpcodes .producer s.pBurst → ∃ r, t.pOut = s.pOut ++ [r] ∧ r.status ≠ .badCmd)
    ∧ (∀ (h : Header) (rest : List Header), s.turns = .c :: ts → s.cIn = h :: rest →
      headerOp h ∈ legalOpcodes .consumer s.cBurst → ∃ r, t.cOut = s.cOut ++ [r] ∧ r.status ≠ .badCmd)

/-- R104: every accepted command gets exactly one response and responses come in command order: on each port a step takes
commands off the front of the stream and appends as many responses at the end. -/
def Obligations.EveryCommandGetsOneResponse : Prop :=
  ∀ s t : State, step s = .next t →
    (∃ cmds rsps, s.pIn = cmds ++ t.pIn ∧ t.pOut = s.pOut ++ rsps ∧ cmds.length = rsps.length ∧ cmds.length ≤ 1)
    ∧ (∃ cmds rsps, s.cIn = cmds ++ t.cIn ∧ t.cOut = s.cOut ++ rsps ∧ cmds.length = rsps.length ∧ cmds.length ≤ 1)

/-- R107, R200, R201, R202: a command answers on its own port, once, with `OK`, `BadCmd`, `RingFull` (ENQ only) or `RingEmpty`
(DEQ and PEEK only); a response that is not `OK` has `val = 0` and no descriptor; P never gets a descriptor. -/
def Obligations.StatusesComeOnlyFromTheirCommands : Prop :=
  ∀ (i : Instr) (s t : State), exec i s = .next t →
    ∃ r : Response,
      ((s.port = .producer ∧ t.pOut = s.pOut ++ [r] ∧ t.cOut = s.cOut ∧ r.desc = none)
        ∨ (s.port = .consumer ∧ t.cOut = s.cOut ++ [r] ∧ t.pOut = s.pOut))
      ∧ (r.status = .ok ∨ r.status = .badCmd
        ∨ (r.status = .ringFull ∧ s.port = .producer ∧ ∃ a, i = .enq a)
        ∨ (r.status = .ringEmpty ∧ s.port = .consumer ∧ ∃ a, i = .deq a ∨ i = .peek a))
      ∧ (r.status ≠ .ok → r.val = 0 ∧ r.desc = none)

/-- R206: a command whose response is not `OK` changes no state at all. -/
def Obligations.FailingCommandChangesNothing : Prop :=
  ∀ (i : Instr) (s t : State) (r : Response), exec i s = .next t → r.status ≠ .ok →
    (t.pOut = s.pOut ++ [r] ∨ t.cOut = s.cOut ++ [r]) → t = { s with pOut := t.pOut, cOut := t.cOut }

/-- R112: but for ENQB and DEQB, all 32 `arg` bits are ignored. -/
def Obligations.ArgumentBitsAreIgnored : Prop :=
  ∀ (a a' : Word) (s : State),
    exec (.isEmpty a) s = exec (.isEmpty a') s ∧ exec (.isFull a) s = exec (.isFull a') s
    ∧ exec (.space a) s = exec (.space a') s ∧ exec (.count a) s = exec (.count a') s
    ∧ exec (.enq a) s = exec (.enq a') s ∧ exec (.enqd a) s = exec (.enqd a') s
    ∧ exec (.deq a) s = exec (.deq a') s ∧ exec (.peek a) s = exec (.peek a') s
    ∧ exec (.deqd a) s = exec (.deqd a') s

/-- R22: the controller reads, checks, compares and changes no field of a descriptor: with another descriptor on the
wires a command does the same to every piece of state, stores to the same slot (there each run stores its own
descriptor, every other slot reads as before), and faults alike. -/
def Obligations.DescriptorContentsAreOpaque : Prop :=
  ∀ (i : Instr) (s : State) (d : Descriptor),
    (∃ t t', exec i s = .next t ∧ exec i { s with descIn := d } = .next t' ∧ t' = { t with descIn := d, slots := t'.slots }
      ∧ ∀ x,
        (storedSlot i s = some x → t.slots.read x = some s.descIn ∧ t'.slots.read x = some d)
        ∧ (storedSlot i s ≠ some x → t.slots.read x = s.slots.read x ∧ t'.slots.read x = s.slots.read x))
    ∨ (∃ f, exec i s = .fault f ∧ exec i { s with descIn := d } = .fault f)

/-! ### The queries and the flags -/

/-- R139, R140, R141: IS_EMPTY and IS_FULL complete on either port, in either burst state, and write no state. -/
def Obligations.EmptyAndFullQueriesAnswer : Prop :=
  ∀ (a : Word) (s : State),
    (s.port = .producer →
      exec (.isEmpty a) s = .next { s with
        pOut := s.pOut ++ [⟨.ok, if s.head = s.tailP then 1 else 0, none⟩] }
      ∧ exec (.isFull a) s = .next { s with
        pOut := s.pOut ++ [⟨.ok, if idxSub s.build s.head s.tailP &&& s.mask = s.mask then 1 else 0, none⟩] })
    ∧ (s.port = .consumer →
      exec (.isEmpty a) s = .next { s with
        cOut := s.cOut ++ [⟨.ok, if s.headC = s.tail then 1 else 0, none⟩] }
      ∧ exec (.isFull a) s = .next { s with
        cOut := s.cOut ++ [⟨.ok, if idxSub s.build s.headC s.tail &&& s.mask = s.mask then 1 else 0, none⟩] })

/-- R139, R142, R143: SPACE and COUNT complete on either port, in either burst state, and write no state. -/
def Obligations.SpaceAndCountQueriesAnswer : Prop :=
  ∀ (a : Word) (s : State),
    (s.port = .producer →
      exec (.space a) s = .next { s with
        pOut := s.pOut ++ [⟨.ok, s.capacity - (idxSub s.build s.head s.tailP &&& s.mask) - 1, none⟩] }
      ∧ exec (.count a) s = .next { s with
        pOut := s.pOut ++ [⟨.ok, idxSub s.build s.head s.tailP &&& s.mask, none⟩] })
    ∧ (s.port = .consumer →
      exec (.space a) s = .next { s with
        cOut := s.cOut ++ [⟨.ok, s.capacity - (idxSub s.build s.headC s.tail &&& s.mask) - 1, none⟩] }
      ∧ exec (.count a) s = .next { s with
        cOut := s.cOut ++ [⟨.ok, idxSub s.build s.headC s.tail &&& s.mask, none⟩] })

/-- R144: the flag outputs of both ports, with and without a ring; and a query answers what its port's wire shows. -/
def Obligations.FlagOutputsAreCombinational : Prop :=
  ∀ s : State,
    (s.live = true →
      flagOutputs .producer s =
        ⟨decide (s.head = s.tailP), decide (idxSub s.build s.head s.tailP &&& s.mask = s.mask),
          idxSub s.build s.head s.tailP &&& s.mask, s.capacity - (idxSub s.build s.head s.tailP &&& s.mask) - 1⟩
      ∧ flagOutputs .consumer s =
        ⟨decide (s.headC = s.tail), decide (idxSub s.build s.headC s.tail &&& s.mask = s.mask),
          idxSub s.build s.headC s.tail &&& s.mask, s.capacity - (idxSub s.build s.headC s.tail &&& s.mask) - 1⟩
      ∧ ∀ (a : Word),
        exec (.isEmpty a) s = .next (respond .ok (if (flagOutputs s.port s).empty then 1 else 0) none s)
        ∧ exec (.isFull a) s = .next (respond .ok (if (flagOutputs s.port s).full then 1 else 0) none s)
        ∧ exec (.count a) s = .next (respond .ok (flagOutputs s.port s).count none s)
        ∧ exec (.space a) s = .next (respond .ok (flagOutputs s.port s).space none s))
    ∧ (s.live = false → ∀ p, flagOutputs p s = ⟨true, true, 0, 0⟩)

/-- R147: the identities between the four quantities of one view. -/
def Obligations.QueryIdentitiesHold : Prop :=
  ∀ (s : State) (p : Port), Inv s → s.live = true →
    ((flagOutputs p s).empty = true ↔ (flagOutputs p s).count = 0)
    ∧ ((flagOutputs p s).count = 0 ↔ (flagOutputs p s).space = s.capacity - 1)
    ∧ ((flagOutputs p s).full = true ↔ (flagOutputs p s).count = s.capacity - 1)
    ∧ ((flagOutputs p s).full = true ↔ (flagOutputs p s).space = 0)
    ∧ (flagOutputs p s).count.toNat + (flagOutputs p s).space.toNat = s.capacity.toNat - 1
    ∧ ¬ ((flagOutputs p s).empty = true ∧ (flagOutputs p s).full = true)

/-- R145: `c_count <= occ <= p_count`; a P view that is not full means a free slot, one that no step but P's takes away;
a C view that is not empty means an item, one that no step but C's takes away. -/
def Obligations.ViewsBracketTheOccupancy : Prop :=
  ∀ s : State, Inv s → s.live = true →
    (flagOutputs .consumer s).count.toNat ≤ (occupancy s).toNat
    ∧ (occupancy s).toNat ≤ (flagOutputs .producer s).count.toNat
    ∧ (occupancy s).toNat ≤ s.capacity.toNat - 1
    ∧ ((flagOutputs .producer s).full = false → (occupancy s).toNat < s.capacity.toNat - 1)
    ∧ ((flagOutputs .consumer s).empty = false → 0 < (occupancy s).toNat)
    ∧ (∀ (t : State) (x : Turn) (ts : List Turn), s.turns = x :: ts → step s = .next t → t.live = true →
        (x ≠ .p → (flagOutputs .producer s).full = false → (flagOutputs .producer t).full = false)
        ∧ (x ≠ .c → (flagOutputs .consumer s).empty = false → (flagOutputs .consumer t).empty = false))

/-! ### The producer's commands -/

/-- R160: ENQ, whole: `BadCmd` during a burst, `RingFull` on a full P view, else one slot, `head` and `h_flight`. -/
def Obligations.EnqWritesOneSlotAndAdvancesHead : Prop :=
  ∀ (a : Word) (s : State), s.port = .producer →
    (s.pBurst ≠ .idle → exec (.enq a) s = .next { s with pOut := s.pOut ++ [⟨.badCmd, 0, none⟩] })
    ∧ (s.pBurst = .idle → idxSub s.build s.head s.tailP &&& s.mask = s.mask →
      exec (.enq a) s = .next { s with pOut := s.pOut ++ [⟨.ringFull, 0, none⟩] })
    ∧ (s.pBurst = .idle → idxSub s.build s.head s.tailP &&& s.mask ≠ s.mask →
      (s.head &&& s.mask).toNat < s.build.maxCapacity →
      ∃ t, exec (.enq a) s = .next t
        ∧ (∀ x, t.slots.read x = if x = (s.head &&& s.mask).toNat then some s.descIn else s.slots.read x)
        ∧ t = { s with
          slots := t.slots, head := idxAdd s.build s.head 1, hFlight := s.hFlight ++ [idxAdd s.build s.head 1],
          pOut := s.pOut ++ [⟨.ok, 0, none⟩] })

/-- R161: ENQB, whole: `BadCmd` during a burst, else `n = min(len, space)`, a burst opened when `n > 0`, never `RingFull`. -/
def Obligations.EnqbGrantsMinOfLengthAndSpace : Prop :=
  ∀ (len n : Word) (s : State), s.port = .producer →
    (s.pBurst ≠ .idle → exec (.enqb len) s = .next { s with pOut := s.pOut ++ [⟨.badCmd, 0, none⟩] })
    ∧ (s.pBurst = .idle →
      n.toNat = min len.toNat (s.capacity - (idxSub s.build s.head s.tailP &&& s.mask) - 1).toNat →
      exec (.enqb len) s = .next { s with
        pBurst := if n = 0 then .idle else .opened n 0
        pOut := s.pOut ++ [⟨.ok, n, none⟩] })

/-- R162: ENQD, whole: `BadCmd` with no burst; each beat writes one slot; only the last moves `head`, by `n` in one step. -/
def Obligations.EnqdWritesABeatAndCommitsTheLast : Prop :=
  ∀ (a n i : Word) (s : State), s.port = .producer →
    (s.pBurst = .idle → exec (.enqd a) s = .next { s with pOut := s.pOut ++ [⟨.badCmd, 0, none⟩] })
    ∧ (s.pBurst = .opened n i → (idxAdd s.build s.head i &&& s.mask).toNat < s.build.maxCapacity →
      ∃ t, exec (.enqd a) s = .next t
        ∧ (∀ x, t.slots.read x =
            if x = (idxAdd s.build s.head i &&& s.mask).toNat then some s.descIn else s.slots.read x)
        ∧ (i.toNat + 1 < n.toNat →
          t = { s with slots := t.slots, pBurst := .opened n (i + 1), pOut := s.pOut ++ [⟨.ok, n - i - 1, none⟩] })
        ∧ (i.toNat + 1 = n.toNat →
          t = { s with
            slots := t.slots, head := idxAdd s.build s.head n, hFlight := s.hFlight ++ [idxAdd s.build s.head n],
            pBurst := .idle, pOut := s.pOut ++ [⟨.ok, 0, none⟩] }))

/-! ### The consumer's commands -/

/-- R180: DEQ, whole: `BadCmd` during a burst, `RingEmpty` on an empty C view, else the descriptor, `tail` and `t_flight`; the
slot keeps its content. -/
def Obligations.DeqReturnsTheSlotAndAdvancesTail : Prop :=
  ∀ (a : Word) (d : Descriptor) (s : State), s.port = .consumer →
    (s.cBurst ≠ .idle → exec (.deq a) s = .next { s with cOut := s.cOut ++ [⟨.badCmd, 0, none⟩] })
    ∧ (s.cBurst = .idle → s.headC = s.tail →
      exec (.deq a) s = .next { s with cOut := s.cOut ++ [⟨.ringEmpty, 0, none⟩] })
    ∧ (s.cBurst = .idle → s.headC ≠ s.tail → (s.tail &&& s.mask).toNat < s.build.maxCapacity →
      s.slots.read (s.tail &&& s.mask).toNat = some d →
      exec (.deq a) s = .next { s with
        tail := idxAdd s.build s.tail 1, tFlight := s.tFlight ++ [idxAdd s.build s.tail 1],
        cOut := s.cOut ++ [⟨.ok, 0, some d⟩] })

/-- R182: PEEK, whole: the statuses of DEQ, the descriptor, and no state written in any case. -/
def Obligations.PeekReturnsTheSlotAndWritesNothing : Prop :=
  ∀ (a : Word) (d : Descriptor) (s : State), s.port = .consumer →
    (s.cBurst ≠ .idle → exec (.peek a) s = .next { s with cOut := s.cOut ++ [⟨.badCmd, 0, none⟩] })
    ∧ (s.cBurst = .idle → s.headC = s.tail →
      exec (.peek a) s = .next { s with cOut := s.cOut ++ [⟨.ringEmpty, 0, none⟩] })
    ∧ (s.cBurst = .idle → s.headC ≠ s.tail → (s.tail &&& s.mask).toNat < s.build.maxCapacity →
      s.slots.read (s.tail &&& s.mask).toNat = some d →
      exec (.peek a) s = .next { s with cOut := s.cOut ++ [⟨.ok, 0, some d⟩] })

/-- R183: DEQB, whole: `BadCmd` during a burst, else `n = min(req, cnt)`, a burst opened when `n > 0`, never `RingEmpty`. -/
def Obligations.DeqbGrantsMinOfRequestAndCount : Prop :=
  ∀ (req n : Word) (s : State), s.port = .consumer →
    (s.cBurst ≠ .idle → exec (.deqb req) s = .next { s with cOut := s.cOut ++ [⟨.badCmd, 0, none⟩] })
    ∧ (s.cBurst = .idle → n.toNat = min req.toNat (idxSub s.build s.headC s.tail &&& s.mask).toNat →
      exec (.deqb req) s = .next { s with
        cBurst := if n = 0 then .idle else .opened n 0
        cOut := s.cOut ++ [⟨.ok, n, none⟩] })

/-- R184: DEQD, whole: `BadCmd` with no burst; each beat returns one slot; only the last moves `tail`, by `n` in one step. -/
def Obligations.DeqdReturnsABeatAndCommitsTheLast : Prop :=
  ∀ (a n i : Word) (d : Descriptor) (s : State), s.port = .consumer →
    (s.cBurst = .idle → exec (.deqd a) s = .next { s with cOut := s.cOut ++ [⟨.badCmd, 0, none⟩] })
    ∧ (s.cBurst = .opened n i → (idxAdd s.build s.tail i &&& s.mask).toNat < s.build.maxCapacity →
      s.slots.read (idxAdd s.build s.tail i &&& s.mask).toNat = some d →
      (i.toNat + 1 < n.toNat → exec (.deqd a) s = .next { s with
        cBurst := .opened n (i + 1), cOut := s.cOut ++ [⟨.ok, n - i - 1, some d⟩] })
      ∧ (i.toNat + 1 = n.toNat → exec (.deqd a) s = .next { s with
        tail := idxAdd s.build s.tail n, tFlight := s.tFlight ++ [idxAdd s.build s.tail n],
        cBurst := .idle, cOut := s.cOut ++ [⟨.ok, 0, some d⟩] }))

/-- R28: a read of a slot that nothing has written since CONSTRUCT is a model fault. A slot number of `MAX_CAPACITY` or
more faults too: the model's choice, log 5. -/
def Obligations.SlotAccessFaultsByName : Prop :=
  ∀ (a n i : Word) (s : State),
    (s.port = .consumer → s.cBurst = .idle → s.headC ≠ s.tail →
      ((s.tail &&& s.mask).toNat < s.build.maxCapacity → s.slots.read (s.tail &&& s.mask).toNat = none →
        exec (.deq a) s = .fault (.slotNoValue (s.tail &&& s.mask).toNat)
        ∧ exec (.peek a) s = .fault (.slotNoValue (s.tail &&& s.mask).toNat))
      ∧ (s.build.maxCapacity ≤ (s.tail &&& s.mask).toNat →
        exec (.deq a) s = .fault (.noSuchSlot (s.tail &&& s.mask).toNat)
        ∧ exec (.peek a) s = .fault (.noSuchSlot (s.tail &&& s.mask).toNat)))
    ∧ (s.port = .consumer → s.cBurst = .opened n i →
      ((idxAdd s.build s.tail i &&& s.mask).toNat < s.build.maxCapacity →
        s.slots.read (idxAdd s.build s.tail i &&& s.mask).toNat = none →
        exec (.deqd a) s = .fault (.slotNoValue (idxAdd s.build s.tail i &&& s.mask).toNat))
      ∧ (s.build.maxCapacity ≤ (idxAdd s.build s.tail i &&& s.mask).toNat →
        exec (.deqd a) s = .fault (.noSuchSlot (idxAdd s.build s.tail i &&& s.mask).toNat)))
    ∧ (s.port = .producer → s.pBurst = .idle → idxSub s.build s.head s.tailP &&& s.mask ≠ s.mask →
      s.build.maxCapacity ≤ (s.head &&& s.mask).toNat →
      exec (.enq a) s = .fault (.noSuchSlot (s.head &&& s.mask).toNat))
    ∧ (s.port = .producer → s.pBurst = .opened n i →
      s.build.maxCapacity ≤ (idxAdd s.build s.head i &&& s.mask).toNat →
      exec (.enqd a) s = .fault (.noSuchSlot (idxAdd s.build s.head i &&& s.mask).toNat))

/-! ### The synchronizers -/

/-- R72: a step of SH with an enabled `k`. -/
def Obligations.HeadSynchronizerDelivers : Prop :=
  ∀ (s : State) (k : Nat) (v : Idx) (ts : List Turn), s.turns = .sh k :: ts → s.live = true → 1 ≤ k →
    s.hFlight[k - 1]? = some v →
    step s = .next { s with turns := ts, headC := v, hFlight := s.hFlight.drop k }

/-- R73: a step of ST with an enabled `k`. -/
def Obligations.TailSynchronizerDelivers : Prop :=
  ∀ (s : State) (k : Nat) (v : Idx) (ts : List Turn), s.turns = .st k :: ts → s.live = true → 1 ≤ k →
    s.tFlight[k - 1]? = some v →
    step s = .next { s with turns := ts, tailP := v, tFlight := s.tFlight.drop k }

/-- R74: a copy takes only values its flight list holds, entire, and a flight list gains only values its register takes. -/
def Obligations.CopiesTakeOnlyWholeValues : Prop :=
  ∀ s t : State, step s = .next t → s.live = true → t.live = true →
    ((t.headC = s.headC ∧ t.head = s.head ∧ t.hFlight = s.hFlight)
      ∨ (t.headC = s.headC ∧ t.hFlight = s.hFlight ++ [t.head])
      ∨ (t.head = s.head ∧ ∃ k, 1 ≤ k ∧ s.hFlight[k - 1]? = some t.headC ∧ t.hFlight = s.hFlight.drop k))
    ∧ ((t.tailP = s.tailP ∧ t.tail = s.tail ∧ t.tFlight = s.tFlight)
      ∨ (t.tailP = s.tailP ∧ t.tFlight = s.tFlight ++ [t.tail])
      ∨ (t.tail = s.tail ∧ ∃ k, 1 ≤ k ∧ s.tFlight[k - 1]? = some t.tailP ∧ t.tFlight = s.tFlight.drop k))

/-- R75: an SH step brings `head_c` strictly nearer to `head` and an ST step brings `tail_p` strictly nearer to `tail`, so
neither copy moves backward. -/
def Obligations.CopiesNeverMoveBackward : Prop :=
  ∀ s t : State, Inv s → s.live = true → step s = .next t →
    (shSteps s → t.head = s.head ∧
      (idxSub s.build t.head t.headC).toNat < (idxSub s.build s.head s.headC).toNat)
    ∧ (stSteps s → t.tail = s.tail ∧
      (idxSub s.build t.tail t.tailP).toNat < (idxSub s.build s.tail s.tailP).toNat)

/-- R77: settled means that both copies equal their registers, and then both ports' views and flags agree; the
turns of `SYNC` (R115) settle a live ring and do nothing else. -/
def Obligations.SyncSettlesTheRing : Prop :=
  ∀ s : State, Inv s → s.live = true →
    (isSettled s = true ↔ s.headC = s.head ∧ s.tailP = s.tail)
    ∧ (isSettled s = true → viewOf .producer s = viewOf .consumer s ∧ flagOutputs .producer s = flagOutputs .consumer s)
    ∧ (∀ ts, s.turns = syncTurns s ++ ts →
      stepN (syncTurns s).length s =
        .next { s with turns := ts, headC := s.head, tailP := s.tail, hFlight := [], tFlight := [] })

/-! ### Construction, reset, no ring -/

/-- R39 (first column), R246: what the state after reset holds. `capacity` and `mask` are not named: their values there
are the model's choice, log 11. R39 leaves the slots unspecified: that none holds a value is the model's choice, log 4.
With nothing presented "the block simply holds its state" (R212); that reset has an empty schedule and that a step then
holds the state are the model's choices, logs 6 and 7. -/
def Obligations.ResetStateIsTheOneResetLeaves : Prop :=
  State.reset.live = false ∧ State.reset.cfgStatus = .ok
    ∧ State.reset.head = 0 ∧ State.reset.tail = 0 ∧ State.reset.headC = 0 ∧ State.reset.tailP = 0
    ∧ State.reset.hFlight = [] ∧ State.reset.tFlight = [] ∧ State.reset.pBurst = .idle ∧ State.reset.cBurst = .idle
    ∧ (∀ x, State.reset.slots.read x = none) ∧ step State.reset = .next State.reset

/-- R240: an enabled CONSTRUCT, every outcome; a capacity is legal when it is a power of two and at least 2. -/
def Obligations.ConstructMakesARingOrSaysWhyNot : Prop :=
  ∀ (s : State) (cap : Word) (ts : List Turn), s.turns = .construct cap :: ts → s.live = false → s.cfgStatus = .ok →
    ∃ t, step s = .next t
      ∧ t.head = 0 ∧ t.tail = 0 ∧ t.headC = 0 ∧ t.tailP = 0 ∧ t.hFlight = [] ∧ t.tFlight = []
      ∧ t.pBurst = .idle ∧ t.cBurst = .idle
      ∧ (cap.toNat < 2 ∨ (¬ ∃ k, cap.toNat = 2 ^ k) → t.cfgStatus = .invalidCapacity ∧ t.live = false)
      ∧ (2 ≤ cap.toNat → (∃ k, cap.toNat = 2 ^ k) → s.build.maxCapacity < cap.toNat →
          t.cfgStatus = .allocFail ∧ t.live = false)
      ∧ (2 ≤ cap.toNat → (∃ k, cap.toNat = 2 ^ k) → cap.toNat ≤ s.build.maxCapacity →
          t.cfgStatus = .ok ∧ t.live = true ∧ t.capacity = cap ∧ t.mask = cap - 1 ∧ ∀ x, t.slots.read x = none)
      ∧ t.build = s.build ∧ t.pIn = s.pIn ∧ t.cIn = s.cIn ∧ t.turns = ts ∧ t.pOut = s.pOut ∧ t.cOut = s.cOut

/-- R246: a ring just constructed is empty on both ports: IS_EMPTY 1, IS_FULL 0, COUNT 0, SPACE `capacity − 1`. -/
def Obligations.FreshRingIsEmptyOnBothPorts : Prop :=
  ∀ (s t : State) (cap : Word) (ts : List Turn), s.turns = .construct cap :: ts → s.live = false →
    step s = .next t → t.live = true →
    t.capacity = cap ∧ ∀ p, flagOutputs p t = ⟨true, false, 0, cap - 1⟩

/-- R244: RESET, in any state: no ring, indices 0, nothing in flight, bursts idle, the storage not cleared. `capacity` and
`mask` are not named: they are unspecified from here on. That the slots keep their bits is the model's choice, log 13. -/
def Obligations.ResetTearsTheRingDown : Prop :=
  ∀ (s : State) (ts : List Turn), s.turns = .resetRing :: ts →
    ∃ t, step s = .next t ∧ t.live = false ∧ t.cfgStatus = .ok
      ∧ t.head = 0 ∧ t.tail = 0 ∧ t.headC = 0 ∧ t.tailP = 0 ∧ t.hFlight = [] ∧ t.tFlight = []
      ∧ t.pBurst = .idle ∧ t.cBurst = .idle ∧ t.slots = s.slots
      ∧ t.build = s.build ∧ t.pIn = s.pIn ∧ t.cIn = s.cIn ∧ t.turns = ts ∧ t.pOut = s.pOut ∧ t.cOut = s.cOut

/-- R241, R243, R104: while `live = 0` the turn of a port or of a synchronizer changes nothing but the schedule; a command
presented stays presented and gets no status. That such a turn passes is the model's choice, log 7. -/
def Obligations.NothingStepsWithoutARing : Prop :=
  ∀ (s : State) (x : Turn) (ts : List Turn), s.turns = x :: ts → s.live = false →
    (x = .p ∨ x = .c ∨ (∃ k, x = .sh k) ∨ (∃ k, x = .st k)) → step s = .next { s with turns := ts }

/-- The model's choice, log 7: the turn of an agent that has no enabled step passes: CONSTRUCT out of its state (R240), a
synchronizer with nothing to deliver or no such `k` (R72, R73), a port with no command; and with no turn left the
state holds. -/
def Obligations.DisabledTurnsPass : Prop :=
  ∀ (s : State) (ts : List Turn),
    (s.turns = [] → step s = .next s)
    ∧ (∀ cap, s.turns = .construct cap :: ts → (s.live = true ∨ s.cfgStatus ≠ .ok) → step s = .next { s with turns := ts })
    ∧ (∀ k, s.turns = .sh k :: ts → (k = 0 ∨ s.hFlight.length < k) → step s = .next { s with turns := ts })
    ∧ (∀ k, s.turns = .st k :: ts → (k = 0 ∨ s.tFlight.length < k) → step s = .next { s with turns := ts })
    ∧ (s.turns = .p :: ts → s.pIn = [] → step s = .next { s with turns := ts })
    ∧ (s.turns = .c :: ts → s.cIn = [] → step s = .next { s with turns := ts })

/-- R23, R242: the capacity of a live ring never changes, and no step changes the build (R5). -/
def Obligations.CapacityIsFixedWhileLive : Prop :=
  ∀ s t : State, step s = .next t →
    t.build = s.build ∧ (s.live = true → t.live = true → t.capacity = s.capacity ∧ t.mask = s.mask ∧ t.cfgStatus = s.cfgStatus)

/-! ### Ownership -/

/-- R24, R25: `head` moves only by ENQ (plus 1) and by the last beat of an enqueue burst (plus `n`), and `tail` only by DEQ
and by the last beat of a dequeue burst. -/
def Obligations.IndicesMoveOnlyByTheirCommands : Prop :=
  ∀ s t : State, step s = .next t → s.live = true → t.live = true →
    (t.head ≠ s.head → ∃ (c : PCmd) (rest : List PCmd) (ts : List Turn) (a : Word),
      s.turns = .p :: ts ∧ s.pIn = c :: rest ∧
      ((decode c.hdr = .ok (.enq a) ∧ s.pBurst = .idle ∧ t.head = idxAdd s.build s.head 1)
        ∨ (∃ n i, decode c.hdr = .ok (.enqd a) ∧ s.pBurst = .opened n i ∧ n.toNat ≤ i.toNat + 1
            ∧ t.head = idxAdd s.build s.head n)))
    ∧ (t.tail ≠ s.tail → ∃ (h : Header) (rest : List Header) (ts : List Turn) (a : Word),
      s.turns = .c :: ts ∧ s.cIn = h :: rest ∧
      ((decode h = .ok (.deq a) ∧ s.cBurst = .idle ∧ t.tail = idxAdd s.build s.tail 1)
        ∨ (∃ n i, decode h = .ok (.deqd a) ∧ s.cBurst = .opened n i ∧ n.toNat ≤ i.toNat + 1
            ∧ t.tail = idxAdd s.build s.tail n)))

/-- R210, R26 (the frame of every command): P writes only `slots`, `head`, `h_flight`, `p_burst`; C writes only `tail`,
`t_flight`, `c_burst`. Of the storage, ENQ writes only the slot `enqSlot s` and ENQD with `opened n j` only
`enqdSlot j s`, each the descriptor on the wires and only where `storedSlot` names it; every other slot reads as
before, and a command that stores nothing leaves the storage as it was. -/
def Obligations.PortsWriteOnlyTheirOwnState : Prop :=
  ∀ (i : Instr) (s t : State), exec i s = .next t →
    (s.port = .producer → OnlyProducerState s t) ∧ (s.port = .consumer → OnlyConsumerState s t)
    ∧ (∀ x, storedSlot i s = some x → t.slots.read x = some s.descIn)
    ∧ (∀ x, storedSlot i s ≠ some x → t.slots.read x = s.slots.read x)
    ∧ (storedSlot i s = none → t.slots = s.slots)
    ∧ (∀ a x, i = .enq a → x ≠ enqSlot s → t.slots.read x = s.slots.read x)
    ∧ (∀ a n j x, i = .enqd a → s.pBurst = .opened n j → x ≠ enqdSlot j s → t.slots.read x = s.slots.read x)
    ∧ ((∀ a, i ≠ .enq a) → (∀ a, i ≠ .enqd a) → t.slots = s.slots)

/-- R164: the producer port never reads a slot, `tail`, `head_c` or `c_burst`: whatever they hold, a command answers the same
and does the same to P's state, and it stores the same descriptor to the same slot or, in both, to none. -/
def Obligations.ProducerLearnsNothingOfTheConsumer : Prop :=
  ∀ (i : Instr) (s s' : State), s.port = .producer → SameForProducer s s' →
    (∃ t t', exec i s = .next t ∧ exec i s' = .next t' ∧ SameForProducer t t'
      ∧ ∀ x,
        (storedSlot i s = some x → t.slots.read x = some s.descIn ∧ t'.slots.read x = some s.descIn)
        ∧ (storedSlot i s ≠ some x → t.slots.read x = s.slots.read x ∧ t'.slots.read x = s'.slots.read x))
    ∨ (∃ f, exec i s = .fault f ∧ exec i s' = .fault f)

/-- R186: the consumer port never reads `head`, `tail_p` or `p_burst`: whatever they hold, a command answers the same and does
the same to C's state. -/
def Obligations.ConsumerLearnsNothingOfTheProducer : Prop :=
  ∀ (i : Instr) (s s' : State), s.port = .consumer → SameForConsumer s s' →
    (∃ t t', exec i s = .next t ∧ exec i s' = .next t' ∧ SameForConsumer t t')
    ∨ (∃ f, exec i s = .fault f ∧ exec i s' = .fault f)

/-- R255 with R110: an open burst ends, or counts a beat, only by a beat of its own port or by RESET. -/
def Obligations.OpenBurstEndsOnlyByBeatsOrReset : Prop :=
  ∀ (s t : State) (n i : Word), step s = .next t → s.live = true → t.live = true →
    (s.pBurst = .opened n i → t.pBurst = .opened n i
      ∨ ∃ (c : PCmd) (rest : List PCmd) (ts : List Turn) (a : Word),
          s.turns = .p :: ts ∧ s.pIn = c :: rest ∧ decode c.hdr = .ok (.enqd a))
    ∧ (s.cBurst = .opened n i → t.cBurst = .opened n i
      ∨ ∃ (h : Header) (rest : List Header) (ts : List Turn) (a : Word),
          s.turns = .c :: ts ∧ s.cIn = h :: rest ∧ decode h = .ok (.deqd a))

/-! ### The invariant and what follows from it -/

/-- The invariant holds at reset (R39, R246). That the build is legal and the storage inside `MAX_CAPACITY` there rests on
the model's choices, log 1 (the vector build) and log 4 (no slot holds a value; R39 leaves the slots unspecified). -/
def Obligations.InvariantAtReset : Prop := Inv State.reset

/-- R36 (I1 to I4, and of I5 that every pending slot is written), R39: every step of every agent keeps the invariant. -/
def Obligations.EveryStepKeepsTheInvariant : Prop := ∀ s t : State, Inv s → step s = .next t → Inv t

/-- The widths of R20 hold at reset. The build there is the model's choice (log 1), so are the storage without a value (log 4)
and the zero in the latch `descIn` (log 10); the index registers are R39's 0. -/
def Obligations.WidthsAtReset : Prop := WidthsOk State.reset

/-- R20, R21, R146 (a): every step of every agent keeps each index register, each value in flight and each descriptor inside
its width. -/
def Obligations.EveryStepKeepsTheWidths : Prop := ∀ s t : State, WidthsOk s → step s = .next t → WidthsOk t

/-- R28, R36 (I5), R64: from a state with the invariant no step faults and none is refused, and the next state has the
invariant again, so no run from such a state ever stops. -/
def Obligations.NoStepFaults : Prop := ∀ s : State, Inv s → ∃ t, step s = .next t ∧ Inv t

/-- R36 (I6): no slot P may write is a slot C may read. -/
def Obligations.WritableAndReadableSlotsDiffer : Prop :=
  ∀ (s : State) (i j : Nat), Inv s → s.live = true →
    i < (flagOutputs .producer s).space.toNat → j < (flagOutputs .consumer s).count.toNat →
    slotOf s.mask (idxAdd s.build s.head (BitVec.ofNat 32 i)) ≠ slotOf s.mask (idxAdd s.build s.tail (BitVec.ofNat 32 j))

/-- R182 (i, ii): while C takes no step and HOST none, a PEEK that succeeds goes on returning the same descriptor. -/
def Obligations.PeekIsRepeatable : Prop :=
  ∀ (s t : State) (a : Word) (x : Turn) (ts : List Turn), Inv s → s.live = true → s.cBurst = .idle → s.headC ≠ s.tail →
    s.turns = x :: ts → (x = .p ∨ (∃ k, x = .sh k) ∨ (∃ k, x = .st k)) → step s = .next t →
    ∃ d, exec (.peek a) { s with port := .consumer } =
        .next { s with port := .consumer, cOut := s.cOut ++ [⟨.ok, 0, some d⟩] }
      ∧ exec (.peek a) { t with port := .consumer } =
        .next { t with port := .consumer, cOut := t.cOut ++ [⟨.ok, 0, some d⟩] }

/-- R38, R36 (I5): an enqueue that succeeds puts its descriptor behind the items pending, an enqueue burst puts its items
behind them all at once at its last beat, in order. -/
def Obligations.EnqueuesAppendToThePendingItems : Prop :=
  ∀ (a : Word) (s : State), Inv s → s.live = true → s.port = .producer →
    (s.pBurst = .idle → (flagOutputs .producer s).full = false →
      ∃ t, exec (.enq a) s = .next t ∧ pending t = pending s ++ [some s.descIn])
    ∧ (∀ n i, s.pBurst = .opened n i →
      ∃ t, exec (.enqd a) s = .next t
        ∧ (i.toNat + 1 < n.toNat → pending t = pending s ∧ staged t = staged s ++ [some s.descIn])
        ∧ (i.toNat + 1 = n.toNat → pending t = pending s ++ staged s ++ [some s.descIn] ∧ staged t = []))

/-- R38, R36 (I5), R181: a dequeue returns the oldest item pending and removes it; beat `i` of a dequeue burst returns
the item `i` places behind the oldest, and the last beat removes all `n`; a PEEK returns the oldest and removes nothing. -/
def Obligations.DequeuesTakeTheOldestItems : Prop :=
  ∀ (a : Word) (s : State), Inv s → s.live = true → s.port = .consumer →
    (s.cBurst = .idle → (flagOutputs .consumer s).empty = false →
      ∃ d t u, exec (.deq a) s = .next t ∧ t.cOut = s.cOut ++ [⟨.ok, 0, some d⟩] ∧ pending s = some d :: pending t
        ∧ exec (.peek a) s = .next u ∧ u.cOut = s.cOut ++ [⟨.ok, 0, some d⟩] ∧ pending u = pending s)
    ∧ (∀ n i, s.cBurst = .opened n i →
      ∃ d t, exec (.deqd a) s = .next t ∧ (pending s)[i.toNat]? = some (some d)
        ∧ t.cOut = s.cOut ++ [⟨.ok, n - i - 1, some d⟩]
        ∧ (i.toNat + 1 < n.toNat → pending t = pending s)
        ∧ (i.toNat + 1 = n.toNat → pending t = (pending s).drop n.toNat))

/-- R36 (I5), R65, R74: a step of a live ring that moves neither `head` nor `tail` leaves every pending item in place. -/
def Obligations.OtherStepsKeepThePendingItems : Prop :=
  ∀ s t : State, Inv s → step s = .next t → s.live = true → t.live = true → t.head = s.head → t.tail = s.tail →
    pending t = pending s

/-- R208, R79: a command presented on P and one presented on C do not interact: in either order the two steps give the same
state, but for the model's record of which port stepped last. -/
def Obligations.CommandsOfTheTwoPortsCommute : Prop :=
  ∀ (s : State) (c : PCmd) (h : Header) (pr : List PCmd) (cr : List Header) (ts : List Turn),
    Inv s → s.live = true → s.pIn = c :: pr → s.cIn = h :: cr →
    ∃ t t', stepN 2 { s with turns := .p :: .c :: ts } = .next t ∧ stepN 2 { s with turns := .c :: .p :: ts } = .next t'
      ∧ t = { t' with port := t.port }

/-- R163, R115: the expansion of `enqueue_bulk items`, run without a step of another agent, has the effect of the one call:
`n = min(len(items), space)`, the first `n` items in the slots from `head` on, `head` moved by `n` in one step, one value
in flight, the responses `n, n − 1, …, 0`. -/
def Obligations.EnqueueBulkIsOneTransaction : Prop :=
  ∀ (s : State) (items : List Descriptor) (n : Nat) (pr : List PCmd) (ts : List Turn),
    Inv s → s.live = true → s.pBurst = .idle → items.length < 2 ^ 32 → (∀ d ∈ items, d.wf s.build = true) →
    n = min items.length (flagOutputs .producer s).space.toNat →
    s.pIn = (PCall.enqueueBulk items).expand s.build n ++ pr → s.turns = List.replicate (n + 1) .p ++ ts →
    ∃ t, stepN (n + 1) s = .next t
      ∧ (∀ j, j < n → t.slots.read (slotOf s.mask (idxAdd s.build s.head (BitVec.ofNat 32 j))) = items[j]?)
      ∧ (∀ x, (∀ j, j < n → x ≠ slotOf s.mask (idxAdd s.build s.head (BitVec.ofNat 32 j))) →
          t.slots.read x = s.slots.read x)
      ∧ t.head = idxAdd s.build s.head (BitVec.ofNat 32 n)
      ∧ t.hFlight = s.hFlight ++ (if n = 0 then [] else [t.head])
      ∧ t.pOut = s.pOut ++ ⟨.ok, BitVec.ofNat 32 n, none⟩
          :: (List.range n).map (fun j => ⟨.ok, BitVec.ofNat 32 (n - 1 - j), none⟩)
      ∧ t = { s with
          slots := t.slots, head := t.head, hFlight := t.hFlight, pOut := t.pOut, pIn := pr, turns := ts,
          port := .producer, descIn := t.descIn }

/-- R185, R115: the expansion of `dequeue_bulk req`, run without a step of another agent: `n = min(req, count)`, the `n` oldest
items in order, `tail` moved by `n` in one step, one value in flight. -/
def Obligations.DequeueBulkIsOneTransaction : Prop :=
  ∀ (s : State) (req : Word) (n : Nat) (cr : List Header) (ts : List Turn),
    Inv s → s.live = true → s.cBurst = .idle → n = min req.toNat (flagOutputs .consumer s).count.toNat →
    s.cIn = (CCall.dequeueBulk req).expand n ++ cr → s.turns = List.replicate (n + 1) .c ++ ts →
    ∃ t, stepN (n + 1) s = .next t
      ∧ t.tail = idxAdd s.build s.tail (BitVec.ofNat 32 n)
      ∧ t.tFlight = s.tFlight ++ (if n = 0 then [] else [t.tail])
      ∧ t.cOut = s.cOut ++ ⟨.ok, BitVec.ofNat 32 n, none⟩
          :: (List.range n).map (fun j => ⟨.ok, BitVec.ofNat 32 (n - 1 - j), (pending s)[j]?.join⟩)
      ∧ (∀ j, j < n → ∃ d, (pending s)[j]? = some (some d))
      ∧ pending t = (pending s).drop n
      ∧ t = { s with
          tail := t.tail, tFlight := t.tFlight, cOut := t.cOut, cIn := cr, turns := ts, port := .consumer }

/-- R37: the index width cannot be observed: two builds that differ in `IDX_W` only, in states that hold the same logical
indices, step alike; slots, flags and every response stay equal. -/
def Obligations.IndexWidthIsUnobservable : Prop :=
  ∀ s s' t : State, Inv s → Inv s' → SameUpToIndexWidth s s' → step s = .next t →
    (∀ p, flagOutputs p s = flagOutputs p s')
    ∧ ∃ t', step s' = .next t' ∧ SameUpToIndexWidth t t' ∧ t'.pOut = t.pOut ∧ t'.cOut = t.cOut ∧ t'.slots = t.slots

/-- R76: in every weakly fair run, once `head` (`tail`) stops changing on a live ring, its last value is eventually
delivered. No bound is given. -/
def Obligations.FairSynchronizersDeliverTheLastValue : Prop :=
  ∀ (e : Nat → State) (n : Nat), IsRun e → WeaklyFair e → Inv (e 0) → (∀ m, n ≤ m → (e m).live = true) →
    ((∀ m, n ≤ m → (e m).head = (e n).head) → ∃ m, n ≤ m ∧ (e m).headC = (e n).head ∧ (e m).hFlight = [])
    ∧ ((∀ m, n ≤ m → (e m).tail = (e n).tail) → ∃ m, n ≤ m ∧ (e m).tailP = (e n).tail ∧ (e m).tFlight = [])

/-- R11, R104 with D32: in every run that serves both ports, on a ring that stays live, each command presented is accepted and
answered: for every `k`, the first `k` commands of a stream are taken and exactly `k` responses have come. No bound. -/
def Obligations.PresentedCommandsAreAnswered : Prop :=
  ∀ (e : Nat → State) (n : Nat), IsRun e → ServesPorts e → (∀ m, n ≤ m → (e m).live = true) →
    (∀ k, k ≤ (e n).pIn.length → ∃ m more rsps, n ≤ m ∧ (e m).pIn = (e n).pIn.drop k ++ more
      ∧ (e m).pOut = (e n).pOut ++ rsps ∧ rsps.length = k)
    ∧ (∀ k, k ≤ (e n).cIn.length → ∃ m more rsps, n ≤ m ∧ (e m).cIn = (e n).cIn.drop k ++ more
      ∧ (e m).cOut = (e n).cOut ++ rsps ∧ rsps.length = k)

/-- R247: in every fair run on a ring that stays live, once the collaborators present nothing further, the run comes to rest:
both streams exhausted, the ring settled, nothing changing any more but the schedule; and that state is quiescent exactly
when no burst was left open. -/
def Obligations.FairRunsComeToRest : Prop :=
  ∀ (e : Nat → State) (n : Nat), IsRun e → WeaklyFair e → ServesPorts e → Inv (e 0) → (∀ m, n ≤ m → (e m).live = true) →
    StreamsEnd e n →
    ∃ m, n ≤ m ∧ ∀ k, m ≤ k →
      e k = { e m with turns := (e k).turns } ∧ (e k).pIn = [] ∧ (e k).cIn = [] ∧ isSettled (e k) = true
      ∧ (isQuiescent (e k) = true ↔ (e k).pBurst = .idle ∧ (e k).cBurst = .idle)
end

