-- ==== Sys2Proof/Laws/Decode.lean ====
section
/-! SUPPORT. The fields of a header as numbers: `op = h / 2^32`, `arg = h mod 2^32`, and back (R105). -/

namespace Sys2Proof

theorem headerOp_toNat (h : Header) : (headerOp h).toNat = h.toNat / 2 ^ 32 := by
  have hlt := h.isLt
  rw [headerOp, BitVec.extractLsb'_toNat, Nat.shiftRight_eq_div_pow]
  exact Nat.mod_eq_of_lt (by omega)

theorem headerArg_toNat (h : Header) : (headerArg h).toNat = h.toNat % 2 ^ 32 := by
  rw [headerArg, BitVec.extractLsb'_toNat, Nat.shiftRight_zero]

theorem encode_toNat (i : Instr) : (encode i).toNat = i.opcode.toNat * 2 ^ 32 + i.arg.toNat := by
  have h : (encode i).toNat = (i.opcode ++ i.arg).toNat := rfl
  rw [h, BitVec.toNat_append, ← Nat.shiftLeft_add_eq_or_of_lt i.arg.isLt, Nat.shiftLeft_eq]

/-- The fields of an encoded command are its opcode and its argument. -/
theorem headerOp_encode (i : Instr) : headerOp (encode i) = i.opcode := by
  apply BitVec.eq_of_toNat_eq
  have := i.arg.isLt
  rw [headerOp_toNat, encode_toNat]; omega

theorem headerArg_encode (i : Instr) : headerArg (encode i) = i.arg := by
  apply BitVec.eq_of_toNat_eq
  have := i.arg.isLt
  rw [headerArg_toNat, encode_toNat]; omega

/-- A header is determined by its two fields. -/
theorem header_ext {h h' : Header} (ho : headerOp h = headerOp h') (ha : headerArg h = headerArg h') : h = h' := by
  apply BitVec.eq_of_toNat_eq
  have h1 := congrArg BitVec.toNat ho
  have h2 := congrArg BitVec.toNat ha
  rw [headerOp_toNat, headerOp_toNat] at h1
  rw [headerArg_toNat, headerArg_toNat] at h2
  omega

/-- A header that decodes carries the opcode and the argument of its command. -/
theorem decode_fields {h : Header} {i : Instr} (hd : decode h = .ok i) : headerOp h = i.opcode ∧ headerArg h = i.arg := by
  unfold decode at hd
  split at hd <;> first | (cases hd; rename_i e; exact ⟨e, rfl⟩) | cases hd

/-- The mask of the opcode map keeps the `op` field (R108). -/
theorem and_opMask_toNat (h : Header) : (h &&& 0xF00000000#36).toNat = (headerOp h).toNat * 2 ^ 32 := by
  have hlt := h.isLt
  have e : (0xF00000000#36 : BitVec 36).toNat = (2 ^ 4 - 1) <<< 32 := by decide
  rw [BitVec.toNat_and, e, headerOp_toNat]
  apply Nat.eq_of_testBit_eq
  intro j
  rw [Nat.testBit_and, ← Nat.shiftLeft_eq, Nat.testBit_shiftLeft, Nat.testBit_shiftLeft, Nat.testBit_two_pow_sub_one,
    Nat.testBit_div_two_pow]
  by_cases h1 : 32 ≤ j
  · by_cases h2 : j - 32 < 4
    · simp [h1, h2]
    · have : h.toNat.testBit j = false :=
        Nat.testBit_lt_two_pow (lt_of_lt_of_le hlt (Nat.pow_le_pow_right (by omega) (by omega)))
      simp [h1, this]
  · simp [h1]

/-- What the wires of `p_cmd_desc` carry fits the widths (R106). -/
theorem unpackDescriptor_wf (b : Params) (v : Nat) : (unpackDescriptor b v).wf b = true := by
  rw [Descriptor.wf, Bool.and_eq_true]
  exact ⟨decide_eq_true (Nat.mod_lt _ (Nat.two_pow_pos _)), decide_eq_true (Nat.mod_lt _ (Nat.two_pow_pos _))⟩

end Sys2Proof
end

