-- ==== Sys2Proof/Laws/Memory.lean ====
section
/-! SUPPORT. The laws of the slot storage: read after write, and the canonical form is kept. -/

namespace Sys2Proof.Machine

open Sys2Proof

theorem Memory.read_write_same (m : Memory) (a : Nat) (d : Descriptor) : (m.write a d).read a = some d := by
  induction m with
  | nil => simp [Memory.write, Memory.read]
  | cons x m ih =>
    obtain ⟨k, e⟩ := x
    unfold Memory.write
    split
    · rename_i h; simp [Memory.read, Nat.ne_of_lt h, ih]
    · split <;> simp [Memory.read]

theorem Memory.read_write_other (m : Memory) (a c : Nat) (d : Descriptor) (h : c ≠ a) :
    (m.write a d).read c = m.read c := by
  induction m with
  | nil => simp [Memory.write, Memory.read, h.symm]
  | cons x m ih =>
    obtain ⟨k, e⟩ := x
    unfold Memory.write
    split
    · simp [Memory.read, ih]
    · split
      · rename_i hk; subst hk; simp [Memory.read, h.symm]
      · simp [Memory.read, h.symm]

theorem Memory.read_write (m : Memory) (a c : Nat) (d : Descriptor) :
    (m.write a d).read c = if c = a then some d else m.read c := by
  split
  · rename_i h; subst h; exact Memory.read_write_same m c d
  · rename_i h; exact Memory.read_write_other m a c d h

/-- Every entry of a written storage is the one written or was there before. -/
theorem Memory.mem_write {m : Memory} {a : Nat} {d : Descriptor} {x : Nat × Descriptor} (h : x ∈ m.write a d) :
    x = (a, d) ∨ x ∈ m := by
  induction m with
  | nil => simpa [Memory.write] using h
  | cons y m ih =>
    obtain ⟨k, e⟩ := y
    unfold Memory.write at h
    split at h
    · rcases List.mem_cons.mp h with h | h
      · exact .inr (h ▸ List.mem_cons_self)
      · exact (ih h).imp id (List.mem_cons_of_mem _)
    · split at h
      · exact (List.mem_cons.mp h).imp id (List.mem_cons_of_mem _)
      · exact List.mem_cons.mp h

/-- The canonical form is kept by the only operation that changes the storage of a live ring. -/
theorem Memory.write_wf {m : Memory} (a : Nat) (d : Descriptor) (h : m.wf) : (m.write a d).wf := by
  induction m with
  | nil => simp [Memory.write]
  | cons x m ih =>
    obtain ⟨k, e⟩ := x
    obtain ⟨hk, hm⟩ := List.pairwise_cons.mp h
    unfold Memory.write
    split
    · rename_i hlt
      refine List.pairwise_cons.mpr ⟨fun y hy => ?_, ih hm⟩
      rcases Memory.mem_write hy with rfl | hy
      · exact hlt
      · exact hk y hy
    · split
      · rename_i hke; subst hke
        exact List.pairwise_cons.mpr ⟨hk, hm⟩
      · rename_i h1 h2
        have hak : a < k := by omega
        refine List.pairwise_cons.mpr ⟨fun y hy => ?_, h⟩
        rcases List.mem_cons.mp hy with rfl | hy
        · exact hak
        · exact hak.trans (hk y hy)

end Sys2Proof.Machine
end

