-- ==== Sys2Proof/Laws/State.lean ====
section
/-! SUPPORT. One lemma per field for each shared update of State, so that no proof unfolds a record update. -/

namespace Sys2Proof.Machine

open Sys2Proof

/-! ### `respond` -/

@[simp] theorem respond_build (st : Status) (v : Word) (d : Option Descriptor) (s : State) : (respond st v d s).build = s.build := by
  unfold respond; cases s.port <;> rfl
@[simp] theorem respond_slots (st : Status) (v : Word) (d : Option Descriptor) (s : State) : (respond st v d s).slots = s.slots := by
  unfold respond; cases s.port <;> rfl
@[simp] theorem respond_capacity (st : Status) (v : Word) (d : Option Descriptor) (s : State) : (respond st v d s).capacity = s.capacity := by
  unfold respond; cases s.port <;> rfl
@[simp] theorem respond_mask (st : Status) (v : Word) (d : Option Descriptor) (s : State) : (respond st v d s).mask = s.mask := by
  unfold respond; cases s.port <;> rfl
@[simp] theorem respond_head (st : Status) (v : Word) (d : Option Descriptor) (s : State) : (respond st v d s).head = s.head := by
  unfold respond; cases s.port <;> rfl
@[simp] theorem respond_tail (st : Status) (v : Word) (d : Option Descriptor) (s : State) : (respond st v d s).tail = s.tail := by
  unfold respond; cases s.port <;> rfl
@[simp] theorem respond_headC (st : Status) (v : Word) (d : Option Descriptor) (s : State) : (respond st v d s).headC = s.headC := by
  unfold respond; cases s.port <;> rfl
@[simp] theorem respond_tailP (st : Status) (v : Word) (d : Option Descriptor) (s : State) : (respond st v d s).tailP = s.tailP := by
  unfold respond; cases s.port <;> rfl
@[simp] theorem respond_hFlight (st : Status) (v : Word) (d : Option Descriptor) (s : State) : (respond st v d s).hFlight = s.hFlight := by
  unfold respond; cases s.port <;> rfl
@[simp] theorem respond_tFlight (st : Status) (v : Word) (d : Option Descriptor) (s : State) : (respond st v d s).tFlight = s.tFlight := by
  unfold respond; cases s.port <;> rfl
@[simp] theorem respond_pBurst (st : Status) (v : Word) (d : Option Descriptor) (s : State) : (respond st v d s).pBurst = s.pBurst := by
  unfold respond; cases s.port <;> rfl
@[simp] theorem respond_cBurst (st : Status) (v : Word) (d : Option Descriptor) (s : State) : (respond st v d s).cBurst = s.cBurst := by
  unfold respond; cases s.port <;> rfl
@[simp] theorem respond_live (st : Status) (v : Word) (d : Option Descriptor) (s : State) : (respond st v d s).live = s.live := by
  unfold respond; cases s.port <;> rfl
@[simp] theorem respond_cfgStatus (st : Status) (v : Word) (d : Option Descriptor) (s : State) : (respond st v d s).cfgStatus = s.cfgStatus := by
  unfold respond; cases s.port <;> rfl
@[simp] theorem respond_pIn (st : Status) (v : Word) (d : Option Descriptor) (s : State) : (respond st v d s).pIn = s.pIn := by
  unfold respond; cases s.port <;> rfl
@[simp] theorem respond_cIn (st : Status) (v : Word) (d : Option Descriptor) (s : State) : (respond st v d s).cIn = s.cIn := by
  unfold respond; cases s.port <;> rfl
@[simp] theorem respond_turns (st : Status) (v : Word) (d : Option Descriptor) (s : State) : (respond st v d s).turns = s.turns := by
  unfold respond; cases s.port <;> rfl
@[simp] theorem respond_port (st : Status) (v : Word) (d : Option Descriptor) (s : State) : (respond st v d s).port = s.port := by
  unfold respond; cases s.port <;> rfl
@[simp] theorem respond_descIn (st : Status) (v : Word) (d : Option Descriptor) (s : State) : (respond st v d s).descIn = s.descIn := by
  unfold respond; cases s.port <;> rfl
@[simp] theorem respond_unspec (st : Status) (v : Word) (d : Option Descriptor) (s : State) : (respond st v d s).unspec = s.unspec := by
  unfold respond; cases s.port <;> rfl

@[simp] theorem respond_pOut (st : Status) (v : Word) (d : Option Descriptor) (s : State) :
    (respond st v d s).pOut = s.pOut ++ (match s.port with | .producer => [⟨st, v, none⟩] | .consumer => []) := by
  unfold respond; cases s.port <;> simp

@[simp] theorem respond_cOut (st : Status) (v : Word) (d : Option Descriptor) (s : State) :
    (respond st v d s).cOut = s.cOut ++ (match s.port with | .producer => [] | .consumer => [⟨st, v, d⟩]) := by
  unfold respond; cases s.port <;> simp

/-! ### `advanceHead` -/

@[simp] theorem advanceHead_build (n : Word) (s : State) : (advanceHead n s).build = s.build := rfl
@[simp] theorem advanceHead_slots (n : Word) (s : State) : (advanceHead n s).slots = s.slots := rfl
@[simp] theorem advanceHead_capacity (n : Word) (s : State) : (advanceHead n s).capacity = s.capacity := rfl
@[simp] theorem advanceHead_mask (n : Word) (s : State) : (advanceHead n s).mask = s.mask := rfl
@[simp] theorem advanceHead_head (n : Word) (s : State) : (advanceHead n s).head = idxAdd s.build s.head n := rfl
@[simp] theorem advanceHead_tail (n : Word) (s : State) : (advanceHead n s).tail = s.tail := rfl
@[simp] theorem advanceHead_headC (n : Word) (s : State) : (advanceHead n s).headC = s.headC := rfl
@[simp] theorem advanceHead_tailP (n : Word) (s : State) : (advanceHead n s).tailP = s.tailP := rfl
@[simp] theorem advanceHead_hFlight (n : Word) (s : State) : (advanceHead n s).hFlight = s.hFlight ++ [idxAdd s.build s.head n] := rfl
@[simp] theorem advanceHead_tFlight (n : Word) (s : State) : (advanceHead n s).tFlight = s.tFlight := rfl
@[simp] theorem advanceHead_pBurst (n : Word) (s : State) : (advanceHead n s).pBurst = s.pBurst := rfl
@[simp] theorem advanceHead_cBurst (n : Word) (s : State) : (advanceHead n s).cBurst = s.cBurst := rfl
@[simp] theorem advanceHead_live (n : Word) (s : State) : (advanceHead n s).live = s.live := rfl
@[simp] theorem advanceHead_cfgStatus (n : Word) (s : State) : (advanceHead n s).cfgStatus = s.cfgStatus := rfl
@[simp] theorem advanceHead_pIn (n : Word) (s : State) : (advanceHead n s).pIn = s.pIn := rfl
@[simp] theorem advanceHead_cIn (n : Word) (s : State) : (advanceHead n s).cIn = s.cIn := rfl
@[simp] theorem advanceHead_turns (n : Word) (s : State) : (advanceHead n s).turns = s.turns := rfl
@[simp] theorem advanceHead_pOut (n : Word) (s : State) : (advanceHead n s).pOut = s.pOut := rfl
@[simp] theorem advanceHead_cOut (n : Word) (s : State) : (advanceHead n s).cOut = s.cOut := rfl
@[simp] theorem advanceHead_port (n : Word) (s : State) : (advanceHead n s).port = s.port := rfl
@[simp] theorem advanceHead_descIn (n : Word) (s : State) : (advanceHead n s).descIn = s.descIn := rfl
@[simp] theorem advanceHead_unspec (n : Word) (s : State) : (advanceHead n s).unspec = s.unspec := rfl

/-! ### `advanceTail` -/

@[simp] theorem advanceTail_build (n : Word) (s : State) : (advanceTail n s).build = s.build := rfl
@[simp] theorem advanceTail_slots (n : Word) (s : State) : (advanceTail n s).slots = s.slots := rfl
@[simp] theorem advanceTail_capacity (n : Word) (s : State) : (advanceTail n s).capacity = s.capacity := rfl
@[simp] theorem advanceTail_mask (n : Word) (s : State) : (advanceTail n s).mask = s.mask := rfl
@[simp] theorem advanceTail_head (n : Word) (s : State) : (advanceTail n s).head = s.head := rfl
@[simp] theorem advanceTail_tail (n : Word) (s : State) : (advanceTail n s).tail = idxAdd s.build s.tail n := rfl
@[simp] theorem advanceTail_headC (n : Word) (s : State) : (advanceTail n s).headC = s.headC := rfl
@[simp] theorem advanceTail_tailP (n : Word) (s : State) : (advanceTail n s).tailP = s.tailP := rfl
@[simp] theorem advanceTail_hFlight (n : Word) (s : State) : (advanceTail n s).hFlight = s.hFlight := rfl
@[simp] theorem advanceTail_tFlight (n : Word) (s : State) : (advanceTail n s).tFlight = s.tFlight ++ [idxAdd s.build s.tail n] := rfl
@[simp] theorem advanceTail_pBurst (n : Word) (s : State) : (advanceTail n s).pBurst = s.pBurst := rfl
@[simp] theorem advanceTail_cBurst (n : Word) (s : State) : (advanceTail n s).cBurst = s.cBurst := rfl
@[simp] theorem advanceTail_live (n : Word) (s : State) : (advanceTail n s).live = s.live := rfl
@[simp] theorem advanceTail_cfgStatus (n : Word) (s : State) : (advanceTail n s).cfgStatus = s.cfgStatus := rfl
@[simp] theorem advanceTail_pIn (n : Word) (s : State) : (advanceTail n s).pIn = s.pIn := rfl
@[simp] theorem advanceTail_cIn (n : Word) (s : State) : (advanceTail n s).cIn = s.cIn := rfl
@[simp] theorem advanceTail_turns (n : Word) (s : State) : (advanceTail n s).turns = s.turns := rfl
@[simp] theorem advanceTail_pOut (n : Word) (s : State) : (advanceTail n s).pOut = s.pOut := rfl
@[simp] theorem advanceTail_cOut (n : Word) (s : State) : (advanceTail n s).cOut = s.cOut := rfl
@[simp] theorem advanceTail_port (n : Word) (s : State) : (advanceTail n s).port = s.port := rfl
@[simp] theorem advanceTail_descIn (n : Word) (s : State) : (advanceTail n s).descIn = s.descIn := rfl
@[simp] theorem advanceTail_unspec (n : Word) (s : State) : (advanceTail n s).unspec = s.unspec := rfl

/-! ### `clearIndices` -/

@[simp] theorem clearIndices_build (s : State) : (clearIndices s).build = s.build := rfl
@[simp] theorem clearIndices_slots (s : State) : (clearIndices s).slots = s.slots := rfl
@[simp] theorem clearIndices_capacity (s : State) : (clearIndices s).capacity = s.capacity := rfl
@[simp] theorem clearIndices_mask (s : State) : (clearIndices s).mask = s.mask := rfl
@[simp] theorem clearIndices_head (s : State) : (clearIndices s).head = 0 := rfl
@[simp] theorem clearIndices_tail (s : State) : (clearIndices s).tail = 0 := rfl
@[simp] theorem clearIndices_headC (s : State) : (clearIndices s).headC = 0 := rfl
@[simp] theorem clearIndices_tailP (s : State) : (clearIndices s).tailP = 0 := rfl
@[simp] theorem clearIndices_hFlight (s : State) : (clearIndices s).hFlight = [] := rfl
@[simp] theorem clearIndices_tFlight (s : State) : (clearIndices s).tFlight = [] := rfl
@[simp] theorem clearIndices_pBurst (s : State) : (clearIndices s).pBurst = .idle := rfl
@[simp] theorem clearIndices_cBurst (s : State) : (clearIndices s).cBurst = .idle := rfl
@[simp] theorem clearIndices_live (s : State) : (clearIndices s).live = s.live := rfl
@[simp] theorem clearIndices_cfgStatus (s : State) : (clearIndices s).cfgStatus = s.cfgStatus := rfl
@[simp] theorem clearIndices_pIn (s : State) : (clearIndices s).pIn = s.pIn := rfl
@[simp] theorem clearIndices_cIn (s : State) : (clearIndices s).cIn = s.cIn := rfl
@[simp] theorem clearIndices_turns (s : State) : (clearIndices s).turns = s.turns := rfl
@[simp] theorem clearIndices_pOut (s : State) : (clearIndices s).pOut = s.pOut := rfl
@[simp] theorem clearIndices_cOut (s : State) : (clearIndices s).cOut = s.cOut := rfl
@[simp] theorem clearIndices_port (s : State) : (clearIndices s).port = s.port := rfl
@[simp] theorem clearIndices_descIn (s : State) : (clearIndices s).descIn = s.descIn := rfl
@[simp] theorem clearIndices_unspec (s : State) : (clearIndices s).unspec = s.unspec := rfl

/-! ### `forgetCapacity` -/

@[simp] theorem forgetCapacity_build (s : State) : (forgetCapacity s).build = s.build := rfl
@[simp] theorem forgetCapacity_slots (s : State) : (forgetCapacity s).slots = s.slots := rfl
@[simp] theorem forgetCapacity_capacity (s : State) : (forgetCapacity s).capacity = Config.unspecifiedCapacity s.unspec := rfl
@[simp] theorem forgetCapacity_mask (s : State) : (forgetCapacity s).mask = Config.unspecifiedMask s.unspec := rfl
@[simp] theorem forgetCapacity_head (s : State) : (forgetCapacity s).head = s.head := rfl
@[simp] theorem forgetCapacity_tail (s : State) : (forgetCapacity s).tail = s.tail := rfl
@[simp] theorem forgetCapacity_headC (s : State) : (forgetCapacity s).headC = s.headC := rfl
@[simp] theorem forgetCapacity_tailP (s : State) : (forgetCapacity s).tailP = s.tailP := rfl
@[simp] theorem forgetCapacity_hFlight (s : State) : (forgetCapacity s).hFlight = s.hFlight := rfl
@[simp] theorem forgetCapacity_tFlight (s : State) : (forgetCapacity s).tFlight = s.tFlight := rfl
@[simp] theorem forgetCapacity_pBurst (s : State) : (forgetCapacity s).pBurst = s.pBurst := rfl
@[simp] theorem forgetCapacity_cBurst (s : State) : (forgetCapacity s).cBurst = s.cBurst := rfl
@[simp] theorem forgetCapacity_live (s : State) : (forgetCapacity s).live = s.live := rfl
@[simp] theorem forgetCapacity_cfgStatus (s : State) : (forgetCapacity s).cfgStatus = s.cfgStatus := rfl
@[simp] theorem forgetCapacity_pIn (s : State) : (forgetCapacity s).pIn = s.pIn := rfl
@[simp] theorem forgetCapacity_cIn (s : State) : (forgetCapacity s).cIn = s.cIn := rfl
@[simp] theorem forgetCapacity_turns (s : State) : (forgetCapacity s).turns = s.turns := rfl
@[simp] theorem forgetCapacity_pOut (s : State) : (forgetCapacity s).pOut = s.pOut := rfl
@[simp] theorem forgetCapacity_cOut (s : State) : (forgetCapacity s).cOut = s.cOut := rfl
@[simp] theorem forgetCapacity_port (s : State) : (forgetCapacity s).port = s.port := rfl
@[simp] theorem forgetCapacity_descIn (s : State) : (forgetCapacity s).descIn = s.descIn := rfl
@[simp] theorem forgetCapacity_unspec (s : State) : (forgetCapacity s).unspec = s.unspec + 1 := rfl

end Sys2Proof.Machine
end

