-- ==== Sys2Proof/Laws/Ops.lean ====
section
/-! SUPPORT. What each shared operation can do, said once. -/

namespace Sys2Proof.Machine

open Sys2Proof

theorem loadSlot_ok_iff {a : Nat} {s : State} {d : Descriptor} :
    loadSlot a s = .ok d ↔ a < s.build.maxCapacity ∧ s.slots.read a = some d := by
  unfold loadSlot
  split
  · rename_i h; cases hr : s.slots.read a <;> simp [h]
  · rename_i h; simp [h]

theorem loadSlot_error_iff {a : Nat} {s : State} {f : Fault} :
    loadSlot a s = .error f ↔
      (a < s.build.maxCapacity ∧ s.slots.read a = none ∧ f = .slotNoValue a)
      ∨ (s.build.maxCapacity ≤ a ∧ f = .noSuchSlot a) := by
  unfold loadSlot
  split
  · rename_i h
    cases hr : s.slots.read a <;> simp [h, eq_comm]
  · rename_i h
    have h' : s.build.maxCapacity ≤ a := by omega
    simp [h, h', eq_comm]

theorem storeSlot_ok_iff {a : Nat} {d : Descriptor} {s t : State} :
    storeSlot a d s = .ok t ↔ a < s.build.maxCapacity ∧ t = { s with slots := s.slots.write a d } := by
  unfold storeSlot
  split
  · rename_i h; simp [h, eq_comm]
  · rename_i h; simp [h]

theorem storeSlot_error_iff {a : Nat} {d : Descriptor} {s : State} {f : Fault} :
    storeSlot a d s = .error f ↔ s.build.maxCapacity ≤ a ∧ f = .noSuchSlot a := by
  unfold storeSlot
  split
  · rename_i h; simp; omega
  · rename_i h
    have h' : s.build.maxCapacity ≤ a := by omega
    simp [h', eq_comm]

theorem respond_producer {s : State} (h : s.port = .producer) (st : Status) (v : Word) (d : Option Descriptor) :
    respond st v d s = { s with pOut := s.pOut ++ [⟨st, v, none⟩] } := by
  simp [respond, h]

theorem respond_consumer {s : State} (h : s.port = .consumer) (st : Status) (v : Word) (d : Option Descriptor) :
    respond st v d s = { s with cOut := s.cOut ++ [⟨st, v, d⟩] } := by
  simp [respond, h]

theorem minWord_toNat (a b : Word) : (minWord a b).toNat = min a.toNat b.toNat := by
  unfold minWord; split <;> omega

/-- A delivery of SH is a step of R72 or nothing. -/
theorem deliverHead_cases (k : Nat) (s : State) :
    (deliverHead k s = s ∧ (s.live = false ∨ k = 0 ∨ s.hFlight.length < k))
    ∨ ∃ v, s.live = true ∧ 1 ≤ k ∧ s.hFlight[k - 1]? = some v
        ∧ deliverHead k s = { s with headC := v, hFlight := s.hFlight.drop k } := by
  unfold deliverHead
  split
  · rename_i h
    cases hv : s.hFlight[k - 1]? with
    | none => exact .inl ⟨rfl, .inr (.inr (by have := List.getElem?_eq_none_iff.mp hv; omega))⟩
    | some v => exact .inr ⟨v, by simpa using h.1, h.2, rfl, rfl⟩
  · rename_i h
    refine .inl ⟨rfl, ?_⟩
    by_cases hl : s.live = true
    · exact .inr (.inl (by by_contra hk; exact h ⟨hl, by omega⟩))
    · exact .inl (by simpa using hl)

/-- A delivery of ST is a step of R73 or nothing. -/
theorem deliverTail_cases (k : Nat) (s : State) :
    (deliverTail k s = s ∧ (s.live = false ∨ k = 0 ∨ s.tFlight.length < k))
    ∨ ∃ v, s.live = true ∧ 1 ≤ k ∧ s.tFlight[k - 1]? = some v
        ∧ deliverTail k s = { s with tailP := v, tFlight := s.tFlight.drop k } := by
  unfold deliverTail
  split
  · rename_i h
    cases hv : s.tFlight[k - 1]? with
    | none => exact .inl ⟨rfl, .inr (.inr (by have := List.getElem?_eq_none_iff.mp hv; omega))⟩
    | some v => exact .inr ⟨v, by simpa using h.1, h.2, rfl, rfl⟩
  · rename_i h
    refine .inl ⟨rfl, ?_⟩
    by_cases hl : s.live = true
    · exact .inr (.inl (by by_contra hk; exact h ⟨hl, by omega⟩))
    · exact .inl (by simpa using hl)

/-- CONSTRUCT, when enabled, makes a ring (R240, last arm) or reports why not. -/
theorem constructRing_cases (cap : Word) (s : State) :
    (capacityStatus s.build cap = .ok ∧ constructRing cap s =
        { clearIndices s with capacity := cap, mask := cap - 1, slots := [], cfgStatus := .ok, live := true })
    ∨ ∃ st, (st = .invalidCapacity ∨ st = .allocFail) ∧ capacityStatus s.build cap = st
        ∧ constructRing cap s = { forgetCapacity (clearIndices s) with cfgStatus := st, live := false } := by
  unfold constructRing
  have hc : capacityStatus s.build cap = .ok ∨ capacityStatus s.build cap = .invalidCapacity
      ∨ capacityStatus s.build cap = .allocFail := by
    unfold capacityStatus; split
    · simp
    · split <;> simp
  rcases hc with h | h | h
  · exact .inl ⟨h, by simp [h]⟩
  · exact .inr ⟨_, .inl rfl, h, by simp [h]⟩
  · exact .inr ⟨_, .inr rfl, h, by simp [h]⟩

end Sys2Proof.Machine
end

