-- ==== Sys2Proof/Laws/Exec.lean ====
section
/-! SUPPORT. What executing a command can do, said once: every outcome of `exec`, guards included. -/

namespace Sys2Proof.Machine

open Sys2Proof

/-- The four queries. -/
def isQuery : Instr → Prop
  | .isEmpty _ => True
  | .isFull _ => True
  | .space _ => True
  | .count _ => True
  | .enq _ => False
  | .enqb _ => False
  | .enqd _ => False
  | .deq _ => False
  | .peek _ => False
  | .deqb _ => False
  | .deqd _ => False

/-- R109 and R110 as conditions on the command: which are legal on port `p` with that port's burst record `b`. -/
theorem opcode_mem_legalOpcodes (i : Instr) (p : Port) (b : Burst) : i.opcode ∈ legalOpcodes p b ↔
    (isQuery i
      ∨ (p = .producer ∧ b = .idle ∧ (∃ a, i = .enq a ∨ i = .enqb a))
      ∨ (p = .producer ∧ b ≠ .idle ∧ ∃ a, i = .enqd a)
      ∨ (p = .consumer ∧ b = .idle ∧ (∃ a, i = .deq a ∨ i = .peek a ∨ i = .deqb a))
      ∨ (p = .consumer ∧ b ≠ .idle ∧ ∃ a, i = .deqd a)) := by
  cases p <;> cases b <;> cases i <;> simp [legalOpcodes, Instr.opcode, isQuery]

/-- A command is illegal on the executing port in its burst state (R111). -/
def isIllegal (s : State) (i : Instr) : Prop := i.opcode ∉ legalOpcodes s.port (burstOf s.port s)

theorem isIllegal_not_query {s : State} {i : Instr} (h : isIllegal s i) : ¬ isQuery i := by
  intro hq; exact h ((opcode_mem_legalOpcodes i _ _).mpr (.inl hq))

/-- Every way a command ends in a next state. -/
inductive ExecKind (s : State) : Instr → State → Prop
  | query (i : Instr) (v : Word) (hq : isQuery i) : ExecKind s i (respond .ok v none s)
  | badCmd (i : Instr) (hq : isIllegal s i) : ExecKind s i (fail .badCmd s)
  | ringFull (a : Word) (hp : s.port = .producer) (hb : s.pBurst = .idle)
      (hf : isFullView s.build s.mask (viewOf .producer s) = true) : ExecKind s (.enq a) (fail .ringFull s)
  | enq (a : Word) (hp : s.port = .producer) (hb : s.pBurst = .idle)
      (hf : isFullView s.build s.mask (viewOf .producer s) = false) (ha : enqSlot s < s.build.maxCapacity) :
      ExecKind s (.enq a) (respond .ok 0 none (advanceHead 1 { s with slots := s.slots.write (enqSlot s) s.descIn }))
  | grantNoneP (len : Word) (hp : s.port = .producer) (hb : s.pBurst = .idle)
      (hn : minWord len (spaceOf s.build s.capacity s.mask (viewOf .producer s)) = 0) :
      ExecKind s (.enqb len) (respond .ok 0 none s)
  | grantP (len n : Word) (hp : s.port = .producer) (hb : s.pBurst = .idle)
      (hn : n = minWord len (spaceOf s.build s.capacity s.mask (viewOf .producer s))) (h0 : n ≠ 0) :
      ExecKind s (.enqb len) (respond .ok n none { s with pBurst := .opened n 0 })
  | beatP (a n i : Word) (hp : s.port = .producer) (hb : s.pBurst = .opened n i)
      (ha : enqdSlot i s < s.build.maxCapacity) (hi : i.toNat + 1 < n.toNat) :
      ExecKind s (.enqd a) (respond .ok (n - i - 1) none
        { s with slots := s.slots.write (enqdSlot i s) s.descIn, pBurst := .opened n (i + 1) })
  | commitP (a n i : Word) (hp : s.port = .producer) (hb : s.pBurst = .opened n i)
      (ha : enqdSlot i s < s.build.maxCapacity) (hi : n.toNat ≤ i.toNat + 1) :
      ExecKind s (.enqd a) (respond .ok 0 none
        { advanceHead n { s with slots := s.slots.write (enqdSlot i s) s.descIn } with pBurst := .idle })
  | ringEmptyDeq (a : Word) (hp : s.port = .consumer) (hb : s.cBurst = .idle) (he : s.headC = s.tail) :
      ExecKind s (.deq a) (fail .ringEmpty s)
  | ringEmptyPeek (a : Word) (hp : s.port = .consumer) (hb : s.cBurst = .idle) (he : s.headC = s.tail) :
      ExecKind s (.peek a) (fail .ringEmpty s)
  | deq (a : Word) (d : Descriptor) (hp : s.port = .consumer) (hb : s.cBurst = .idle) (he : s.headC ≠ s.tail)
      (ha : deqSlot s < s.build.maxCapacity) (hr : s.slots.read (deqSlot s) = some d) :
      ExecKind s (.deq a) (respond .ok 0 (some d) (advanceTail 1 s))
  | peek (a : Word) (d : Descriptor) (hp : s.port = .consumer) (hb : s.cBurst = .idle) (he : s.headC ≠ s.tail)
      (ha : deqSlot s < s.build.maxCapacity) (hr : s.slots.read (deqSlot s) = some d) :
      ExecKind s (.peek a) (respond .ok 0 (some d) s)
  | grantNoneC (req : Word) (hp : s.port = .consumer) (hb : s.cBurst = .idle)
      (hn : minWord req (countOf s.build s.mask (viewOf .consumer s)) = 0) :
      ExecKind s (.deqb req) (respond .ok 0 none s)
  | grantC (req n : Word) (hp : s.port = .consumer) (hb : s.cBurst = .idle)
      (hn : n = minWord req (countOf s.build s.mask (viewOf .consumer s))) (h0 : n ≠ 0) :
      ExecKind s (.deqb req) (respond .ok n none { s with cBurst := .opened n 0 })
  | beatC (a n i : Word) (d : Descriptor) (hp : s.port = .consumer) (hb : s.cBurst = .opened n i)
      (ha : deqdSlot i s < s.build.maxCapacity) (hr : s.slots.read (deqdSlot i s) = some d)
      (hi : i.toNat + 1 < n.toNat) :
      ExecKind s (.deqd a) (respond .ok (n - i - 1) (some d) { s with cBurst := .opened n (i + 1) })
  | commitC (a n i : Word) (d : Descriptor) (hp : s.port = .consumer) (hb : s.cBurst = .opened n i)
      (ha : deqdSlot i s < s.build.maxCapacity) (hr : s.slots.read (deqdSlot i s) = some d)
      (hi : n.toNat ≤ i.toNat + 1) :
      ExecKind s (.deqd a) (respond .ok 0 (some d) { advanceTail n s with cBurst := .idle })

theorem execEnq_kind {a : Word} {s t : State} (h : execEnq a s = .next t) : ExecKind s (.enq a) t := by
  unfold execEnq at h
  split at h
  · rename_i hp
    split at h
    · rename_i hf; cases h; exact .ringFull a hp.1 hp.2 hf
    · rename_i hf
      split at h
      · rename_i s1 hs
        obtain ⟨ha, rfl⟩ := storeSlot_ok_iff.mp hs
        cases h; exact .enq a hp.1 hp.2 (by simpa using hf) ha
      · cases h
  · rename_i hp; cases h; exact .badCmd _ (by
      rw [isIllegal, opcode_mem_legalOpcodes]; simp only [isQuery, burstOf]
      cases hpo : s.port <;> simp_all)

theorem execEnqb_kind {len : Word} {s t : State} (h : execEnqb len s = .next t) : ExecKind s (.enqb len) t := by
  unfold execEnqb at h
  split at h
  · rename_i hp
    dsimp only at h
    split at h
    · rename_i h0; cases h; rw [h0]; exact .grantNoneP len hp.1 hp.2 h0
    · rename_i h0; cases h; exact .grantP len _ hp.1 hp.2 rfl h0
  · rename_i hp; cases h; exact .badCmd _ (by
      rw [isIllegal, opcode_mem_legalOpcodes]; simp only [isQuery, burstOf]
      cases hpo : s.port <;> simp_all)

theorem execEnqd_kind {a : Word} {s t : State} (h : execEnqd a s = .next t) : ExecKind s (.enqd a) t := by
  unfold execEnqd at h
  split at h
  · rename_i n i hp hb
    split at h
    · rename_i s1 hs
      obtain ⟨ha, rfl⟩ := storeSlot_ok_iff.mp hs
      split at h
      · rename_i hi; cases h; exact .beatP a n i hp hb ha hi
      · rename_i hi; cases h; exact .commitP a n i hp hb ha (by omega)
    · cases h
  · rename_i hp; cases h; exact .badCmd _ (by
      rw [isIllegal, opcode_mem_legalOpcodes]; simp only [isQuery, burstOf]
      cases hpo : s.port <;> cases hbu : s.pBurst <;> simp_all)

theorem execDeq_kind {a : Word} {s t : State} (h : execDeq a s = .next t) : ExecKind s (.deq a) t := by
  unfold execDeq at h
  split at h
  · rename_i hp
    split at h
    · rename_i he; cases h; exact .ringEmptyDeq a hp.1 hp.2 (by simpa [isEmptyView, viewOf] using he)
    · rename_i he
      split at h
      · rename_i d hd
        obtain ⟨ha, hr⟩ := loadSlot_ok_iff.mp hd
        cases h; exact .deq a d hp.1 hp.2 (by simpa [isEmptyView, viewOf] using he) ha hr
      · cases h
  · rename_i hp; cases h; exact .badCmd _ (by
      rw [isIllegal, opcode_mem_legalOpcodes]; simp only [isQuery, burstOf]
      cases hpo : s.port <;> simp_all)

theorem execPeek_kind {a : Word} {s t : State} (h : execPeek a s = .next t) : ExecKind s (.peek a) t := by
  unfold execPeek at h
  split at h
  · rename_i hp
    split at h
    · rename_i he; cases h; exact .ringEmptyPeek a hp.1 hp.2 (by simpa [isEmptyView, viewOf] using he)
    · rename_i he
      split at h
      · rename_i d hd
        obtain ⟨ha, hr⟩ := loadSlot_ok_iff.mp hd
        cases h; exact .peek a d hp.1 hp.2 (by simpa [isEmptyView, viewOf] using he) ha hr
      · cases h
  · rename_i hp; cases h; exact .badCmd _ (by
      rw [isIllegal, opcode_mem_legalOpcodes]; simp only [isQuery, burstOf]
      cases hpo : s.port <;> simp_all)

theorem execDeqb_kind {req : Word} {s t : State} (h : execDeqb req s = .next t) : ExecKind s (.deqb req) t := by
  unfold execDeqb at h
  split at h
  · rename_i hp
    dsimp only at h
    split at h
    · rename_i h0; cases h; rw [h0]; exact .grantNoneC req hp.1 hp.2 h0
    · rename_i h0; cases h; exact .grantC req _ hp.1 hp.2 rfl h0
  · rename_i hp; cases h; exact .badCmd _ (by
      rw [isIllegal, opcode_mem_legalOpcodes]; simp only [isQuery, burstOf]
      cases hpo : s.port <;> simp_all)

theorem execDeqd_kind {a : Word} {s t : State} (h : execDeqd a s = .next t) : ExecKind s (.deqd a) t := by
  unfold execDeqd at h
  split at h
  · rename_i n i hp hb
    split at h
    · rename_i d hd
      obtain ⟨ha, hr⟩ := loadSlot_ok_iff.mp hd
      split at h
      · rename_i hi; cases h; exact .beatC a n i d hp hb ha hr hi
      · rename_i hi; cases h; exact .commitC a n i d hp hb ha hr (by omega)
    · cases h
  · rename_i hp; cases h; exact .badCmd _ (by
      rw [isIllegal, opcode_mem_legalOpcodes]; simp only [isQuery, burstOf]
      cases hpo : s.port <;> cases hbu : s.cBurst <;> simp_all)

/-- Every next state of a command is one of `ExecKind`'s. -/
theorem exec_kind {i : Instr} {s t : State} (h : exec i s = .next t) : ExecKind s i t := by
  cases i with
  | isEmpty a => cases h; exact .query _ _ trivial
  | isFull a => cases h; exact .query _ _ trivial
  | space a => cases h; exact .query _ _ trivial
  | count a => cases h; exact .query _ _ trivial
  | enq a => exact execEnq_kind h
  | enqb a => exact execEnqb_kind h
  | enqd a => exact execEnqd_kind h
  | deq a => exact execDeq_kind h
  | peek a => exact execPeek_kind h
  | deqb a => exact execDeqb_kind h
  | deqd a => exact execDeqd_kind h

/-- Where the illegal forms store: nowhere. -/
theorem storedSlot_illegal {s : State} {i : Instr} (h : isIllegal s i) : storedSlot i s = none := by
  rw [isIllegal, opcode_mem_legalOpcodes] at h
  cases i <;> simp only [storedSlot]
  case enq a =>
    rw [if_neg]
    rintro ⟨hp, hb, _⟩
    exact h (.inr (.inl ⟨hp, by rw [hp]; exact hb, a, .inl rfl⟩))
  case enqd a =>
    cases hp : s.port <;> cases hb : s.pBurst <;> simp only
    exact absurd (.inr (.inr (.inl ⟨hp, by rw [hp]; simp [burstOf, hb], a, rfl⟩))) h

/-- What a command does to the storage: it writes the descriptor on the wires to `storedSlot`, or nothing. -/
theorem exec_slots {i : Instr} {s t : State} (h : exec i s = .next t) :
    t.slots = match storedSlot i s with
      | some x => s.slots.write x s.descIn
      | none => s.slots := by
  cases exec_kind h
  case query hq => cases i <;> simp_all [isQuery, storedSlot]
  case badCmd hb => simp [storedSlot_illegal hb, fail]
  all_goals simp_all [storedSlot, fail]

/-- The storage after a command, slot by slot. -/
theorem exec_read {i : Instr} {s t : State} (h : exec i s = .next t) (x : Nat) :
    t.slots.read x = if storedSlot i s = some x then some s.descIn else s.slots.read x := by
  rw [exec_slots h]
  cases storedSlot i s with
  | none => simp
  | some y => simp [Memory.read_write, eq_comm]

/-- Every way a command stops. -/
inductive ExecStops (s : State) : Instr → Fault → Prop
  | enq (a : Word) (f : Fault) (hp : s.port = .producer) (hb : s.pBurst = .idle)
      (hf : isFullView s.build s.mask (viewOf .producer s) = false) (h : storeSlot (enqSlot s) s.descIn s = .error f) :
      ExecStops s (.enq a) f
  | enqd (a n i : Word) (f : Fault) (hp : s.port = .producer) (hb : s.pBurst = .opened n i)
      (h : storeSlot (enqdSlot i s) s.descIn s = .error f) : ExecStops s (.enqd a) f
  | deq (a : Word) (f : Fault) (hp : s.port = .consumer) (hb : s.cBurst = .idle) (he : s.headC ≠ s.tail)
      (h : loadSlot (deqSlot s) s = .error f) : ExecStops s (.deq a) f
  | peek (a : Word) (f : Fault) (hp : s.port = .consumer) (hb : s.cBurst = .idle) (he : s.headC ≠ s.tail)
      (h : loadSlot (deqSlot s) s = .error f) : ExecStops s (.peek a) f
  | deqd (a n i : Word) (f : Fault) (hp : s.port = .consumer) (hb : s.cBurst = .opened n i)
      (h : loadSlot (deqdSlot i s) s = .error f) : ExecStops s (.deqd a) f

/-- A command ends in a next state or stops at a slot access; it is never refused. -/
theorem exec_total (i : Instr) (s : State) :
    (∃ t, exec i s = .next t) ∨ ∃ f, exec i s = .fault f ∧ ExecStops s i f := by
  cases i with
  | isEmpty a => exact .inl ⟨_, rfl⟩
  | isFull a => exact .inl ⟨_, rfl⟩
  | space a => exact .inl ⟨_, rfl⟩
  | count a => exact .inl ⟨_, rfl⟩
  | enq a =>
    simp only [exec, execEnq]
    split
    · rename_i hp
      split
      · exact .inl ⟨_, rfl⟩
      · rename_i hf
        split
        · exact .inl ⟨_, rfl⟩
        · rename_i f hs; exact .inr ⟨f, rfl, .enq a f hp.1 hp.2 (by simpa using hf) hs⟩
    · exact .inl ⟨_, rfl⟩
  | enqb a => simp only [exec, execEnqb]; split <;> [split; skip] <;> exact .inl ⟨_, rfl⟩
  | enqd a =>
    simp only [exec, execEnqd]
    split
    · rename_i n i hp hb
      split
      · split <;> exact .inl ⟨_, rfl⟩
      · rename_i f hs; exact .inr ⟨f, rfl, .enqd a n i f hp hb hs⟩
    · exact .inl ⟨_, rfl⟩
  | deq a =>
    simp only [exec, execDeq]
    split
    · rename_i hp
      split
      · exact .inl ⟨_, rfl⟩
      · rename_i he
        split
        · exact .inl ⟨_, rfl⟩
        · rename_i f hs; exact .inr ⟨f, rfl, .deq a f hp.1 hp.2 (by simpa [isEmptyView, viewOf] using he) hs⟩
    · exact .inl ⟨_, rfl⟩
  | peek a =>
    simp only [exec, execPeek]
    split
    · rename_i hp
      split
      · exact .inl ⟨_, rfl⟩
      · rename_i he
        split
        · exact .inl ⟨_, rfl⟩
        · rename_i f hs; exact .inr ⟨f, rfl, .peek a f hp.1 hp.2 (by simpa [isEmptyView, viewOf] using he) hs⟩
    · exact .inl ⟨_, rfl⟩
  | deqb a => simp only [exec, execDeqb]; split <;> [split; skip] <;> exact .inl ⟨_, rfl⟩
  | deqd a =>
    simp only [exec, execDeqd]
    split
    · rename_i n i hp hb
      split
      · split <;> exact .inl ⟨_, rfl⟩
      · rename_i f hs; exact .inr ⟨f, rfl, .deqd a n i f hp hb hs⟩
    · exact .inl ⟨_, rfl⟩

end Sys2Proof.Machine
end

