-- ==== Sys2Proof/Laws/Forward.lean ====
section
/-! SUPPORT. The successful forms of the commands, forwards: under what the rule asks, `exec` answers this next state. -/

namespace Sys2Proof.Machine

open Sys2Proof

/-- R111: an illegal command answers `BadCmd`. -/
theorem exec_illegal {s : State} {i : Instr} (h : isIllegal s i) : exec i s = .next (fail .badCmd s) := by
  rw [isIllegal, opcode_mem_legalOpcodes] at h
  push Not at h
  obtain ⟨h1, h2, h3, h4, h5⟩ := h
  cases hp : s.port <;> cases i <;>
    simp_all [exec, isQuery, burstOf, execEnq, execEnqb, execEnqd, execDeq, execPeek, execDeqb, execDeqd]

theorem exec_enq_next {s : State} (a : Word) (hp : s.port = .producer) (hb : s.pBurst = .idle)
    (hf : isFullView s.build s.mask (viewOf .producer s) = false) (ha : enqSlot s < s.build.maxCapacity) :
    exec (.enq a) s =
      .next (respond .ok 0 none (advanceHead 1 { s with slots := s.slots.write (enqSlot s) s.descIn })) := by
  simp only [exec, execEnq, hp, hb, and_self, if_true, hf, Bool.false_eq_true, if_false,
    storeSlot_ok_iff.mpr ⟨ha, rfl⟩]

theorem exec_enq_full {s : State} (a : Word) (hp : s.port = .producer) (hb : s.pBurst = .idle)
    (hf : isFullView s.build s.mask (viewOf .producer s) = true) : exec (.enq a) s = .next (fail .ringFull s) := by
  simp only [exec, execEnq, hp, hb, and_self, if_true, hf]

theorem exec_enqb_none {s : State} (len : Word) (hp : s.port = .producer) (hb : s.pBurst = .idle)
    (hn : minWord len (spaceOf s.build s.capacity s.mask (viewOf .producer s)) = 0) :
    exec (.enqb len) s = .next (respond .ok 0 none s) := by
  simp only [exec, execEnqb, hp, hb, and_self, if_true, hn]

theorem exec_enqb_next {s : State} (len n : Word) (hp : s.port = .producer) (hb : s.pBurst = .idle)
    (hn : n = minWord len (spaceOf s.build s.capacity s.mask (viewOf .producer s))) (h0 : n ≠ 0) :
    exec (.enqb len) s = .next (respond .ok n none { s with pBurst := .opened n 0 }) := by
  simp only [exec, execEnqb, hp, hb, and_self, if_true, ← hn, h0, if_false]

theorem exec_enqd_beat {s : State} (a n i : Word) (hp : s.port = .producer) (hb : s.pBurst = .opened n i)
    (ha : enqdSlot i s < s.build.maxCapacity) (hi : i.toNat + 1 < n.toNat) :
    exec (.enqd a) s = .next (respond .ok (n - i - 1) none
      { s with slots := s.slots.write (enqdSlot i s) s.descIn, pBurst := .opened n (i + 1) }) := by
  simp only [exec, execEnqd, hp, hb, storeSlot_ok_iff.mpr ⟨ha, rfl⟩, hi, if_true]

theorem exec_enqd_commit {s : State} (a n i : Word) (hp : s.port = .producer) (hb : s.pBurst = .opened n i)
    (ha : enqdSlot i s < s.build.maxCapacity) (hi : n.toNat ≤ i.toNat + 1) :
    exec (.enqd a) s = .next (respond .ok 0 none
      { advanceHead n { s with slots := s.slots.write (enqdSlot i s) s.descIn } with pBurst := .idle }) := by
  simp only [exec, execEnqd, hp, hb, storeSlot_ok_iff.mpr ⟨ha, rfl⟩, Nat.not_lt.mpr hi, if_false]

theorem exec_deq_next {s : State} (a : Word) {d : Descriptor} (hp : s.port = .consumer) (hb : s.cBurst = .idle)
    (he : s.headC ≠ s.tail) (ha : deqSlot s < s.build.maxCapacity) (hr : s.slots.read (deqSlot s) = some d) :
    exec (.deq a) s = .next (respond .ok 0 (some d) (advanceTail 1 s)) := by
  simp [exec, execDeq, hp, hb, isEmptyView, viewOf, he, loadSlot_ok_iff.mpr ⟨ha, hr⟩]

theorem exec_deq_empty {s : State} (a : Word) (hp : s.port = .consumer) (hb : s.cBurst = .idle)
    (he : s.headC = s.tail) : exec (.deq a) s = .next (fail .ringEmpty s) := by
  simp [exec, execDeq, hp, hb, isEmptyView, viewOf, he]

theorem exec_peek_next {s : State} (a : Word) {d : Descriptor} (hp : s.port = .consumer) (hb : s.cBurst = .idle)
    (he : s.headC ≠ s.tail) (ha : deqSlot s < s.build.maxCapacity) (hr : s.slots.read (deqSlot s) = some d) :
    exec (.peek a) s = .next (respond .ok 0 (some d) s) := by
  simp [exec, execPeek, hp, hb, isEmptyView, viewOf, he, loadSlot_ok_iff.mpr ⟨ha, hr⟩]

theorem exec_peek_empty {s : State} (a : Word) (hp : s.port = .consumer) (hb : s.cBurst = .idle)
    (he : s.headC = s.tail) : exec (.peek a) s = .next (fail .ringEmpty s) := by
  simp [exec, execPeek, hp, hb, isEmptyView, viewOf, he]

theorem exec_deqb_none {s : State} (req : Word) (hp : s.port = .consumer) (hb : s.cBurst = .idle)
    (hn : minWord req (countOf s.build s.mask (viewOf .consumer s)) = 0) :
    exec (.deqb req) s = .next (respond .ok 0 none s) := by
  simp only [exec, execDeqb, hp, hb, and_self, if_true, hn]

theorem exec_deqb_next {s : State} (req n : Word) (hp : s.port = .consumer) (hb : s.cBurst = .idle)
    (hn : n = minWord req (countOf s.build s.mask (viewOf .consumer s))) (h0 : n ≠ 0) :
    exec (.deqb req) s = .next (respond .ok n none { s with cBurst := .opened n 0 }) := by
  simp only [exec, execDeqb, hp, hb, and_self, if_true, ← hn, h0, if_false]

theorem exec_deqd_beat {s : State} (a n i : Word) {d : Descriptor} (hp : s.port = .consumer)
    (hb : s.cBurst = .opened n i) (ha : deqdSlot i s < s.build.maxCapacity)
    (hr : s.slots.read (deqdSlot i s) = some d) (hi : i.toNat + 1 < n.toNat) :
    exec (.deqd a) s = .next (respond .ok (n - i - 1) (some d) { s with cBurst := .opened n (i + 1) }) := by
  simp only [exec, execDeqd, hp, hb, loadSlot_ok_iff.mpr ⟨ha, hr⟩, hi, if_true]

theorem exec_deqd_commit {s : State} (a n i : Word) {d : Descriptor} (hp : s.port = .consumer)
    (hb : s.cBurst = .opened n i) (ha : deqdSlot i s < s.build.maxCapacity)
    (hr : s.slots.read (deqdSlot i s) = some d) (hi : n.toNat ≤ i.toNat + 1) :
    exec (.deqd a) s = .next (respond .ok 0 (some d) { advanceTail n s with cBurst := .idle }) := by
  simp only [exec, execDeqd, hp, hb, loadSlot_ok_iff.mpr ⟨ha, hr⟩, Nat.not_lt.mpr hi, if_false]

/-- A command whose slot access stops, stops. -/
theorem exec_stops {s : State} {i : Instr} {f : Fault} (h : ExecStops s i f) : exec i s = .fault f := by
  cases h with
  | enq a _ hp hb hf h => simp only [exec, execEnq, hp, hb, and_self, if_true, hf, Bool.false_eq_true, if_false, h]
  | enqd a n i _ hp hb h => simp only [exec, execEnqd, hp, hb, h]
  | deq a _ hp hb he h => simp [exec, execDeq, hp, hb, isEmptyView, viewOf, he, h]
  | peek a _ hp hb he h => simp [exec, execPeek, hp, hb, isEmptyView, viewOf, he, h]
  | deqd a n i _ hp hb h => simp only [exec, execDeqd, hp, hb, h]

end Sys2Proof.Machine
end

