-- ==== Sys2Proof/Laws/Index.lean ====
section
/-! SUPPORT. Index arithmetic: `&` with a power of two less one is a remainder, logical indices and their registers,
`popcount` and powers of two. -/

namespace Sys2Proof.Machine

open Sys2Proof

/-! ### Powers of two and masks -/

theorem mask_toNat (cap : Word) (h : 1 ≤ cap.toNat) : (cap - 1).toNat = cap.toNat - 1 := by
  have h1 : (1 : Word).toNat = 1 := rfl
  have h2 := cap.isLt
  rw [BitVec.toNat_sub, h1]
  omega

/-- R23: "`v & mask = v mod capacity` for every `v`". -/
theorem and_mask_toNat (x cap : Word) (k : Nat) (h : cap.toNat = 2 ^ k) : (x &&& (cap - 1)).toNat = x.toNat % cap.toNat := by
  rw [BitVec.toNat_and, mask_toNat cap (h ▸ Nat.one_le_two_pow), h, Nat.and_two_pow_sub_one_eq_mod]

theorem popcountBelow_eq_zero (w : Word) (n : Nat) : popcountBelow w n = 0 ↔ ∀ j < n, w.getLsbD j = false := by
  induction n with
  | zero => simp [popcountBelow]
  | succ n ih =>
    simp only [popcountBelow, Nat.add_eq_zero_iff, ih]
    constructor
    · rintro ⟨h1, h2⟩ j hj
      rcases Nat.lt_succ_iff_lt_or_eq.mp hj with h | rfl
      · exact h1 j h
      · by_contra hc; simp [Bool.not_eq_false _ ▸ hc] at h2
    · intro h
      exact ⟨fun j hj => h j (by omega), by simp [h n (by omega)]⟩

/-- One bit set among the low `n`: exactly one position. -/
theorem popcountBelow_eq_one (w : Word) (n : Nat) :
    popcountBelow w n = 1 ↔ ∃ k < n, ∀ j < n, w.getLsbD j = decide (j = k) := by
  induction n with
  | zero => simp [popcountBelow]
  | succ n ih =>
    simp only [popcountBelow]
    by_cases hb : w.getLsbD n = true
    · rw [if_pos hb, Nat.add_eq_right, popcountBelow_eq_zero]
      constructor
      · intro h
        refine ⟨n, by omega, fun j hj => ?_⟩
        by_cases hjn : j = n
        · simp [hjn, hb]
        · simp [hjn, h j (by omega)]
      · rintro ⟨k, hk, h⟩ j hj
        have hkn : k = n := by have := h n (by omega); rw [hb] at this; simpa [eq_comm] using this
        have := h j (by omega)
        rw [this]; simp; omega
    · have hb' : w.getLsbD n = false := by simpa using hb
      rw [if_neg hb, Nat.add_zero, ih]
      constructor
      · rintro ⟨k, hk, h⟩
        refine ⟨k, by omega, fun j hj => ?_⟩
        by_cases hjn : j = n
        · subst hjn; rw [hb']; simp; omega
        · exact h j (by omega)
      · rintro ⟨k, hk, h⟩
        have hkn : k ≠ n := by rintro rfl; have := h k (by omega); simp [hb'] at this
        exact ⟨k, by omega, fun j hj => h j (by omega)⟩

/-- A word has one bit set exactly when it is a power of two. -/
theorem popcount_eq_one_iff (w : Word) : popcount w = 1 ↔ ∃ k < 32, w.toNat = 2 ^ k := by
  rw [popcount, popcountBelow_eq_one]
  constructor
  · rintro ⟨k, hk, h⟩
    refine ⟨k, hk, ?_⟩
    have : w = BitVec.twoPow 32 k := by
      apply BitVec.eq_of_getLsbD_eq
      intro j hj
      rw [h j hj, BitVec.getLsbD_twoPow]
      simp [hk, eq_comm]
    rw [this, BitVec.toNat_twoPow, Nat.mod_eq_of_lt (Nat.pow_lt_pow_right (by omega) hk)]
  · rintro ⟨k, hk, h⟩
    refine ⟨k, hk, fun j hj => ?_⟩
    have : w = BitVec.twoPow 32 k := by
      apply BitVec.eq_of_toNat_eq
      rw [h, BitVec.toNat_twoPow, Nat.mod_eq_of_lt (Nat.pow_lt_pow_right (by omega) hk)]
    rw [this, BitVec.getLsbD_twoPow]
    simp [hk, eq_comm]

/-- The tests of CONSTRUCT as arithmetic (R240). -/
theorem capacityStatus_ok_iff (b : Params) (w : Word) :
    capacityStatus b w = .ok ↔ 2 ≤ w.toNat ∧ (∃ k < 32, w.toNat = 2 ^ k) ∧ w.toNat ≤ b.maxCapacity := by
  unfold capacityStatus
  have hp := popcount_eq_one_iff w
  split
  · rename_i h
    simp only [reduceCtorEq, false_iff]
    rintro ⟨h2, h3, _⟩
    rcases h with h | h
    · omega
    · exact h (hp.mpr h3)
  · rename_i h
    push Not at h
    split
    · simp only [reduceCtorEq, false_iff]; omega
    · simp only [true_iff]; exact ⟨h.1, hp.mp h.2, by omega⟩

/-- A legal `MAX_CAPACITY` divides `2^IDX_W` (R5). -/
theorem wf_facts {b : Params} (h : b.wf = true) :
    (∃ k, b.maxCapacity = 2 ^ k ∧ k ≤ b.idxW) ∧ 2 ≤ b.maxCapacity ∧ b.maxCapacity ≤ 2 ^ b.idxW ∧ b.idxW ≤ 32 := by
  simp only [Params.wf, isPowerOfTwo, Bool.and_eq_true, decide_eq_true_eq, List.any_eq_true, beq_iff_eq] at h
  obtain ⟨⟨⟨⟨⟨⟨⟨k, _, hk⟩, h2⟩, h3⟩, h4⟩, _⟩, _⟩, _⟩ := h
  refine ⟨⟨k, hk.symm, ?_⟩, h2, h3, h4⟩
  rw [← hk] at h3
  exact (Nat.pow_le_pow_iff_right (by omega)).mp h3

/-! ### Logical indices and their registers -/

theorem idxOf_toNat {b : Params} (h : b.idxW ≤ 32) (x : Nat) : (idxOf b x).toNat = x % 2 ^ b.idxW := by
  have h1 : x % 2 ^ b.idxW < 2 ^ b.idxW := Nat.mod_lt _ (by positivity)
  have h2 : 2 ^ b.idxW ≤ 2 ^ 32 := Nat.pow_le_pow_right (by omega) h
  rw [idxOf, BitVec.toNat_ofNat, Nat.mod_eq_of_lt (by omega)]

theorem truncIdx_toNat {b : Params} (h : b.idxW ≤ 32) (v : Idx) : (truncIdx b v).toNat = v.toNat % 2 ^ b.idxW :=
  idxOf_toNat h v.toNat

theorem pow_dvd_container {b : Params} (h : b.idxW ≤ 32) : 2 ^ b.idxW ∣ 2 ^ 32 := Nat.pow_dvd_pow 2 h

/-- R146 (a): the sum modulo `2^IDX_W`. -/
theorem idxAdd_toNat {b : Params} (h : b.idxW ≤ 32) (x y : Idx) :
    (idxAdd b x y).toNat = (x.toNat + y.toNat) % 2 ^ b.idxW := by
  rw [idxAdd, truncIdx_toNat h, BitVec.toNat_add, Nat.mod_mod_of_dvd _ (pow_dvd_container h)]

/-- A sum fits `IDX_W` bits. -/
theorem idxAdd_lt (b : Params) (x y : Idx) : (idxAdd b x y).toNat < 2 ^ b.idxW := by
  rw [idxAdd, truncIdx, BitVec.toNat_ofNat]
  exact lt_of_le_of_lt (Nat.mod_le _ _) (Nat.mod_lt _ (Nat.two_pow_pos _))

/-- Advancing a register advances the logical index (R38). -/
theorem idxAdd_idxOf {b : Params} (h : b.idxW ≤ 32) (x : Nat) (y : Word) :
    idxAdd b (idxOf b x) y = idxOf b (x + y.toNat) := by
  apply BitVec.eq_of_toNat_eq
  rw [idxAdd_toNat h, idxOf_toNat h, idxOf_toNat h, Nat.mod_add_mod]

/-- R146 (b): the difference of two registers is the logical difference modulo `2^IDX_W`. -/
theorem idxSub_idxOf_toNat {b : Params} (h : b.idxW ≤ 32) {x y : Nat} (hxy : y ≤ x) :
    (idxSub b (idxOf b x) (idxOf b y)).toNat = (x - y) % 2 ^ b.idxW := by
  rw [idxSub, truncIdx_toNat h, BitVec.toNat_sub, idxOf_toNat h, idxOf_toNat h,
    Nat.mod_mod_of_dvd _ (pow_dvd_container h)]
  obtain ⟨q, hq⟩ := pow_dvd_container h
  have hy : y % 2 ^ b.idxW < 2 ^ b.idxW := Nat.mod_lt _ (by positivity)
  have hle : 2 ^ b.idxW ≤ 2 ^ 32 := Nat.pow_le_pow_right (by omega) h
  have hz : (2 ^ 32 - y % 2 ^ b.idxW + x % 2 ^ b.idxW) ≡ (x - y) [MOD 2 ^ b.idxW] := by
    have h0 : (2 ^ 32 - y % 2 ^ b.idxW + x % 2 ^ b.idxW) + y ≡ (x - y) + y [MOD 2 ^ b.idxW] := by
      rw [Nat.sub_add_cancel hxy]
      have e1 : (2 ^ 32 - y % 2 ^ b.idxW + x % 2 ^ b.idxW) + y % 2 ^ b.idxW = 2 ^ 32 + x % 2 ^ b.idxW := by omega
      have e2 : (2 ^ 32 - y % 2 ^ b.idxW + x % 2 ^ b.idxW) + y
          ≡ (2 ^ 32 - y % 2 ^ b.idxW + x % 2 ^ b.idxW) + y % 2 ^ b.idxW [MOD 2 ^ b.idxW] :=
        Nat.ModEq.add_left _ (Nat.mod_modEq y _).symm
      refine e2.trans ?_
      rw [e1, hq]
      exact (Nat.ModEq.add (Nat.modEq_zero_iff_dvd.mpr ⟨q, rfl⟩) (Nat.mod_modEq x _)).trans (by rw [Nat.zero_add])
    exact Nat.ModEq.add_right_cancel' y h0
  exact hz

/-- Two logical indices less than `2^IDX_W` apart have equal registers only when they are equal. -/
theorem idxOf_inj {b : Params} (h : b.idxW ≤ 32) {x y : Nat} (hxy : y ≤ x) (hlt : x - y < 2 ^ b.idxW)
    (he : idxOf b x = idxOf b y) : x = y := by
  have h1 := congrArg BitVec.toNat he
  rw [idxOf_toNat h, idxOf_toNat h] at h1
  have h2 : (x - y) % 2 ^ b.idxW = 0 := (Nat.modEq_iff_dvd' hxy).mp h1.symm |> Nat.mod_eq_zero_of_dvd
  rw [Nat.mod_eq_of_lt hlt] at h2
  omega

/-! ### Under the invariant -/

theorem LiveInv.cap_dvd {g : Ghost} {s : State} (hb : s.build.wf = true) (h : LiveInv g s) :
    s.capacity.toNat ∣ 2 ^ s.build.idxW := by
  obtain ⟨⟨m, hm, hmw⟩, _, hle, _⟩ := wf_facts hb
  obtain ⟨k, hk⟩ := h.capPow
  rw [hk]
  apply Nat.pow_dvd_pow
  have h1 := h.capMax
  rw [hk, hm] at h1
  exact ((Nat.pow_le_pow_iff_right (by omega)).mp h1).trans hmw

/-- The slot of a register is its logical index modulo the capacity (R37, R61). -/
theorem LiveInv.slotOf_idxOf {g : Ghost} {s : State} (hb : s.build.wf = true) (h : LiveInv g s) (x : Nat) :
    slotOf s.mask (idxOf s.build x) = x % s.capacity.toNat := by
  obtain ⟨k, hk⟩ := h.capPow
  rw [slotOf, h.maskEq, and_mask_toNat _ _ k hk, idxOf_toNat (wf_facts hb).2.2.2, Nat.mod_mod_of_dvd _ (h.cap_dvd hb)]

/-- The masked difference of two registers is the logical difference (R37). -/
theorem LiveInv.countOf_idxOf {g : Ghost} {s : State} (hb : s.build.wf = true) (h : LiveInv g s) {x y : Nat}
    (hyx : y ≤ x) (hlt : x - y < s.capacity.toNat) :
    (countOf s.build s.mask ⟨idxOf s.build x, idxOf s.build y⟩).toNat = x - y := by
  obtain ⟨k, hk⟩ := h.capPow
  rw [countOf, h.maskEq, and_mask_toNat _ _ k hk, idxSub_idxOf_toNat (wf_facts hb).2.2.2 hyx,
    Nat.mod_mod_of_dvd _ (h.cap_dvd hb), Nat.mod_eq_of_lt hlt]

/-- Two logical indices less than a capacity apart have equal registers only when they are equal (R37). -/
theorem LiveInv.idxOf_inj {g : Ghost} {s : State} (hb : s.build.wf = true) (h : LiveInv g s) {x y : Nat}
    (hyx : y ≤ x) (hlt : x - y < s.capacity.toNat) : idxOf s.build x = idxOf s.build y ↔ x = y := by
  constructor
  · intro he
    exact Machine.idxOf_inj (wf_facts hb).2.2.2 hyx
      (lt_of_lt_of_le hlt (Nat.le_of_dvd (by positivity) (h.cap_dvd hb))) he
  · rintro rfl; rfl

end Sys2Proof.Machine
end

