-- ==== Sys2Proof/Laws/Invariant.lean ====
section
/-! SUPPORT. What the invariant says of the views, of the slots a command touches and of the flight lists. -/

namespace Sys2Proof.Machine

open Sys2Proof

theorem one_toNat : (1 : Word).toNat = 1 := rfl

/-! ### Flight lists (R36 I3) -/

/-- A new value joins a flight list (R160, R162, R180, R184). -/
theorem FlightOk.snoc {b n m : Nat} {l : List Nat} (h : FlightOk b n l) (hb : b ≤ n) (hm : n < m) : FlightOk b m (l ++ [m]) := by
  have hle : ∀ x ∈ l, x ≤ n := by
    intro x hx
    rcases List.eq_nil_or_concat l with rfl | ⟨l', y, rfl⟩
    · simp at hx
    · obtain rfl : y = n := by simpa using h.ends
      rcases List.mem_append.mp (by simpa using hx : x ∈ l' ++ [y]) with hx | hx
      · have hr := h.rising
        rw [List.concat_eq_append, List.pairwise_append] at hr
        exact (hr.2.2 x hx y (by simp)).le
      · exact (List.mem_singleton.mp hx).le
  refine ⟨List.pairwise_append.mpr ⟨h.rising, by simp, fun x hx y hy => ?_⟩, fun x hx => ?_, by simp⟩
  · rw [List.mem_singleton.mp hy]; exact lt_of_le_of_lt (hle x hx) hm
  · rcases List.mem_append.mp hx with hx | hx
    · exact h.above x hx
    · rw [List.mem_singleton.mp hx]; omega

/-- A delivery takes a value strictly nearer to the newest and leaves a flight list (R72, R73). -/
theorem FlightOk.drop {b n v : Nat} {l : List Nat} {k : Nat} (h : FlightOk b n l) (hk : 1 ≤ k)
    (hv : l[k - 1]? = some v) : FlightOk v n (l.drop k) ∧ b < v ∧ v ≤ n := by
  obtain ⟨hlt, hv'⟩ := List.getElem?_eq_some_iff.mp hv
  have hsplit : l = l.take (k - 1) ++ v :: l.drop k := by
    have h2 : l.drop (k - 1) = v :: l.drop k := by
      rw [List.drop_eq_getElem_cons hlt, hv', Nat.sub_add_cancel hk]
    rw [← h2, List.take_append_drop]
  have hp := h.rising
  rw [hsplit, List.pairwise_append] at hp
  obtain ⟨hp1, hp2⟩ := List.pairwise_cons.mp hp.2.1
  have hend := h.ends
  rw [hsplit] at hend
  simp only [List.getLast?_append, List.getLast?_cons, Option.some_or, Option.getD_some] at hend
  refine ⟨⟨hp2, hp1, hend⟩, h.above v (hv' ▸ List.getElem_mem hlt), ?_⟩
  rcases List.eq_nil_or_concat (l.drop k) with e | ⟨l', y, e⟩
  · rw [e] at hend; exact hend.le
  · rw [e] at hend hp1
    obtain rfl : y = n := by simpa using hend
    exact (hp1 y (by simp)).le

/-! ### What the invariant does not look at -/

/-- The streams, the responses and the latches are no part of the invariant of a live ring. -/
theorem LiveInv.congr {g : Ghost} {s t : State} (h : LiveInv g s)
    (e : t = { s with pIn := t.pIn, cIn := t.cIn, turns := t.turns, pOut := t.pOut, cOut := t.cOut, port := t.port, descIn := t.descIn }) :
    LiveInv g t := by
  rw [e]
  exact ⟨h.capPow, h.capMin, h.capMax, h.maskEq, h.headEq, h.tailEq, h.headCEq, h.tailPEq, h.hFlightEq, h.tFlightEq,
    h.chainT, h.chainHc, h.chainH, h.chainCap, h.hOk, h.tOk, h.pOk, h.cOk, h.written, h.staged, h.status⟩

/-- The streams, the responses and the latches are no part of the invariant. -/
theorem Inv.congr {s t : State} (h : Inv s)
    (e : t = { s with pIn := t.pIn, cIn := t.cIn, turns := t.turns, pOut := t.pOut, cOut := t.cOut, port := t.port, descIn := t.descIn }) :
    Inv t := by
  have h1 : t.build = s.build := by rw [e]
  have h2 : t.slots = s.slots := by rw [e]
  have h3 : t.live = s.live := by rw [e]
  refine ⟨by rw [h1]; exact h.build, by rw [h2]; exact h.canonical, by rw [h1, h2]; exact h.inside, fun hl => ?_, fun hl => ?_⟩
  · obtain ⟨g, hg⟩ := h.live (h3 ▸ hl)
    exact ⟨g, hg.congr e⟩
  · have r := h.rest (h3 ▸ hl)
    rw [e]
    exact ⟨r.1, r.2, r.3, r.4, r.5, r.6, r.7, r.8, r.9⟩

/-- A response keeps the invariant. -/
theorem Inv.respond {s : State} (h : Inv s) (st : Status) (v : Word) (d : Option Descriptor) : Inv (respond st v d s) :=
  h.congr (by unfold Machine.respond; cases s.port <;> rfl)

/-- A slot write keeps the storage canonical and inside `MAX_CAPACITY`. -/
theorem Inv.write {s : State} (h : Inv s) {a : Nat} {d : Descriptor} (ha : a < s.build.maxCapacity) :
    (s.slots.write a d).wf ∧ ∀ x ∈ s.slots.write a d, x.1 < s.build.maxCapacity := by
  refine ⟨Memory.write_wf a d h.canonical, fun x hx => ?_⟩
  rcases Memory.mem_write hx with rfl | hx
  · exact ha
  · exact h.inside x hx

theorem Memory.isSome_write {m : Memory} {a x : Nat} {d : Descriptor} (h : x ≠ a → (m.read x).isSome) :
    ((m.write a d).read x).isSome := by
  rw [Memory.read_write]; split
  · rfl
  · rename_i hx; exact h hx

/-! ### The canonical form of the storage (R60) -/

theorem storeSlot_wf {a : Nat} {d : Descriptor} {s t : State} (h : storeSlot a d s = .ok t) (hs : s.slots.wf) : t.slots.wf := by
  obtain ⟨_, rfl⟩ := storeSlot_ok_iff.mp h
  exact Memory.write_wf a d hs

theorem constructRing_wf (cap : Word) {s : State} (hs : s.slots.wf) : (constructRing cap s).slots.wf := by
  rcases constructRing_cases cap s with ⟨_, e⟩ | ⟨_, _, _, e⟩ <;> rw [e]
  · exact List.Pairwise.nil
  · exact hs

theorem hostReset_wf {s : State} (hs : s.slots.wf) : (hostReset s).slots.wf := hs

theorem reset_slots_wf : State.reset.slots.wf := List.Pairwise.nil

/-! ### A check of the invariant on a concrete state -/

/-- The fields of `FlightOk`, decidable. -/
abbrev flightCheck (base newest : Nat) (l : List Nat) : Prop :=
  l.Pairwise (· < ·) ∧ (∀ x ∈ l, base < x) ∧ l.getLast?.getD base = newest

/-- The fields of `LiveInv` that name registers, with a capacity `2^k`, decidable. -/
abbrev liveCheckRegs (g : Ghost) (k : Nat) (s : State) : Prop :=
  s.capacity.toNat = 2 ^ k ∧ 2 ≤ s.capacity.toNat ∧ s.capacity.toNat ≤ s.build.maxCapacity ∧ s.mask = s.capacity - 1
    ∧ s.head = idxOf s.build g.H ∧ s.tail = idxOf s.build g.T ∧ s.headC = idxOf s.build g.Hc ∧ s.tailP = idxOf s.build g.Tp
    ∧ s.hFlight = g.hs.map (idxOf s.build) ∧ s.tFlight = g.ts.map (idxOf s.build)
    ∧ g.Tp ≤ g.T ∧ g.T ≤ g.Hc ∧ g.Hc ≤ g.H ∧ g.H ≤ g.Tp + s.capacity.toNat - 1
    ∧ flightCheck g.Hc g.H g.hs ∧ flightCheck g.Tp g.T g.ts ∧ s.cfgStatus = .ok

/-- The fields of `LiveInv` that name bursts and slots, decidable. -/
abbrev liveCheckSlots (g : Ghost) (s : State) (pn pi cn ci : Nat) : Prop :=
  (s.pBurst = .idle ∨ (s.pBurst = .opened (BitVec.ofNat 32 pn) (BitVec.ofNat 32 pi) ∧ pn < 2 ^ 32 ∧ pi < pn
      ∧ pn ≤ s.capacity.toNat - 1 - (g.H - g.Tp) ∧ ∀ j < pi, (s.slots.read ((g.H + j) % s.capacity.toNat)).isSome))
    ∧ (s.cBurst = .idle ∨ (s.cBurst = .opened (BitVec.ofNat 32 cn) (BitVec.ofNat 32 ci) ∧ cn < 2 ^ 32 ∧ ci < cn
      ∧ cn ≤ g.Hc - g.T))
    ∧ ∀ j < g.H - g.T, (s.slots.read ((g.T + j) % s.capacity.toNat)).isSome

/-- The checks give the invariant of a live ring. -/
theorem LiveInv.of_checks {g : Ghost} {s : State} {k pn pi cn ci : Nat} (h1 : liveCheckRegs g k s)
    (h2 : liveCheckSlots g s pn pi cn ci) : LiveInv g s := by
  obtain ⟨a1, a2, a3, a4, a5, a6, a7, a8, a9, a10, a11, a12, a13, a14, a15, a16, a17⟩ := h1
  obtain ⟨p, c, w⟩ := h2
  have hof : ∀ x, x < 2 ^ 32 → (BitVec.ofNat 32 x).toNat = x := fun x hx => by
    rw [BitVec.toNat_ofNat, Nat.mod_eq_of_lt hx]
  refine ⟨⟨k, a1⟩, a2, a3, a4, a5, a6, a7, a8, a9, a10, a11, a12, a13, a14, ⟨a15.1, a15.2.1, a15.2.2⟩,
    ⟨a16.1, a16.2.1, a16.2.2⟩, fun n i e => ?_, fun n i e => ?_, fun x x1 x2 => ?_, fun n i e j hj => ?_, a17⟩
  · rcases p with p | ⟨p, q1, q2, q3, _⟩ <;> rw [p] at e
    · cases e
    · cases e; rw [hof pn q1, hof pi (by omega)]; omega
  · rcases c with c | ⟨c, q1, q2, q3⟩ <;> rw [c] at e
    · cases e
    · cases e; rw [hof cn q1, hof ci (by omega)]; omega
  · have := w (x - g.T) (by omega)
    rwa [Nat.add_sub_cancel' x1] at this
  · rcases p with p | ⟨p, q1, q2, q3, q4⟩ <;> rw [p] at e
    · cases e
    · cases e; rw [hof pi (by omega)] at hj; exact q4 j hj

/-- The checks give the whole invariant of a live ring. -/
theorem Inv.of_checks {g : Ghost} {s : State} {k pn pi cn ci : Nat} (hl : s.live = true)
    (h : s.build.wf = true ∧ s.slots.wf ∧ ∀ x ∈ s.slots, x.1 < s.build.maxCapacity) (h1 : liveCheckRegs g k s)
    (h2 : liveCheckSlots g s pn pi cn ci) : Inv s :=
  ⟨h.1, h.2.1, h.2.2, fun _ => ⟨g, LiveInv.of_checks h1 h2⟩, fun e => by rw [hl] at e; cases e⟩

/-! ### The views in logical indices -/

/-- The P count is `H − T_p`. -/
theorem LiveInv.pView {g : Ghost} {s : State} (hb : s.build.wf = true) (h : LiveInv g s) :
    (countOf s.build s.mask (viewOf .producer s)).toNat = g.H - g.Tp := by
  have := h.capMin
  have h1 := h.chainT; have h2 := h.chainHc; have h3 := h.chainH; have h4 := h.chainCap
  have e : viewOf .producer s = ⟨idxOf s.build g.H, idxOf s.build g.Tp⟩ := by simp [viewOf, h.headEq, h.tailPEq]
  rw [e, h.countOf_idxOf hb (by omega) (by omega)]

/-- The C count is `H_c − T`. -/
theorem LiveInv.cView {g : Ghost} {s : State} (hb : s.build.wf = true) (h : LiveInv g s) :
    (countOf s.build s.mask (viewOf .consumer s)).toNat = g.Hc - g.T := by
  have := h.capMin
  have h1 := h.chainT; have h2 := h.chainHc; have h3 := h.chainH; have h4 := h.chainCap
  have e : viewOf .consumer s = ⟨idxOf s.build g.Hc, idxOf s.build g.T⟩ := by simp [viewOf, h.headCEq, h.tailEq]
  rw [e, h.countOf_idxOf hb (by omega) (by omega)]

/-- The true occupancy is `H − T` (R36 I2). -/
theorem LiveInv.occupancy {g : Ghost} {s : State} (hb : s.build.wf = true) (h : LiveInv g s) :
    (occupancy s).toNat = g.H - g.T := by
  have := h.capMin
  have h1 := h.chainT; have h2 := h.chainHc; have h3 := h.chainH; have h4 := h.chainCap
  rw [Machine.occupancy, h.headEq, h.tailEq]
  exact h.countOf_idxOf hb (by omega) (by omega)

theorem LiveInv.mask_toNat {g : Ghost} {s : State} (h : LiveInv g s) : s.mask.toNat = s.capacity.toNat - 1 := by
  have := h.capMin
  rw [h.maskEq, Machine.mask_toNat _ (by omega)]

theorem LiveInv.full_iff {g : Ghost} {s : State} (hb : s.build.wf = true) (h : LiveInv g s) :
    isFullView s.build s.mask (viewOf .producer s) = true ↔ g.H - g.Tp = s.capacity.toNat - 1 := by
  rw [← h.pView hb, ← h.mask_toNat, isFullView, beq_iff_eq]
  exact ⟨fun e => congrArg _ e, fun e => BitVec.eq_of_toNat_eq e⟩

/-- A view's SPACE is what its COUNT leaves of `capacity − 1` (R147 v). -/
theorem LiveInv.space_toNat {g : Ghost} {s : State} (h : LiveInv g s) {v : View}
    (hv : (countOf s.build s.mask v).toNat ≤ s.capacity.toNat - 1) :
    (spaceOf s.build s.capacity s.mask v).toNat = s.capacity.toNat - 1 - (countOf s.build s.mask v).toNat := by
  have := h.capMin
  have := s.capacity.isLt
  rw [spaceOf, BitVec.toNat_sub, BitVec.toNat_sub, one_toNat]
  omega

/-- The P space is `capacity − 1 − (H − T_p)`. -/
theorem LiveInv.pSpace {g : Ghost} {s : State} (hb : s.build.wf = true) (h : LiveInv g s) :
    (spaceOf s.build s.capacity s.mask (viewOf .producer s)).toNat = s.capacity.toNat - 1 - (g.H - g.Tp) := by
  have h4 := h.chainCap
  rw [h.space_toNat (by rw [h.pView hb]; omega), h.pView hb]

theorem LiveInv.empty_iff {g : Ghost} {s : State} (hb : s.build.wf = true) (h : LiveInv g s) : s.headC = s.tail ↔ g.Hc = g.T := by
  have := h.capMin
  have h1 := h.chainT; have h2 := h.chainHc; have h3 := h.chainH; have h4 := h.chainCap
  rw [h.headCEq, h.tailEq]
  exact h.idxOf_inj hb (by omega) (by omega)

/-! ### The slots in logical indices -/

theorem LiveInv.slot_lt {g : Ghost} {s : State} (h : LiveInv g s) (x : Nat) : x % s.capacity.toNat < s.build.maxCapacity :=
  lt_of_lt_of_le (Nat.mod_lt _ (by have := h.capMin; omega)) h.capMax

theorem LiveInv.enqSlot {g : Ghost} {s : State} (hb : s.build.wf = true) (h : LiveInv g s) :
    enqSlot s = g.H % s.capacity.toNat := by
  rw [Machine.enqSlot, h.headEq, h.slotOf_idxOf hb]

theorem LiveInv.deqSlot {g : Ghost} {s : State} (hb : s.build.wf = true) (h : LiveInv g s) :
    deqSlot s = g.T % s.capacity.toNat := by
  rw [Machine.deqSlot, h.tailEq, h.slotOf_idxOf hb]

theorem LiveInv.enqdSlot {g : Ghost} {s : State} (hb : s.build.wf = true) (h : LiveInv g s) (i : Word) :
    enqdSlot i s = (g.H + i.toNat) % s.capacity.toNat := by
  rw [Machine.enqdSlot, h.headEq, idxAdd_idxOf (wf_facts hb).2.2.2, h.slotOf_idxOf hb]

theorem LiveInv.deqdSlot {g : Ghost} {s : State} (hb : s.build.wf = true) (h : LiveInv g s) (i : Word) :
    deqdSlot i s = (g.T + i.toNat) % s.capacity.toNat := by
  rw [Machine.deqdSlot, h.tailEq, idxAdd_idxOf (wf_facts hb).2.2.2, h.slotOf_idxOf hb]

/-- The slot `j` places after a register. -/
theorem LiveInv.slot_after {g : Ghost} {s : State} (hb : s.build.wf = true) (h : LiveInv g s) {x j : Nat} (hj : j < 2 ^ 32) :
    slotOf s.mask (idxAdd s.build (idxOf s.build x) (BitVec.ofNat 32 j)) = (x + j) % s.capacity.toNat := by
  rw [idxAdd_idxOf (wf_facts hb).2.2.2, BitVec.toNat_ofNat, Nat.mod_eq_of_lt hj, h.slotOf_idxOf hb]

/-- Two logical indices less than a capacity apart are in different slots (R36 I6). -/
theorem mod_ne_of_lt {c x y : Nat} (hxy : x < y) (hlt : y - x < c) : y % c ≠ x % c := by
  intro he
  have hd : c ∣ y - x := (Nat.modEq_iff_dvd' hxy.le).mp he.symm
  have := Nat.le_of_dvd (by omega) hd
  omega

end Sys2Proof.Machine
end

