-- ==== Sys2Proof/Laws/PerInstr.lean ====
section
/-! SUPPORT. Statements made for all instructions, one lemma per constructor. -/

namespace Sys2Proof.Laws.HeaderFields

open Sys2Proof

/-- R105, R108: the header of a command holds its opcode in bits 35:32 and its `arg` in bits 31:0; bit 3 of the opcode is 0
exactly for the commands legal on both ports. -/
def Statement (i : Instr) : Prop :=
  headerOp (encode i) = i.opcode ∧ headerArg (encode i) = i.arg
    ∧ i.opcode.getLsbD 3 = !(i.legalOn .producer && i.legalOn .consumer)

theorem isEmpty (arg : Word) : Statement (.isEmpty arg) := ⟨headerOp_encode _, headerArg_encode _, by simp [Instr.opcode, Instr.legalOn]⟩
theorem isFull (arg : Word) : Statement (.isFull arg) := ⟨headerOp_encode _, headerArg_encode _, by simp [Instr.opcode, Instr.legalOn]⟩
theorem space (arg : Word) : Statement (.space arg) := ⟨headerOp_encode _, headerArg_encode _, by simp [Instr.opcode, Instr.legalOn]⟩
theorem count (arg : Word) : Statement (.count arg) := ⟨headerOp_encode _, headerArg_encode _, by simp [Instr.opcode, Instr.legalOn]⟩
theorem enq (arg : Word) : Statement (.enq arg) := ⟨headerOp_encode _, headerArg_encode _, by simp [Instr.opcode, Instr.legalOn]⟩
theorem enqb (len : Word) : Statement (.enqb len) := ⟨headerOp_encode _, headerArg_encode _, by simp [Instr.opcode, Instr.legalOn]⟩
theorem enqd (arg : Word) : Statement (.enqd arg) := ⟨headerOp_encode _, headerArg_encode _, by simp [Instr.opcode, Instr.legalOn]⟩
theorem deq (arg : Word) : Statement (.deq arg) := ⟨headerOp_encode _, headerArg_encode _, by simp [Instr.opcode, Instr.legalOn]⟩
theorem peek (arg : Word) : Statement (.peek arg) := ⟨headerOp_encode _, headerArg_encode _, by simp [Instr.opcode, Instr.legalOn]⟩
theorem deqb (req : Word) : Statement (.deqb req) := ⟨headerOp_encode _, headerArg_encode _, by simp [Instr.opcode, Instr.legalOn]⟩
theorem deqd (arg : Word) : Statement (.deqd arg) := ⟨headerOp_encode _, headerArg_encode _, by simp [Instr.opcode, Instr.legalOn]⟩

end Sys2Proof.Laws.HeaderFields
end

