-- ==== Sys2Proof/Laws/Step.lean ====
section
/-! SUPPORT. What a step can do, said once. -/

namespace Sys2Proof.Machine

open Sys2Proof

/-- The state in which P's accepted command is executed. -/
def acceptedP (s : State) (ts : List Turn) (c : PCmd) (rest : List PCmd) : State :=
  { s with turns := ts, pIn := rest, port := .producer, descIn := unpackDescriptor s.build c.desc }

/-- The state in which C's accepted command is executed. -/
def acceptedC (s : State) (ts : List Turn) (rest : List Header) : State :=
  { s with turns := ts, cIn := rest, port := .consumer }

/-- Every way a step ends, guards included, with its outcome. -/
inductive StepKind (s : State) : Result → Prop
  | idle (h : s.turns = []) : StepKind s (.next s)
  | passP (ts : List Turn) (h : s.turns = .p :: ts) (hn : s.live = false ∨ s.pIn = []) :
      StepKind s (.next { s with turns := ts })
  | reservedP (ts : List Turn) (c : PCmd) (rest : List PCmd) (e : DecodeError) (h : s.turns = .p :: ts)
      (hl : s.live = true) (hi : s.pIn = c :: rest) (hd : decode c.hdr = .error e) :
      StepKind s (.next (fail .badCmd (acceptedP s ts c rest)))
  | commandP (ts : List Turn) (c : PCmd) (rest : List PCmd) (i : Instr) (h : s.turns = .p :: ts)
      (hl : s.live = true) (hi : s.pIn = c :: rest) (hd : decode c.hdr = .ok i) :
      StepKind s (exec i (acceptedP s ts c rest))
  | passC (ts : List Turn) (h : s.turns = .c :: ts) (hn : s.live = false ∨ s.cIn = []) :
      StepKind s (.next { s with turns := ts })
  | reservedC (ts : List Turn) (w : Header) (rest : List Header) (e : DecodeError) (h : s.turns = .c :: ts)
      (hl : s.live = true) (hi : s.cIn = w :: rest) (hd : decode w = .error e) :
      StepKind s (.next (fail .badCmd (acceptedC s ts rest)))
  | commandC (ts : List Turn) (w : Header) (rest : List Header) (i : Instr) (h : s.turns = .c :: ts)
      (hl : s.live = true) (hi : s.cIn = w :: rest) (hd : decode w = .ok i) :
      StepKind s (exec i (acceptedC s ts rest))
  | sh (k : Nat) (ts : List Turn) (h : s.turns = .sh k :: ts) : StepKind s (.next (deliverHead k { s with turns := ts }))
  | st (k : Nat) (ts : List Turn) (h : s.turns = .st k :: ts) : StepKind s (.next (deliverTail k { s with turns := ts }))
  | construct (cap : Word) (ts : List Turn) (h : s.turns = .construct cap :: ts) :
      StepKind s (.next (hostConstruct cap { s with turns := ts }))
  | resetRing (ts : List Turn) (h : s.turns = .resetRing :: ts) : StepKind s (.next (hostReset { s with turns := ts }))

/-- Every step is one of `StepKind`'s. -/
theorem step_kind (s : State) : StepKind s (step s) := by
  rcases hts : s.turns with _ | ⟨x, ts⟩
  · simp only [step, takeTurn, hts]; exact .idle hts
  · cases x with
    | p =>
      by_cases hn : s.live = false ∨ s.pIn = []
      · have e : step s = .next { s with turns := ts } := by
          rcases hn with hn | hn <;> simp [step, takeTurn, hts, acceptProducer, hn]
        exact e ▸ .passP ts hts hn
      · push Not at hn
        obtain ⟨hl, hp⟩ := hn
        replace hl : s.live = true := by simpa using hl
        obtain ⟨c, rest, hi⟩ := List.exists_cons_of_ne_nil hp
        rcases hd : decode c.hdr with e | i
        · have e' : step s = .next (fail .badCmd (acceptedP s ts c rest)) := by
            simp [step, takeTurn, hts, acceptProducer, acceptedP, hl, hi, hd]
          exact e' ▸ .reservedP ts c rest e hts hl hi hd
        · have e' : step s = exec i (acceptedP s ts c rest) := by
            simp [step, takeTurn, hts, acceptProducer, acceptedP, hl, hi, hd]
          exact e' ▸ .commandP ts c rest i hts hl hi hd
    | c =>
      by_cases hn : s.live = false ∨ s.cIn = []
      · have e : step s = .next { s with turns := ts } := by
          rcases hn with hn | hn <;> simp [step, takeTurn, hts, acceptConsumer, hn]
        exact e ▸ .passC ts hts hn
      · push Not at hn
        obtain ⟨hl, hp⟩ := hn
        replace hl : s.live = true := by simpa using hl
        obtain ⟨w, rest, hi⟩ := List.exists_cons_of_ne_nil hp
        rcases hd : decode w with e | i
        · have e' : step s = .next (fail .badCmd (acceptedC s ts rest)) := by
            simp [step, takeTurn, hts, acceptConsumer, acceptedC, hl, hi, hd]
          exact e' ▸ .reservedC ts w rest e hts hl hi hd
        · have e' : step s = exec i (acceptedC s ts rest) := by
            simp [step, takeTurn, hts, acceptConsumer, acceptedC, hl, hi, hd]
          exact e' ▸ .commandC ts w rest i hts hl hi hd
    | sh k => simp only [step, takeTurn, hts]; exact .sh k ts hts
    | st k => simp only [step, takeTurn, hts]; exact .st k ts hts
    | construct cap => simp only [step, takeTurn, hts]; exact .construct cap ts hts
    | resetRing => simp only [step, takeTurn, hts]; exact .resetRing ts hts

/-- The same for a step that answers a next state. -/
theorem step_kind_next {s t : State} (h : step s = .next t) : StepKind s (.next t) := h ▸ step_kind s

end Sys2Proof.Machine
end

