-- ==== Sys2Proof/Tests/Slice0.lean ====
section
/-! SUPPORT. Tests: ill-formed terms are refused, header words of the spec decode, single steps against the vectors of
95_test_vectors.md (the row each expected result is taken from is named), and a witness for every statement with hypotheses. -/

namespace Sys2Proof.Tests

open Sys2Proof Sys2Proof.Machine

/-! ### Helpers -/

/-- Descriptor A of 95_test_vectors.md section 0. -/
def dA : Descriptor := ⟨0xA0, 0x1000, 64, 0x0001, 100⟩
/-- Descriptor B. -/
def dB : Descriptor := ⟨0xB0, 0x2000, 128, 0x0000, 101⟩
/-- Descriptor C. -/
def dC : Descriptor := ⟨0xC0, 0x3000, 1500, 0x0001, 102⟩
/-- Descriptor D. -/
def dD : Descriptor := ⟨0xD0, 0x4000, 60, 0x0000, 103⟩
/-- Descriptor E. -/
def dE : Descriptor := ⟨0xE0, 0x5000, 256, 0x0000, 104⟩
/-- Descriptor H. -/
def dH : Descriptor := ⟨0x110, 0x8000, 9000, 0x0003, 107⟩

/-- A live ring with these indices and slots; nothing in flight, bursts idle. -/
def ring (cap head tail headC tailP : Nat) (slots : Memory) : State :=
  { State.reset with
    capacity := BitVec.ofNat 32 cap, mask := BitVec.ofNat 32 (cap - 1), live := true, slots := slots
    head := BitVec.ofNat 32 head, tail := BitVec.ofNat 32 tail
    headC := BitVec.ofNat 32 headC, tailP := BitVec.ofNat 32 tailP }

/-- The next state of an outcome. -/
def nextOf : Result → Option State
  | .next t => some t
  | .fault _ => none
  | .refused _ => none

/-- The producer gives this command and takes its turn. -/
def onP (i : Instr) (d : Descriptor) (s : State) : Option State := nextOf (step ((Stmt.p i d).give s))

/-- The consumer gives this command and takes its turn. -/
def onC (i : Instr) (s : State) : Option State := nextOf (step ((Stmt.c i).give s))

/-- What a port answers, with its index, its flight list, its burst and the slots after. -/
structure Answer where
  rsp : List Response
  idx : Idx
  flight : List Idx
  burst : Burst
  slots : Memory
deriving DecidableEq, Repr

/-- The producer's answer. -/
def answerP (o : Option State) : Option Answer := o.map fun t => ⟨t.pOut, t.head, t.hFlight, t.pBurst, t.slots⟩

/-- The consumer's answer. -/
def answerC (o : Option State) : Option Answer := o.map fun t => ⟨t.cOut, t.tail, t.tFlight, t.cBurst, t.slots⟩

/-! ### Ill-formed terms are refused (R5, R106, R109) -/

theorem test_vector_build_is_wellformed : Config.vectorBuild.wf = true := by decide
theorem test_capacity_not_power_of_two_refused : Params.wf ⟨100, 32, 64, 64, 2⟩ = false := by decide
theorem test_capacity_one_refused : Params.wf ⟨1, 32, 64, 64, 2⟩ = false := by decide
theorem test_capacity_above_two_to_31_refused : Params.wf ⟨2 ^ 32, 32, 64, 64, 2⟩ = false := by decide
theorem test_capacity_two_to_31_accepted : Params.wf ⟨2 ^ 31, 31, 1, 1, 2⟩ = true := by decide
theorem test_index_narrower_than_capacity_refused : Params.wf ⟨256, 7, 64, 64, 2⟩ = false := by decide
theorem test_index_wider_than_32_refused : Params.wf ⟨256, 33, 64, 64, 2⟩ = false := by decide
theorem test_ref_width_zero_refused : Params.wf ⟨256, 32, 0, 64, 2⟩ = false := by decide
theorem test_pa_width_zero_refused : Params.wf ⟨256, 32, 64, 0, 2⟩ = false := by decide
theorem test_one_sync_stage_refused : Params.wf ⟨256, 32, 64, 64, 1⟩ = false := by decide
theorem test_data_ref_too_wide_refused : Descriptor.wf Config.vectorBuild { dA with dataRef := 2 ^ 64 } = false := by decide
theorem test_phys_addr_too_wide_refused : Descriptor.wf Config.vectorBuild { dA with physAddr := 2 ^ 64 } = false := by decide
theorem test_producer_commands_refused_on_consumer :
    [Instr.enq 0, .enqb 0, .enqd 0].all (fun i => i.legalOn .producer && !i.legalOn .consumer) = true := by decide
theorem test_consumer_commands_refused_on_producer :
    [Instr.deq 0, .peek 0, .deqb 0, .deqd 0].all (fun i => i.legalOn .consumer && !i.legalOn .producer) = true := by decide

/-! ### Words of the spec decode (section 0, V8; R105, R108, R111) -/

theorem test_decode_is_empty : decode 0x100000000#36 = .ok (.isEmpty 0) := by decide
theorem test_decode_is_full : decode 0x200000000#36 = .ok (.isFull 0) := by decide
theorem test_decode_space : decode 0x300000000#36 = .ok (.space 0) := by decide
theorem test_decode_count : decode 0x400000000#36 = .ok (.count 0) := by decide
theorem test_decode_enq : decode 0x800000000#36 = .ok (.enq 0) := by decide
theorem test_decode_enqb_10 : decode 0x90000000A#36 = .ok (.enqb 10) := by decide
theorem test_decode_enqd : decode 0xA00000000#36 = .ok (.enqd 0) := by decide
theorem test_decode_deq : decode 0xC00000000#36 = .ok (.deq 0) := by decide
theorem test_decode_peek : decode 0xD00000000#36 = .ok (.peek 0) := by decide
theorem test_decode_deqb_100 : decode 0xE00000064#36 = .ok (.deqb 100) := by decide
theorem test_decode_deqd : decode 0xF00000000#36 = .ok (.deqd 0) := by decide
/-- `op` 1001, then 32 bits of `arg` with bits 31, 3 and 1 set (R105). -/
theorem test_decode_bit_by_bit : decode 0b100110000000000000000000000000001010#36 = .ok (.enqb 0x8000000A) := by decide
theorem test_decode_reserved : [0x0#36, 0x500000000, 0x600000000, 0x700000000, 0xB00000000].all
    (fun h => match decode h with | .ok _ => false | .error (.reservedOpcode op) => op == headerOp h) = true := by decide

/-- The packed values of section 0, rows A, C and H. -/
theorem test_packed_descriptors :
    packDescriptor Config.vectorBuild dA = 0x000000000000006400010040000000000000100000000000000000A0
    ∧ packDescriptor Config.vectorBuild dC = 0x0000000000000066000105DC000000000000300000000000000000C0
    ∧ packDescriptor Config.vectorBuild dH = 0x000000000000006B0003232800000000000080000000000000000110 := by decide
theorem test_unpacked_descriptor :
    unpackDescriptor Config.vectorBuild 0x00000000000000670000003C000000000000400000000000000000D0 = dD := by decide

theorem test_table_word_decodes : decodeTableWord 40 0xE00000004 = some (.deqb 4) ∧ decodeTableWord 40 0xB00000000 = none
    ∧ decodeTableWord 40 0x1E00000004 = none := by decide

/-- A table word is the first command after reset: its step answers on its port (log 16). -/
theorem test_fetch_words_run :
    [0x100000000, 0x200000000, 0x300000000, 0x400000000, 0x800000000, 0x900000001, 0xA00000000].all (fun w =>
      ((nextOf (step (State.reset.withFetchWord 40 w))).map fun t => t.pOut.length) == some 1) = true
    ∧ [0xC00000000, 0xD00000000, 0xE00000001, 0xF00000000].all (fun w =>
      ((nextOf (step (State.reset.withFetchWord 40 w))).map fun t => t.cOut.length) == some 1) = true := by decide

/-- The status codes of R200. -/
theorem test_status_codes : [Status.ok, .ringFull, .ringEmpty, .invalidCapacity, .allocFail, .badCmd].map statusCode
    = [0, 1, 2, 3, 4, 7] := by decide

/-- Statements as lines, each in the form R114 gives it; the last in the form of 95_test_vectors.md P5 step 9. -/
theorem test_statement_text :
    [Stmt.construct 4, .reset, .shDeliver none, .stDeliver (some 2), .c (.deqb 100), .p (.enqb 10) Descriptor.zero,
      .c (.isEmpty 0), .c (.enq 0)].map Stmt.text
    = ["HOST: CONSTRUCT 4", "HOST: RESET", "SH: DELIVER", "ST: DELIVER 2", "C: DEQB 100", "P: ENQB 10", "C: IS_EMPTY", "C: ENQ"] := by
  decide

/-! ### V1 and V8: the queries -/

/-- V1: rows 1, 3, 4, 8, 11, 13, 14 and 16 as (capacity, hd, tl, COUNT, SPACE, IS_EMPTY, IS_FULL), in both views. -/
theorem test_v1_flags : [(4, 0, 0, 0, 3, true, false), (4, 3, 0, 3, 0, false, true), (4, 4, 1, 3, 0, false, true),
    (2, 1, 0, 1, 0, false, true), (256, 300, 45, 255, 0, false, true), (4, 0x00000001, 0xFFFFFFFE, 3, 0, false, true),
    (4, 0x00000000, 0xFFFFFFFF, 1, 2, false, false), (8, 12, 5, 7, 0, false, true)].all
      (fun (cap, hd, tl, cnt, spc, em, fu) =>
        flagOutputs .producer (ring cap hd 0 0 tl []) == ⟨em, fu, BitVec.ofNat 32 cnt, BitVec.ofNat 32 spc⟩
        && flagOutputs .consumer (ring cap 0 tl hd 0 []) == ⟨em, fu, BitVec.ofNat 32 cnt, BitVec.ofNat 32 spc⟩) = true := by
  decide

/-- V1, last paragraph but one: `IDX_W = 2`, `hd = 1`, `tl = 2`. -/
theorem test_v1_narrow_index : flagOutputs .producer
    { ring 4 1 0 0 2 [] with build := { Config.vectorBuild with maxCapacity := 4, idxW := 2 } } = ⟨false, true, 3, 0⟩ := by
  decide

/-- V1, last line: the flags with `live = 0`. -/
theorem test_v1_flags_without_ring : flagOutputs .producer State.reset = ⟨true, true, 0, 0⟩
    ∧ flagOutputs .consumer State.reset = ⟨true, true, 0, 0⟩ := by decide

/-- V8: IS_EMPTY with non-zero `arg` on either port. -/
theorem test_v8_is_empty_ignores_arg :
    answerP (onP (.isEmpty 0xFFFFFFFF) dA (ring 4 0 0 0 0 [])) = some ⟨[⟨.ok, 1, none⟩], 0, [], .idle, []⟩
    ∧ answerC (onC (.isEmpty 0xFFFFFFFF) (ring 4 0 0 0 0 [])) = some ⟨[⟨.ok, 1, none⟩], 0, [], .idle, []⟩ := by decide

/-- P1 row 4. -/
theorem test_p1_is_full : answerP (onP (.isFull 0) dA (ring 4 3 0 0 0 [])) = some ⟨[⟨.ok, 1, none⟩], 3, [], .idle, []⟩ := by
  decide

/-- P2 row 22. -/
theorem test_p2_space : answerP (onP (.space 0) dA (ring 8 12 9 12 9 [])) = some ⟨[⟨.ok, 4, none⟩], 12, [], .idle, []⟩ := by
  decide

/-- P2 row 18; V8: COUNT with a burst open counts from the unmoved `head`. -/
theorem test_p2_count : answerC (onC (.count 0) (ring 8 12 5 12 5 [])) = some ⟨[⟨.ok, 7, none⟩], 5, [], .idle, []⟩
    ∧ answerP (onP (.count 0) dA { ring 8 5 5 5 5 [] with pBurst := .opened 7 6 })
      = some ⟨[⟨.ok, 0, none⟩], 5, [], .opened 7 6, []⟩ := by decide

/-! ### V2: ENQ -/

/-- V2 rows 4 and 6: `head` 3, `tail_p` 1; the index wraps at `2^32`. -/
theorem test_v2_enq_writes :
    answerP (onP (.enq 0) dD (ring 4 3 1 3 1 [(0, dA), (1, dB), (2, dC)]))
      = some ⟨[⟨.ok, 0, none⟩], 4, [4], .idle, [(0, dA), (1, dB), (2, dC), (3, dD)]⟩
    ∧ answerP (onP (.enq 0) dB (ring 4 0xFFFFFFFF 0 0 0xFFFFFFFE []))
      = some ⟨[⟨.ok, 0, none⟩], 0, [0], .idle, [(3, dB)]⟩ := by decide

/-- V2 rows 3 and 7: full, and a burst open. -/
theorem test_v2_enq_fails : answerP (onP (.enq 0) dD (ring 4 3 0 0 0 [])) = some ⟨[⟨.ringFull, 0, none⟩], 3, [], .idle, []⟩
    ∧ answerP (onP (.enq 0) dA { ring 4 1 0 0 0 [] with pBurst := .opened 2 0 })
      = some ⟨[⟨.badCmd, 0, none⟩], 1, [], .opened 2 0, []⟩ := by decide

/-! ### V3: ENQB and ENQD -/

/-- V3 rows 1, 4, 5 and 6. -/
theorem test_v3_enqb_grants :
    answerP (onP (.enqb 10) dA (ring 8 5 5 5 5 [])) = some ⟨[⟨.ok, 7, none⟩], 5, [], .opened 7 0, []⟩
    ∧ answerP (onP (.enqb 0) dA (ring 8 5 5 5 5 [])) = some ⟨[⟨.ok, 0, none⟩], 5, [], .idle, []⟩
    ∧ answerP (onP (.enqb 5) dA (ring 8 12 5 5 5 [])) = some ⟨[⟨.ok, 0, none⟩], 12, [], .idle, []⟩
    ∧ answerP (onP (.enqb 0xFFFFFFFF) dA (ring 8 10 5 5 5 [])) = some ⟨[⟨.ok, 2, none⟩], 10, [], .opened 2 0, []⟩ := by decide

/-- V3 row 8. -/
theorem test_v3_enqb_in_burst : answerP (onP (.enqb 1) dA { ring 4 0 0 0 0 [] with pBurst := .opened 2 0 })
    = some ⟨[⟨.badCmd, 0, none⟩], 0, [], .opened 2 0, []⟩ := by decide

/-- V3, text: beats 1 and 4 of `open(7, i)` at `head = 5` write slots 5 and 0, answer 6 and 3, and leave `head`. -/
theorem test_v3_enqd_beats : answerP (onP (.enqd 0) dA { ring 8 5 5 5 5 [] with pBurst := .opened 7 0 })
      = some ⟨[⟨.ok, 6, none⟩], 5, [], .opened 7 1, [(5, dA)]⟩
    ∧ answerP (onP (.enqd 0) dD { ring 8 5 5 5 5 [] with pBurst := .opened 7 3 })
      = some ⟨[⟨.ok, 3, none⟩], 5, [], .opened 7 4, [(0, dD)]⟩ := by decide

/-- V3, text: the last beat commits, also where `head + n` wraps; with no burst ENQD is illegal. -/
theorem test_v3_enqd_commits : answerP (onP (.enqd 0) dA { ring 8 5 5 5 5 [] with pBurst := .opened 7 6 })
      = some ⟨[⟨.ok, 0, none⟩], 12, [12], .idle, [(3, dA)]⟩
    ∧ answerP (onP (.enqd 0) dA { ring 4 0xFFFFFFFE 0 0 0xFFFFFFFE [] with pBurst := .opened 3 2 })
      = some ⟨[⟨.ok, 0, none⟩], 1, [1], .idle, [(0, dA)]⟩
    ∧ answerP (onP (.enqd 0) dA (ring 4 0 0 0 0 [])) = some ⟨[⟨.badCmd, 0, none⟩], 0, [], .idle, []⟩ := by decide

/-! ### V4: DEQ and PEEK -/

/-- V4 rows 4, 5 and 7: the slot keeps its content. -/
theorem test_v4_deq_returns : answerC (onC (.deq 0) (ring 4 3 0 3 0 [(0, dA), (1, dB), (2, dC)]))
      = some ⟨[⟨.ok, 0, some dA⟩], 1, [1], .idle, [(0, dA), (1, dB), (2, dC)]⟩
    ∧ answerC (onC (.deq 0) (ring 4 4 3 4 3 [(0, dA), (1, dB), (2, dC), (3, dD)]))
      = some ⟨[⟨.ok, 0, some dD⟩], 4, [4], .idle, [(0, dA), (1, dB), (2, dC), (3, dD)]⟩
    ∧ answerC (onC (.deq 0) (ring 4 0 0xFFFFFFFF 0 0xFFFFFFFF [(3, dB)]))
      = some ⟨[⟨.ok, 0, some dB⟩], 0, [0], .idle, [(3, dB)]⟩ := by decide

/-- V4 rows 1 and 8. -/
theorem test_v4_deq_fails : answerC (onC (.deq 0) (ring 4 0 0 0 0 [])) = some ⟨[⟨.ringEmpty, 0, none⟩], 0, [], .idle, []⟩
    ∧ answerC (onC (.deq 0) { ring 4 3 1 3 1 [] with cBurst := .opened 2 0 })
      = some ⟨[⟨.badCmd, 0, none⟩], 1, [], .opened 2 0, []⟩ := by decide

/-- V4 row 3: nothing moves. -/
theorem test_v4_peek_returns : answerC (onC (.peek 0) (ring 4 3 0 3 0 [(0, dA), (1, dB), (2, dC)]))
    = some ⟨[⟨.ok, 0, some dA⟩], 0, [], .idle, [(0, dA), (1, dB), (2, dC)]⟩ := by decide

/-- V4 rows 2 and 9. -/
theorem test_v4_peek_fails : answerC (onC (.peek 0) (ring 4 0 0 0 0 [])) = some ⟨[⟨.ringEmpty, 0, none⟩], 0, [], .idle, []⟩
    ∧ answerC (onC (.peek 0) { ring 4 3 1 3 1 [] with cBurst := .opened 2 0 })
      = some ⟨[⟨.badCmd, 0, none⟩], 1, [], .opened 2 0, []⟩ := by decide

/-! ### V5: DEQB and DEQD -/

/-- V5 rows 1, 2 and 3. -/
theorem test_v5_deqb_grants :
    answerC (onC (.deqb 4) (ring 8 12 5 12 5 [])) = some ⟨[⟨.ok, 4, none⟩], 5, [], .opened 4 0, []⟩
    ∧ answerC (onC (.deqb 100) (ring 8 12 5 12 5 [])) = some ⟨[⟨.ok, 7, none⟩], 5, [], .opened 7 0, []⟩
    ∧ answerC (onC (.deqb 0) (ring 8 12 5 12 5 [])) = some ⟨[⟨.ok, 0, none⟩], 5, [], .idle, []⟩ := by decide

/-- V5 rows 4 and 5. -/
theorem test_v5_deqb_empty_or_in_burst :
    answerC (onC (.deqb 1) (ring 8 12 12 12 12 [])) = some ⟨[⟨.ok, 0, none⟩], 12, [], .idle, []⟩
    ∧ answerC (onC (.deqb 1) { ring 8 12 9 12 9 [] with cBurst := .opened 3 1 })
      = some ⟨[⟨.badCmd, 0, none⟩], 9, [], .opened 3 1, []⟩ := by decide

/-- V5, text: beats 1 and 3 of `open(4, i)` at `tail = 5`. -/
theorem test_v5_deqd_beats :
    answerC (onC (.deqd 0) { ring 8 12 5 12 5 [(0, dD), (5, dA), (6, dB), (7, dC)] with cBurst := .opened 4 0 })
      = some ⟨[⟨.ok, 3, some dA⟩], 5, [], .opened 4 1, [(0, dD), (5, dA), (6, dB), (7, dC)]⟩
    ∧ answerC (onC (.deqd 0) { ring 8 12 5 12 5 [(0, dD), (5, dA), (6, dB), (7, dC)] with cBurst := .opened 4 2 })
      = some ⟨[⟨.ok, 1, some dC⟩], 5, [], .opened 4 3, [(0, dD), (5, dA), (6, dB), (7, dC)]⟩ := by decide

/-- V5, text: beat 4 reads slot 0 and commits; with no burst DEQD is illegal. -/
theorem test_v5_deqd_commits :
    answerC (onC (.deqd 0) { ring 8 12 5 12 5 [(0, dD), (5, dA), (6, dB), (7, dC)] with cBurst := .opened 4 3 })
      = some ⟨[⟨.ok, 0, some dD⟩], 9, [9], .idle, [(0, dD), (5, dA), (6, dB), (7, dC)]⟩
    ∧ answerC (onC (.deqd 0) (ring 8 12 5 12 5 [])) = some ⟨[⟨.badCmd, 0, none⟩], 5, [], .idle, []⟩ := by decide

/-! ### V6, V7, V8, P6: the synchronizers, construction, illegal commands, reset -/

/-- V6 rows 1, 2 and 4. -/
theorem test_v6_deliveries :
    (nextOf (step ((Stmt.shDeliver (some 1)).give { ring 4 2 0 0 0 [] with hFlight := [1, 2] }))).map
      (fun t => (t.headC, t.hFlight)) = some (1, [2])
    ∧ (nextOf (step ((Stmt.shDeliver none).give { ring 4 2 0 0 0 [] with hFlight := [1, 2] }))).map
      (fun t => (t.headC, t.hFlight)) = some (2, [])
    ∧ (nextOf (step ((Stmt.stDeliver (some 1)).give { ring 4 2 2 2 0 [] with tFlight := [1, 2] }))).map
      (fun t => (t.tailP, t.tFlight)) = some (1, [2]) := by decide

/-- V7: `MAX_CAPACITY = 256`, and row 512 with `MAX_CAPACITY = 1024`. -/
theorem test_v7_capacity_statuses : [(0, Status.invalidCapacity), (1, .invalidCapacity), (2, .ok), (3, .invalidCapacity), (4, .ok),
    (100, .invalidCapacity), (128, .ok), (255, .invalidCapacity), (256, .ok), (257, .invalidCapacity), (512, .allocFail),
    (0x00300000, .invalidCapacity), (0x80000000, .allocFail), (0xFFFFFFFF, .invalidCapacity)].all
      (fun (c, st) => capacityStatus Config.vectorBuild (BitVec.ofNat 32 c) == st) = true
    ∧ capacityStatus { Config.vectorBuild with maxCapacity := 1024 } 512 = .ok := by decide

/-- V7 row 256, P6: a ring, empty on both ports, `SPACE` 255. -/
theorem test_v7_construct : (nextOf (step ((Stmt.construct 256).give State.reset))).map
      (fun t => (t.live, t.cfgStatus, t.mask, flagOutputs .producer t, flagOutputs .consumer t))
    = some (true, .ok, 255, ⟨true, false, 0, 255⟩, ⟨true, false, 0, 255⟩) := by decide

/-- P6 line 1: no ring; C11: CONSTRUCT is not enabled again before RESET. -/
theorem test_p6_construct_fails : (nextOf (step ((Stmt.construct 100).give State.reset))).map (fun t => (t.live, t.cfgStatus))
      = some (false, .invalidCapacity)
    ∧ nextOf (step ((Stmt.construct 4).give { State.reset with cfgStatus := .invalidCapacity }))
      = some { State.reset with cfgStatus := .invalidCapacity } := by decide

/-- P6 line 5: `live = 0`; R244: the storage is left as it is. -/
theorem test_p6_reset : (nextOf (step (Stmt.reset.give (ring 4 1 0 0 0 [(0, dA)])))).map
      (fun t => (t.live, t.cfgStatus, t.head, t.slots)) = some (false, .ok, 0, [(0, dA)]) := by decide

/-- V8 rows 1 to 5: reserved and wrong-port headers on an idle ring; nothing else changes. -/
theorem test_v8_illegal :
    [0x0, 0x500000000, 0x600000000, 0x700000000, 0xB00000000, 0xC00000000, 0xD00000000, 0xE00000001, 0xF00000000,
      0xA00000000].all (fun h => nextOf (step { ring 4 0 0 0 0 [] with pIn := [⟨h, 0⟩], turns := [.p] })
        == some { ring 4 0 0 0 0 [] with pOut := [⟨.badCmd, 0, none⟩] }) = true
    ∧ [0x0, 0x500000000, 0x600000000, 0x700000000, 0xB00000000, 0x800000000, 0x900000001, 0xA00000000, 0xF00000000].all
      (fun h => nextOf (step { ring 4 0 0 0 0 [] with cIn := [h], turns := [.c] })
        == some { ring 4 0 0 0 0 [] with port := .consumer, cOut := [⟨.badCmd, 0, none⟩] }) = true := by decide

/-- U1, R28: a slot nothing has written faults by its number. -/
theorem test_unwritten_slot_faults : exec (.deq 0) { ring 4 1 0 1 0 [] with port := .consumer } = .fault (.slotNoValue 0) := by
  rfl

/-! ### Witnesses: concrete states that meet the hypotheses of the statements -/

/-- P3 after step 6, but for `head_c = 1` delivered: two items, one of them visible to C. -/
def wIdle : State := { ring 4 2 0 1 0 [(0, dA), (1, dB)] with hFlight := [2] }
/-- P1 after step 6: full in the P view. -/
def wFull : State := ring 4 3 0 3 0 [(0, dA), (1, dB), (2, dC)]
/-- A ring just constructed. -/
def wFresh : State := ring 4 0 0 0 0 []
/-- Both ports have a burst of two open, no beat done. -/
def wMid : State :=
  { ring 8 4 0 3 0 [(0, dA), (1, dB), (2, dC), (3, dD)] with hFlight := [4], pBurst := .opened 2 0, cBurst := .opened 2 0 }
/-- Both ports have a burst of two open, one beat done. -/
def wLast : State :=
  { ring 8 4 0 3 0 [(0, dA), (1, dB), (2, dC), (3, dD), (4, dE)] with
    hFlight := [4], pBurst := .opened 2 1, cBurst := .opened 2 1 }
/-- Two values of `tail` in flight. -/
def wTail : State := { ring 4 2 2 2 0 [(0, dA), (1, dB)] with tFlight := [1, 2] }
/-- The index registers about to wrap at `2^32`, one item pending. -/
def wWrap : State := ring 4 0xFFFFFFFF 0xFFFFFFFE 0xFFFFFFFF 0xFFFFFFFE [(2, dA)]
/-- `wIdle` in a build with `IDX_W = 8`. -/
def wNarrow : State := { wIdle with build := { Config.vectorBuild with idxW := 8 } }

theorem wIdle_inv : Inv wIdle :=
  .of_checks (g := ⟨2, 0, 1, 0, [2], []⟩) (k := 2) (pn := 0) (pi := 0) (cn := 0) (ci := 0) rfl (by decide) (by decide) (by decide)
theorem wFull_inv : Inv wFull :=
  .of_checks (g := ⟨3, 0, 3, 0, [], []⟩) (k := 2) (pn := 0) (pi := 0) (cn := 0) (ci := 0) rfl (by decide) (by decide) (by decide)
theorem wFresh_inv : Inv wFresh :=
  .of_checks (g := ⟨0, 0, 0, 0, [], []⟩) (k := 2) (pn := 0) (pi := 0) (cn := 0) (ci := 0) rfl (by decide) (by decide) (by decide)
theorem wMid_inv : Inv wMid :=
  .of_checks (g := ⟨4, 0, 3, 0, [4], []⟩) (k := 3) (pn := 2) (pi := 0) (cn := 2) (ci := 0) rfl (by decide) (by decide) (by decide)
theorem wLast_inv : Inv wLast :=
  .of_checks (g := ⟨4, 0, 3, 0, [4], []⟩) (k := 3) (pn := 2) (pi := 1) (cn := 2) (ci := 1) rfl (by decide) (by decide) (by decide)
theorem wTail_inv : Inv wTail :=
  .of_checks (g := ⟨2, 2, 2, 0, [], [1, 2]⟩) (k := 2) (pn := 0) (pi := 0) (cn := 0) (ci := 0) rfl (by decide) (by decide) (by decide)
theorem wWrap_inv : Inv wWrap :=
  .of_checks (g := ⟨2 ^ 32 - 1, 2 ^ 32 - 2, 2 ^ 32 - 1, 2 ^ 32 - 2, [], []⟩) (k := 2) (pn := 0) (pi := 0) (cn := 0) (ci := 0)
    rfl (by decide) (by decide) (by decide)
theorem wNarrow_inv : Inv wNarrow :=
  .of_checks (g := ⟨2, 0, 1, 0, [2], []⟩) (k := 2) (pn := 0) (pi := 0) (cn := 0) (ci := 0) rfl (by decide) (by decide) (by decide)

/-- HeadersDecodeByTheOpcodeMap, second part: one header of each class. -/
theorem witness_HeadersDecodeByTheOpcodeMap :
    (decode 0x400000007#36 = .ok (.count 7) ∧ (headerOp 0x400000007#36).getLsbD 3 = false)
    ∧ (decode 0x900000001#36 = .ok (.enqb 1) ∧ (headerOp 0x900000001#36).getLsbD 3 = true
      ∧ (headerOp 0x900000001#36).getLsbD 2 = false)
    ∧ (decode 0xF00000000#36 = .ok (.deqd 0) ∧ (headerOp 0xF00000000#36).getLsbD 3 = true
      ∧ (headerOp 0xF00000000#36).getLsbD 2 = true) := by decide

/-- OnlyReservedOpcodesAreRejected: both clauses. -/
theorem witness_OnlyReservedOpcodesAreRejected : headerOp 0xB00000000#36 ∈ [0x0#4, 0x5#4, 0x6#4, 0x7#4, 0xB#4]
    ∧ headerOp 0xA00000000#36 ∉ [0x0#4, 0x5#4, 0x6#4, 0x7#4, 0xB#4] := by decide

/-- DescriptorBitsFollowTheLayout: the all-ones word, and a descriptor whose fields are at their widest. -/
theorem witness_DescriptorBitsFollowTheLayout : 2 ^ 224 - 1 < 2 ^ Config.vectorBuild.descW
    ∧ Descriptor.wf Config.vectorBuild ⟨2 ^ 64 - 1, 2 ^ 64 - 1, 0xFFFF, 0xFFFF, 0xFFFFFFFFFFFFFFFF⟩ = true := by decide

/-- StepRunsTheDecodedCommand: both clauses. -/
theorem witness_StepRunsTheDecodedCommand :
    (let s := { wIdle with turns := [.p], pIn := [⟨0x800000000, 5⟩] }
     s.live = true ∧ s.turns = .p :: [] ∧ s.pIn = ⟨0x800000000, 5⟩ :: [] ∧ decode 0x800000000 = .ok (.enq 0))
    ∧ (let s := { wIdle with turns := [.c], cIn := [0xC00000000] }
       s.live = true ∧ s.turns = .c :: [] ∧ s.cIn = 0xC00000000 :: [] ∧ decode 0xC00000000 = .ok (.deq 0)) := by decide

/-- IllegalCommandAnswersBadCmd: both clauses (V8: ENQD with no burst; ENQ on C). -/
theorem witness_IllegalCommandAnswersBadCmd :
    (let s := { wIdle with turns := [.p], pIn := [⟨0xA00000000, 5⟩] }
     s.live = true ∧ s.turns = .p :: [] ∧ s.pIn = ⟨0xA00000000, 5⟩ :: []
       ∧ headerOp 0xA00000000 ∉ legalOpcodes .producer s.pBurst)
    ∧ (let s := { wMid with turns := [.c], cIn := [0x800000000] }
       s.live = true ∧ s.turns = .c :: [] ∧ s.cIn = 0x800000000 :: []
       ∧ headerOp 0x800000000 ∉ legalOpcodes .consumer s.cBurst) := by decide

/-- LegalCommandNeverAnswersBadCmd: both clauses, one of them a command that fails for another reason. -/
theorem witness_LegalCommandNeverAnswersBadCmd :
    (let s := { wFull with turns := [.p], pIn := [⟨0x800000000, 5⟩] }
     s.live = true ∧ (∃ t, step s = .next t) ∧ s.turns = .p :: [] ∧ s.pIn = ⟨0x800000000, 5⟩ :: []
       ∧ headerOp 0x800000000 ∈ legalOpcodes .producer s.pBurst)
    ∧ (let s := { wMid with turns := [.c], cIn := [0xF00000000] }
       s.live = true ∧ (∃ t, step s = .next t) ∧ s.turns = .c :: [] ∧ s.cIn = 0xF00000000 :: []
       ∧ headerOp 0xF00000000 ∈ legalOpcodes .consumer s.cBurst) :=
  ⟨⟨rfl, ⟨_, rfl⟩, rfl, rfl, by decide⟩, ⟨rfl, ⟨_, rfl⟩, rfl, rfl, by decide⟩⟩

/-- EveryCommandGetsOneResponse: a step that takes a command. -/
theorem witness_EveryCommandGetsOneResponse :
    ∃ t, step { wIdle with turns := [.p], pIn := [⟨0x800000000, 5⟩] } = .next t ∧ t.pIn = [] ∧ t.pOut.length = 1 :=
  ⟨_, rfl, rfl, by decide⟩

/-- StatusesComeOnlyFromTheirCommands and FailingCommandChangesNothing: RingFull and RingEmpty. -/
theorem witness_StatusesComeOnlyFromTheirCommands :
    (∃ t, exec (.enq 0) wFull = .next t ∧ t.pOut = wFull.pOut ++ [⟨.ringFull, 0, none⟩] ∧ Status.ringFull ≠ .ok)
    ∧ ∃ t, exec (.peek 0) { wFresh with port := .consumer } = .next t
      ∧ t.cOut = wFresh.cOut ++ [⟨.ringEmpty, 0, none⟩] ∧ Status.ringEmpty ≠ .ok :=
  ⟨⟨_, rfl, by decide, by decide⟩, ⟨_, rfl, by decide, by decide⟩⟩

/-- EmptyAndFullQueriesAnswer, SpaceAndCountQueriesAnswer: both ports. -/
theorem witness_QueriesAnswer : wIdle.port = .producer ∧ { wIdle with port := .consumer }.port = .consumer := by decide

/-- FlagOutputsAreCombinational: with and without a ring. -/
theorem witness_FlagOutputsAreCombinational : wIdle.live = true ∧ State.reset.live = false := by decide

/-- QueryIdentitiesHold, WritableAndReadableSlotsDiffer: the last writable and the last readable slot. -/
theorem witness_WritableAndReadableSlotsDiffer : Inv wIdle ∧ wIdle.live = true
    ∧ 0 < (flagOutputs .producer wIdle).space.toNat ∧ 0 < (flagOutputs .consumer wIdle).count.toNat
    ∧ Inv wMid ∧ 2 < (flagOutputs .producer wMid).space.toNat ∧ 2 < (flagOutputs .consumer wMid).count.toNat :=
  ⟨wIdle_inv, rfl, by decide, by decide, wMid_inv, by decide, by decide⟩

/-- ViewsBracketTheOccupancy: a P view not full over a step of C, a C view not empty over a step of P. -/
theorem witness_ViewsBracketTheOccupancy :
    (let s := { wIdle with turns := [.c], cIn := [0xC00000000] }
     Inv s ∧ s.live = true ∧ s.turns = .c :: [] ∧ Turn.c ≠ .p ∧ (flagOutputs .producer s).full = false
       ∧ ∃ t, step s = .next t ∧ t.live = true)
    ∧ (let s := { wIdle with turns := [.p], pIn := [⟨0x800000000, 5⟩] }
       Inv s ∧ s.live = true ∧ s.turns = .p :: [] ∧ Turn.p ≠ .c ∧ (flagOutputs .consumer s).empty = false
       ∧ ∃ t, step s = .next t ∧ t.live = true) :=
  ⟨⟨wIdle_inv.congr rfl, rfl, rfl, by decide, by decide, _, rfl, rfl⟩,
    ⟨wIdle_inv.congr rfl, rfl, rfl, by decide, by decide, _, rfl, rfl⟩⟩

/-- EnqWritesOneSlotAndAdvancesHead: the three clauses. -/
theorem witness_EnqWritesOneSlotAndAdvancesHead :
    (wMid.port = .producer ∧ wMid.pBurst ≠ .idle)
    ∧ (wFull.port = .producer ∧ wFull.pBurst = .idle ∧ idxSub wFull.build wFull.head wFull.tailP &&& wFull.mask = wFull.mask)
    ∧ (wWrap.port = .producer ∧ wWrap.pBurst = .idle ∧ idxSub wWrap.build wWrap.head wWrap.tailP &&& wWrap.mask ≠ wWrap.mask
      ∧ (wWrap.head &&& wWrap.mask).toNat < wWrap.build.maxCapacity) := by decide

/-- EnqbGrantsMinOfLengthAndSpace: a burst open; a full grant, a partial grant and none. -/
theorem witness_EnqbGrantsMinOfLengthAndSpace :
    (wMid.port = .producer ∧ wMid.pBurst ≠ .idle)
    ∧ (wFresh.port = .producer ∧ wFresh.pBurst = .idle
      ∧ [(3, 0xFFFFFFFF), (2, 2), (0, 0)].all (fun (n, len) => decide ((BitVec.ofNat 32 n : Word).toNat = min (BitVec.ofNat 32 len : Word).toNat
        (wFresh.capacity - (idxSub wFresh.build wFresh.head wFresh.tailP &&& wFresh.mask) - 1).toNat)) = true) := by decide

/-- EnqdWritesABeatAndCommitsTheLast: no burst, a beat in the middle, the last beat. -/
theorem witness_EnqdWritesABeatAndCommitsTheLast :
    (wIdle.port = .producer ∧ wIdle.pBurst = .idle)
    ∧ (wMid.port = .producer ∧ wMid.pBurst = .opened 2 0
      ∧ (idxAdd wMid.build wMid.head 0 &&& wMid.mask).toNat < wMid.build.maxCapacity ∧ (0 : Word).toNat + 1 < (2 : Word).toNat)
    ∧ (wLast.port = .producer ∧ wLast.pBurst = .opened 2 1
      ∧ (idxAdd wLast.build wLast.head 1 &&& wLast.mask).toNat < wLast.build.maxCapacity
      ∧ (1 : Word).toNat + 1 = (2 : Word).toNat) := by decide

/-- DeqReturnsTheSlotAndAdvancesTail and PeekReturnsTheSlotAndWritesNothing: the three clauses. -/
theorem witness_DeqReturnsTheSlotAndAdvancesTail :
    ({ wMid with port := .consumer }.port = .consumer ∧ wMid.cBurst ≠ .idle)
    ∧ (wFresh.cBurst = .idle ∧ wFresh.headC = wFresh.tail)
    ∧ (wWrap.cBurst = .idle ∧ wWrap.headC ≠ wWrap.tail ∧ (wWrap.tail &&& wWrap.mask).toNat < wWrap.build.maxCapacity
      ∧ wWrap.slots.read (wWrap.tail &&& wWrap.mask).toNat = some dA) := by decide

/-- DeqbGrantsMinOfRequestAndCount: a burst open; a partial grant, a full grant and none. -/
theorem witness_DeqbGrantsMinOfRequestAndCount :
    ({ wMid with port := .consumer }.port = .consumer ∧ wMid.cBurst ≠ .idle)
    ∧ (wFull.cBurst = .idle
      ∧ [(3, 0xFFFFFFFF), (2, 2), (0, 0)].all (fun (n, req) => decide ((BitVec.ofNat 32 n : Word).toNat = min (BitVec.ofNat 32 req : Word).toNat
        (idxSub wFull.build wFull.headC wFull.tail &&& wFull.mask).toNat)) = true) := by decide

/-- DeqdReturnsABeatAndCommitsTheLast: no burst, a beat in the middle, the last beat. -/
theorem witness_DeqdReturnsABeatAndCommitsTheLast :
    ({ wIdle with port := .consumer }.port = .consumer ∧ wIdle.cBurst = .idle)
    ∧ (wMid.cBurst = .opened 2 0 ∧ (idxAdd wMid.build wMid.tail 0 &&& wMid.mask).toNat < wMid.build.maxCapacity
      ∧ wMid.slots.read (idxAdd wMid.build wMid.tail 0 &&& wMid.mask).toNat = some dA ∧ (0 : Word).toNat + 1 < (2 : Word).toNat)
    ∧ (wLast.cBurst = .opened 2 1 ∧ (idxAdd wLast.build wLast.tail 1 &&& wLast.mask).toNat < wLast.build.maxCapacity
      ∧ wLast.slots.read (idxAdd wLast.build wLast.tail 1 &&& wLast.mask).toNat = some dB
      ∧ (1 : Word).toNat + 1 = (2 : Word).toNat) := by decide

/-- SlotAccessFaultsByName: states that no run reaches: unwritten slots, and a mask wider than the storage. -/
theorem witness_SlotAccessFaultsByName :
    (let s := { ring 4 1 0 1 0 [] with port := .consumer }
     s.port = .consumer ∧ s.cBurst = .idle ∧ s.headC ≠ s.tail ∧ (s.tail &&& s.mask).toNat < s.build.maxCapacity
       ∧ s.slots.read (s.tail &&& s.mask).toNat = none)
    ∧ (let s := { ring 1024 301 300 301 300 [] with port := .consumer }
       s.port = .consumer ∧ s.cBurst = .idle ∧ s.headC ≠ s.tail ∧ s.build.maxCapacity ≤ (s.tail &&& s.mask).toNat)
    ∧ (let s := { ring 4 1 0 1 0 [] with port := .consumer, cBurst := .opened 1 0 }
       s.port = .consumer ∧ s.cBurst = .opened 1 0 ∧ (idxAdd s.build s.tail 0 &&& s.mask).toNat < s.build.maxCapacity
       ∧ s.slots.read (idxAdd s.build s.tail 0 &&& s.mask).toNat = none)
    ∧ (let s := { ring 1024 300 255 300 255 [] with port := .consumer, cBurst := .opened 2 1 }
       s.port = .consumer ∧ s.cBurst = .opened 2 1 ∧ s.build.maxCapacity ≤ (idxAdd s.build s.tail 1 &&& s.mask).toNat)
    ∧ (let s := ring 1024 256 255 256 255 []
       s.port = .producer ∧ s.pBurst = .idle ∧ idxSub s.build s.head s.tailP &&& s.mask ≠ s.mask
       ∧ s.build.maxCapacity ≤ (s.head &&& s.mask).toNat)
    ∧ (let s := { ring 1024 255 255 255 255 [] with pBurst := .opened 2 1 }
       s.port = .producer ∧ s.pBurst = .opened 2 1 ∧ s.build.maxCapacity ≤ (idxAdd s.build s.head 1 &&& s.mask).toNat) := by
  decide

/-- HeadSynchronizerDelivers and TailSynchronizerDelivers: the oldest value, and the newest. -/
theorem witness_SynchronizersDeliver :
    ({ wIdle with turns := [.sh 1] }.turns = .sh 1 :: [] ∧ wIdle.live = true ∧ 1 ≤ 1 ∧ wIdle.hFlight[1 - 1]? = some 2)
    ∧ ({ wTail with turns := [.st 2] }.turns = .st 2 :: [] ∧ wTail.live = true ∧ 1 ≤ 2 ∧ wTail.tFlight[2 - 1]? = some 2) := by
  decide

/-- CopiesTakeOnlyWholeValues, CapacityIsFixedWhileLive, IndicesMoveOnlyByTheirCommands, EveryStepKeepsTheInvariant: an
enqueue that moves `head`, and a last beat that moves `tail`. -/
theorem witness_StepsOfALiveRing :
    (Inv { wIdle with turns := [.p], pIn := [⟨0x800000000, 5⟩] } ∧ wIdle.live = true
      ∧ ∃ t, step { wIdle with turns := [.p], pIn := [⟨0x800000000, 5⟩] } = .next t ∧ t.live = true ∧ t.head ≠ wIdle.head)
    ∧ (Inv { wLast with turns := [.c], cIn := [0xF00000000] } ∧ wLast.live = true
      ∧ ∃ t, step { wLast with turns := [.c], cIn := [0xF00000000] } = .next t ∧ t.live = true ∧ t.tail ≠ wLast.tail) :=
  ⟨⟨wIdle_inv.congr rfl, rfl, _, rfl, rfl, by decide⟩, ⟨wLast_inv.congr rfl, rfl, _, rfl, rfl, by decide⟩⟩

/-- CopiesNeverMoveBackward: a step of SH and a step of ST. -/
theorem witness_CopiesNeverMoveBackward :
    (Inv { wIdle with turns := [.sh 1] } ∧ (∃ t, step { wIdle with turns := [.sh 1] } = .next t)
      ∧ shSteps { wIdle with turns := [.sh 1] })
    ∧ (Inv { wTail with turns := [.st 1] } ∧ (∃ t, step { wTail with turns := [.st 1] } = .next t)
      ∧ stSteps { wTail with turns := [.st 1] }) :=
  ⟨⟨wIdle_inv.congr rfl, ⟨_, rfl⟩, rfl, 1, [], rfl, by decide, by decide⟩,
    ⟨wTail_inv.congr rfl, ⟨_, rfl⟩, rfl, 1, [], rfl, by decide, by decide⟩⟩

/-- SyncSettlesTheRing: a ring with something in flight, and a settled one. -/
theorem witness_SyncSettlesTheRing :
    (Inv { wTail with turns := syncTurns wTail } ∧ wTail.live = true
      ∧ { wTail with turns := syncTurns wTail }.turns = syncTurns { wTail with turns := syncTurns wTail } ++ [])
    ∧ Inv wFull ∧ isSettled wFull = true :=
  ⟨⟨wTail_inv.congr rfl, rfl, by decide⟩, wFull_inv, by decide⟩

/-- ConstructMakesARingOrSaysWhyNot: the state and each of its three clauses at its boundary. -/
theorem witness_ConstructMakesARingOrSaysWhyNot :
    ({ State.reset with turns := [.construct 256] }.turns = .construct 256 :: [] ∧ State.reset.live = false
      ∧ State.reset.cfgStatus = .ok)
    ∧ (1 : Word).toNat < 2 ∧ (¬ ∃ k, (3 : Word).toNat = 2 ^ k)
    ∧ (2 ≤ (512 : Word).toNat ∧ (512 : Word).toNat = 2 ^ 9 ∧ State.reset.build.maxCapacity < (512 : Word).toNat)
    ∧ (2 ≤ (256 : Word).toNat ∧ (256 : Word).toNat = 2 ^ 8 ∧ (256 : Word).toNat ≤ State.reset.build.maxCapacity) := by
  refine ⟨by decide, by decide, ?_, by decide, by decide⟩
  rintro ⟨k, hk⟩
  have h3 : (3 : Word).toNat = 3 := rfl
  rcases k with _ | k
  · simp at hk
  · rw [h3, Nat.pow_succ] at hk; omega

/-- FreshRingIsEmptyOnBothPorts. -/
theorem witness_FreshRingIsEmptyOnBothPorts :
    ∃ t, step { State.reset with turns := [.construct 2] } = .next t ∧ t.live = true := ⟨_, rfl, by decide⟩

/-- ResetTearsTheRingDown, NothingStepsWithoutARing, DisabledTurnsPass: each clause. -/
theorem witness_TurnsThatPass : { wIdle with turns := [.resetRing] }.turns = .resetRing :: []
    ∧ ({ State.reset with turns := [.p] }.turns = .p :: [] ∧ State.reset.live = false)
    ∧ State.reset.turns = [] ∧ (wIdle.live = true ∨ wIdle.cfgStatus ≠ .ok)
    ∧ (wIdle.hFlight.length < 2) ∧ (wTail.tFlight.length < 3) ∧ wIdle.pIn = [] ∧ wIdle.cIn = [] := by decide

/-- PortsWriteOnlyTheirOwnState: a command of each port, and each case of the stored slot: ENQ, a beat, ENQ refused, a query. -/
theorem witness_PortsWriteOnlyTheirOwnState : (∃ t, exec (.enq 0) wIdle = .next t ∧ wIdle.port = .producer)
    ∧ (∃ t, exec (.deq 0) { wIdle with port := .consumer } = .next t)
    ∧ storedSlot (.enq 0) wIdle = some 2 ∧ storedSlot (.enqd 0) wLast = some 5 ∧ (∃ t, exec (.enqd 0) wLast = .next t)
    ∧ storedSlot (.enq 0) wFull = none ∧ storedSlot (.count 0) wIdle = none :=
  ⟨⟨_, rfl, rfl⟩, ⟨_, rfl⟩, by decide, by decide, ⟨_, rfl⟩, by decide, by decide⟩

/-- DescriptorContentsAreOpaque: a command that stores, and a slot on either side of its condition. -/
theorem witness_DescriptorContentsAreOpaque : storedSlot (.enq 0) wIdle = some 2 ∧ storedSlot (.enq 0) wIdle ≠ some 1
    ∧ ∃ t, exec (.enq 0) wIdle = .next t := ⟨by decide, by decide, _, rfl⟩

/-- ProducerLearnsNothingOfTheConsumer: two states that differ in the consumer's side. -/
theorem witness_ProducerLearnsNothingOfTheConsumer :
    SameForProducer wIdle { wIdle with tail := 1, tFlight := [1], slots := [(1, dC)] } ∧ wIdle.port = .producer
      ∧ storedSlot (.enq 0) wIdle = some 2 ∧ storedSlot (.enq 0) wIdle ≠ some 1 ∧ ∃ t, exec (.enq 0) wIdle = .next t :=
  ⟨rfl, rfl, by decide, by decide, _, rfl⟩

/-- ConsumerLearnsNothingOfTheProducer: two states that differ in the producer's side. -/
theorem witness_ConsumerLearnsNothingOfTheProducer :
    SameForConsumer { wIdle with port := .consumer } { wIdle with port := .consumer, head := 3, hFlight := [2, 3] } := rfl

/-- OpenBurstEndsOnlyByBeatsOrReset: both bursts open over a step. -/
theorem witness_OpenBurstEndsOnlyByBeatsOrReset :
    ∃ t, step { wMid with turns := [.p], pIn := [⟨0x800000000, 0⟩] } = .next t ∧ wMid.live = true ∧ t.live = true
      ∧ wMid.pBurst = .opened 2 0 ∧ wMid.cBurst = .opened 2 0 := ⟨_, rfl, rfl, rfl, rfl, rfl⟩

/-- EveryStepKeepsTheWidths: widths of a live ring. -/
theorem witness_EveryStepKeepsTheWidths : WidthsOk { wIdle with turns := [.sh 1] }
    ∧ ∃ t, step { wIdle with turns := [.sh 1] } = .next t :=
  ⟨⟨BitVec.isLt _, BitVec.isLt _, BitVec.isLt _, BitVec.isLt _, fun v _ => v.isLt, fun v _ => v.isLt, by decide, by decide⟩, ⟨_, rfl⟩⟩

/-- PeekIsRepeatable: C sees an item while P takes a turn. -/
theorem witness_PeekIsRepeatable :
    (let s := { wIdle with turns := [.p], pIn := [⟨0x800000000, 5⟩] }
     Inv s ∧ s.live = true ∧ s.cBurst = .idle ∧ s.headC ≠ s.tail ∧ s.turns = .p :: [] ∧ ∃ t, step s = .next t) :=
  ⟨wIdle_inv.congr rfl, rfl, rfl, by decide, rfl, _, rfl⟩

/-- EnqueuesAppendToThePendingItems: ENQ, a beat in the middle, the last beat. -/
theorem witness_EnqueuesAppendToThePendingItems :
    (Inv wIdle ∧ wIdle.live = true ∧ wIdle.port = .producer ∧ wIdle.pBurst = .idle
      ∧ (flagOutputs .producer wIdle).full = false)
    ∧ (Inv wMid ∧ wMid.live = true ∧ wMid.port = .producer ∧ wMid.pBurst = .opened 2 0
      ∧ (0 : Word).toNat + 1 < (2 : Word).toNat)
    ∧ (Inv wLast ∧ wLast.live = true ∧ wLast.port = .producer ∧ wLast.pBurst = .opened 2 1
      ∧ (1 : Word).toNat + 1 = (2 : Word).toNat) :=
  ⟨⟨wIdle_inv, rfl, rfl, rfl, by decide⟩, ⟨wMid_inv, rfl, rfl, rfl, by decide⟩, ⟨wLast_inv, rfl, rfl, rfl, by decide⟩⟩

/-- DequeuesTakeTheOldestItems: DEQ, a beat in the middle, the last beat. -/
theorem witness_DequeuesTakeTheOldestItems :
    (Inv { wWrap with port := .consumer } ∧ wWrap.live = true ∧ wWrap.cBurst = .idle
      ∧ (flagOutputs .consumer wWrap).empty = false)
    ∧ (Inv { wMid with port := .consumer } ∧ wMid.live = true ∧ wMid.cBurst = .opened 2 0
      ∧ (0 : Word).toNat + 1 < (2 : Word).toNat)
    ∧ (Inv { wLast with port := .consumer } ∧ wLast.live = true ∧ wLast.cBurst = .opened 2 1
      ∧ (1 : Word).toNat + 1 = (2 : Word).toNat) :=
  ⟨⟨wWrap_inv.congr rfl, rfl, rfl, by decide⟩, ⟨wMid_inv.congr rfl, rfl, rfl, by decide⟩,
    ⟨wLast_inv.congr rfl, rfl, rfl, by decide⟩⟩

/-- OtherStepsKeepThePendingItems: a beat of P that writes a slot and moves no index. -/
theorem witness_OtherStepsKeepThePendingItems :
    (let s := { wMid with turns := [.p], pIn := [⟨0xA00000000, 5⟩] }
     Inv s ∧ ∃ t, step s = .next t ∧ s.live = true ∧ t.live = true ∧ t.head = s.head ∧ t.tail = s.tail) :=
  ⟨wMid_inv.congr rfl, _, rfl, rfl, rfl, by decide, by decide⟩

/-- CommandsOfTheTwoPortsCommute: a beat of each port. -/
theorem witness_CommandsOfTheTwoPortsCommute :
    (let s := { wLast with pIn := [⟨0xA00000000, 5⟩], cIn := [0xF00000000] }
     Inv s ∧ s.live = true ∧ s.pIn = ⟨0xA00000000, 5⟩ :: [] ∧ s.cIn = 0xF00000000 :: []) :=
  ⟨wLast_inv.congr rfl, rfl, rfl, rfl⟩

/-- EnqueueBulkIsOneTransaction: two items into a ring with room for one (S6). -/
theorem witness_EnqueueBulkIsOneTransaction :
    (let s := { wIdle with pIn := (PCall.enqueueBulk [dC, dD]).expand wIdle.build 1, turns := [.p, .p] }
     Inv s ∧ s.live = true ∧ s.pBurst = .idle ∧ [dC, dD].length < 2 ^ 32 ∧ (∀ d ∈ [dC, dD], d.wf s.build = true)
       ∧ 1 = min [dC, dD].length (flagOutputs .producer s).space.toNat
       ∧ s.pIn = (PCall.enqueueBulk [dC, dD]).expand s.build 1 ++ [] ∧ s.turns = List.replicate (1 + 1) .p ++ []) :=
  ⟨wIdle_inv.congr rfl, rfl, rfl, by decide, by decide, by decide, by decide, by decide⟩

/-- DequeueBulkIsOneTransaction: `dequeue_bulk 4` on a ring with three items visible. -/
theorem witness_DequeueBulkIsOneTransaction :
    (let s := { wFull with cIn := (CCall.dequeueBulk 4).expand 3, turns := [.c, .c, .c, .c] }
     Inv s ∧ s.live = true ∧ s.cBurst = .idle ∧ 3 = min (4 : Word).toNat (flagOutputs .consumer s).count.toNat
       ∧ s.cIn = (CCall.dequeueBulk 4).expand 3 ++ [] ∧ s.turns = List.replicate (3 + 1) .c ++ []) :=
  ⟨wFull_inv.congr rfl, rfl, rfl, by decide, rfl, rfl⟩

/-- IndexWidthIsUnobservable: `IDX_W` 32 and 8. -/
theorem witness_IndexWidthIsUnobservable : Inv wIdle ∧ Inv wNarrow ∧ SameUpToIndexWidth wIdle wNarrow
    ∧ ∃ t, step wIdle = .next t :=
  ⟨wIdle_inv, wNarrow_inv, ⟨rfl, rfl, fun _ => ⟨⟨2, 0, 1, 0, [2], []⟩,
    .of_checks (k := 2) (pn := 0) (pi := 0) (cn := 0) (ci := 0) (by decide) (by decide),
    .of_checks (k := 2) (pn := 0) (pi := 0) (cn := 0) (ci := 0) (by decide) (by decide)⟩⟩, _, rfl⟩

/-- The run of `witness_FairSynchronizersDeliverTheLastValue`: SH delivers in the first step, then nothing happens. -/
def wRun : Nat → State
  | 0 => { wIdle with turns := [.sh 1] }
  | _ + 1 => { wIdle with headC := 2, hFlight := [] }

/-- FairSynchronizersDeliverTheLastValue: a weakly fair run with a value in flight, on a ring that stays live. -/
theorem witness_FairSynchronizersDeliverTheLastValue : IsRun wRun ∧ WeaklyFair wRun ∧ Inv (wRun 0)
    ∧ (∀ m, 0 ≤ m → (wRun m).live = true) ∧ (∀ m, 0 ≤ m → (wRun m).head = (wRun 0).head)
    ∧ (∀ m, 0 ≤ m → (wRun m).tail = (wRun 0).tail) := by
  have hl : ∀ m, (wRun m).live = true := by intro m; cases m <;> rfl
  refine ⟨?_, ⟨fun n h => ?_, fun n h => ?_⟩, wIdle_inv.congr rfl, fun m _ => hl m, ?_, ?_⟩
  · intro n
    cases n with
    | zero => exact ⟨_, rfl, [], [], [], rfl⟩
    | succ n => exact ⟨_, rfl, [], [], [], rfl⟩
  · exact absurd rfl (h (n + 1) (by omega)).2
  · exact absurd rfl (h (n + 1) (by omega)).2
  · intro m _; cases m <;> rfl
  · intro m _; cases m <;> rfl

/-- The state a step answers, the same state where it stops. -/
def after (s : State) : State := (nextOf (step s)).getD s

/-- The run of `witness_FairRunsComeToRest`: each port gives the one command presented, each synchronizer delivers, then
nothing happens. -/
def wServed : Nat → State
  | 0 => { wIdle with turns := [.p, .c, .sh 2, .st 1], pIn := [⟨0x800000000, 0⟩], cIn := [0xC00000000] }
  | n + 1 => after (wServed n)

theorem wServed_rests (n : Nat) : wServed (n + 4) = wServed 4 := by
  induction n with
  | zero => rfl
  | succ n ih => exact (congrArg after ih).trans rfl

theorem wServed_steps : ∀ n, step (wServed n) = .next (wServed (n + 1))
  | 0 => rfl
  | 1 => rfl
  | 2 => rfl
  | 3 => rfl
  | n + 4 => by rw [show n + 4 + 1 = (n + 1) + 4 from rfl, wServed_rests n, wServed_rests (n + 1)]; rfl

/-- PresentedCommandsAreAnswered, FairRunsComeToRest: a fair run with a command presented on each port, on a ring that stays live. -/
theorem witness_FairRunsComeToRest : IsRun wServed ∧ WeaklyFair wServed ∧ ServesPorts wServed ∧ Inv (wServed 0)
    ∧ (∀ m, 0 ≤ m → (wServed m).live = true) ∧ StreamsEnd wServed 0
    ∧ 1 ≤ (wServed 0).pIn.length ∧ 1 ≤ (wServed 0).cIn.length ∧ isQuiescent (wServed 4) = true := by
  have rests : ∀ (P : State → Prop) n, ¬ P (wServed 4) → (∀ m, n ≤ m → P (wServed m)) → False :=
    fun P n hP h => hP (wServed_rests n ▸ h (n + 4) (by omega))
  refine ⟨fun n => ⟨_, wServed_steps n, [], [], [], by simp⟩,
    ⟨fun n h => (rests shEnabled n (fun e => e.2 (by decide)) h).elim, fun n h => (rests stEnabled n (fun e => e.2 (by decide)) h).elim⟩,
    ⟨fun n h => (rests pEnabled n (fun e => e.2 (by decide)) h).elim, fun n h => (rests cEnabled n (fun e => e.2 (by decide)) h).elim⟩,
    wIdle_inv.congr rfl, ?_, fun m t _ h => ?_, by decide, by decide, by decide⟩
  · intro m _
    match m with
    | 0 => rfl
    | 1 => rfl
    | 2 => rfl
    | 3 => rfl
    | n + 4 => rw [wServed_rests]; rfl
  · rw [wServed_steps m] at h; cases h; exact ⟨rfl, rfl⟩

end Sys2Proof.Tests
end

/-! ## The ports' streams, step by step and along a run (R11, R104) -/

namespace Sys2Proof.Machine

open Sys2Proof

/-! ### What a step does to the streams -/

/-- `t` has the streams, the responses and the executing port of `s`. -/
structure SameStreams (s t : State) : Prop where
  pIn : t.pIn = s.pIn
  cIn : t.cIn = s.cIn
  pOut : t.pOut = s.pOut
  cOut : t.cOut = s.cOut
  port : t.port = s.port

theorem SameStreams.refl (s : State) : SameStreams s s := ⟨rfl, rfl, rfl, rfl, rfl⟩

/-- A command that does not stop writes its own state and then gives one response (R104). -/
theorem exec_responds {i : Instr} {s t : State} (h : exec i s = .next t) :
    ∃ st v d u, t = respond st v d u ∧ SameStreams s u := by
  cases exec_kind h <;> exact ⟨_, _, _, _, rfl, rfl, rfl, rfl, rfl, rfl⟩

theorem deliverHead_sameStreams (k : Nat) (s : State) : SameStreams s (deliverHead k s) := by
  rcases deliverHead_cases k s with ⟨e, _⟩ | ⟨_, _, _, _, e⟩ <;> rw [e] <;> exact ⟨rfl, rfl, rfl, rfl, rfl⟩

theorem deliverTail_sameStreams (k : Nat) (s : State) : SameStreams s (deliverTail k s) := by
  rcases deliverTail_cases k s with ⟨e, _⟩ | ⟨_, _, _, _, e⟩ <;> rw [e] <;> exact ⟨rfl, rfl, rfl, rfl, rfl⟩

theorem constructRing_sameStreams (cap : Word) (s : State) : SameStreams s (constructRing cap s) := by
  rcases constructRing_cases cap s with ⟨_, e⟩ | ⟨_, _, _, e⟩ <;> rw [e] <;> exact ⟨rfl, rfl, rfl, rfl, rfl⟩

theorem hostConstruct_sameStreams (cap : Word) (s : State) : SameStreams s (hostConstruct cap s) := by
  unfold hostConstruct
  split
  · exact constructRing_sameStreams cap s
  · exact .refl s

/-- What a step from `s` to `t` does to the streams: one port takes the command at the front of its stream and appends one
response, the other port's streams left alone, exactly when the step is that port's; otherwise all are left alone. -/
inductive StreamsMove (s t : State) : Prop
  | producer (hp : pSteps s) (c : PCmd) (r : Response) (hin : s.pIn = c :: t.pIn) (hout : t.pOut = s.pOut ++ [r])
      (hcIn : t.cIn = s.cIn) (hcOut : t.cOut = s.cOut)
  | consumer (hc : cSteps s) (w : Header) (r : Response) (hin : s.cIn = w :: t.cIn) (hout : t.cOut = s.cOut ++ [r])
      (hpIn : t.pIn = s.pIn) (hpOut : t.pOut = s.pOut)
  | neither (hp : ¬ pSteps s) (hc : ¬ cSteps s) (h : SameStreams s t)

/-- A turn of SH, ST or HOST. -/
theorem streamsMove_noPort {s t : State} {x : Turn} {ts : List Turn} (h : s.turns = x :: ts) (hxp : x ≠ .p) (hxc : x ≠ .c)
    (ht : SameStreams { s with turns := ts } t) : StreamsMove s t :=
  .neither (by simp [pSteps, h, hxp]) (by simp [cSteps, h, hxc]) ⟨ht.pIn, ht.cIn, ht.pOut, ht.cOut, ht.port⟩

/-- The response to a command that P has accepted. -/
theorem streamsMove_acceptedP {s u : State} {ts : List Turn} {c : PCmd} {rest : List PCmd} (h : s.turns = .p :: ts)
    (hl : s.live = true) (hi : s.pIn = c :: rest) (hu : SameStreams (acceptedP s ts c rest) u) (st : Status) (v : Word)
    (d : Option Descriptor) : StreamsMove s (respond st v d u) := by
  obtain ⟨hpIn, hcIn, hpOut, hcOut, hport⟩ := hu
  rw [respond_producer hport]
  exact .producer ⟨⟨hl, by simp [hi]⟩, ts, h⟩ c ⟨st, v, none⟩ (hi.trans (congrArg (c :: ·) hpIn.symm))
    (congrArg (· ++ [_]) hpOut) hcIn hcOut

/-- The response to a command that C has accepted. -/
theorem streamsMove_acceptedC {s u : State} {ts : List Turn} {w : Header} {rest : List Header} (h : s.turns = .c :: ts)
    (hl : s.live = true) (hi : s.cIn = w :: rest) (hu : SameStreams (acceptedC s ts rest) u) (st : Status) (v : Word)
    (d : Option Descriptor) : StreamsMove s (respond st v d u) := by
  obtain ⟨hpIn, hcIn, hpOut, hcOut, hport⟩ := hu
  rw [respond_consumer hport]
  exact .consumer ⟨⟨hl, by simp [hi]⟩, ts, h⟩ w ⟨st, v, d⟩ (hi.trans (congrArg (w :: ·) hcIn.symm))
    (congrArg (· ++ [_]) hcOut) hpIn hpOut

/-- R104: a step takes at most one command, off the front of its port's stream, and answers it. -/
theorem step_streamsMove {s t : State} (h : step s = .next t) : StreamsMove s t := by
  have hk := step_kind s
  rw [h] at hk
  generalize hr : Host.Outcome.next t = r at hk
  cases hk with
  | idle hts => cases hr; exact .neither (by simp [pSteps, hts]) (by simp [cSteps, hts]) (.refl s)
  | passP ts hts hn =>
    cases hr
    exact .neither (by rcases hn with hn | hn <;> simp [pSteps, pEnabled, hn]) (by simp [cSteps, hts])
      ⟨rfl, rfl, rfl, rfl, rfl⟩
  | reservedP ts c rest e hts hl hi hd =>
    cases hr; exact streamsMove_acceptedP hts hl hi (.refl _) .badCmd 0 none
  | commandP ts c rest i hts hl hi hd =>
    obtain ⟨st, v, d, u, rfl, hu⟩ := exec_responds hr.symm
    exact streamsMove_acceptedP hts hl hi hu st v d
  | passC ts hts hn =>
    cases hr
    exact .neither (by simp [pSteps, hts]) (by rcases hn with hn | hn <;> simp [cSteps, cEnabled, hn])
      ⟨rfl, rfl, rfl, rfl, rfl⟩
  | reservedC ts w rest e hts hl hi hd =>
    cases hr; exact streamsMove_acceptedC hts hl hi (.refl _) .badCmd 0 none
  | commandC ts w rest i hts hl hi hd =>
    obtain ⟨st, v, d, u, rfl, hu⟩ := exec_responds hr.symm
    exact streamsMove_acceptedC hts hl hi hu st v d
  | sh k ts hts => cases hr; exact streamsMove_noPort hts (by simp) (by simp) (deliverHead_sameStreams k _)
  | st k ts hts => cases hr; exact streamsMove_noPort hts (by simp) (by simp) (deliverTail_sameStreams k _)
  | construct cap ts hts => cases hr; exact streamsMove_noPort hts (by simp) (by simp) (hostConstruct_sameStreams cap _)
  | resetRing ts hts => cases hr; exact streamsMove_noPort hts (by simp) (by simp) ⟨rfl, rfl, rfl, rfl, rfl⟩

/-- A turn is one port's: the ports never step at once (R9). -/
theorem pSteps_not_cSteps {s : State} (h : pSteps s) : ¬ cSteps s := by
  obtain ⟨_, ts, hts⟩ := h
  simp [cSteps, hts]

/-! ### Commands taken and answered between two states of a run -/

section Answered

variable {α : Type} {inp : State → List α} {out : State → List Response} {s t u : State} {j k : Nat}

/-- On the port whose stream is `inp` and whose responses are `out`: from `s` to `t` exactly the first `k` commands are taken
and `k` responses are appended; the outside world may have presented more commands (R33). -/
def Answered (inp : State → List α) (out : State → List Response) (k : Nat) (s t : State) : Prop :=
  ∃ more rsps, inp t = (inp s).drop k ++ more ∧ out t = out s ++ rsps ∧ rsps.length = k

theorem Answered.refl (s : State) : Answered inp out 0 s s := ⟨[], [], by simp⟩

/-- The commands counted from `s` on, while they were already presented at `s`. -/
theorem Answered.trans (h : Answered inp out j s t) (h' : Answered inp out k t u) (hlen : j + k ≤ (inp s).length) :
    Answered inp out (j + k) s u := by
  obtain ⟨more, rsps, hin, hout, rfl⟩ := h
  obtain ⟨more', rsps', hin', hout', rfl⟩ := h'
  refine ⟨more ++ more', rsps ++ rsps', ?_, by rw [hout', hout, List.append_assoc], List.length_append⟩
  have hdrop : rsps'.length ≤ ((inp s).drop rsps.length).length := by rw [List.length_drop]; omega
  rw [hin', hin, List.drop_append_of_le_length hdrop, List.drop_drop, List.append_assoc]

/-- A command presented at `s` and not yet taken is still presented. -/
theorem Answered.inp_ne_nil (h : Answered inp out k s t) (hlen : k < (inp s).length) : inp t ≠ [] := by
  obtain ⟨more, _, hin, _, _⟩ := h
  rw [hin]
  exact List.append_ne_nil_of_left_ne_nil (by simpa using hlen) more

/-- On a port that answers one command in each of its steps and none in any other, and that steps whenever commands stay
presented, all commands presented at `n` are answered one by one. -/
theorem eventually_answered {takes : State → Prop} {e : Nat → State} {n : Nat}
    (hmove : ∀ m, (takes (e m) ∧ Answered inp out 1 (e m) (e (m + 1)))
      ∨ (¬ takes (e m) ∧ Answered inp out 0 (e m) (e (m + 1))))
    (hserve : ∀ m, n ≤ m → (∀ m', m ≤ m' → inp (e m') ≠ []) → ∃ m', m ≤ m' ∧ takes (e m')) :
    ∀ k, k ≤ (inp (e n)).length → ∃ m, n ≤ m ∧ Answered inp out k (e n) (e m) := by
  intro k
  induction k with
  | zero => exact fun _ => ⟨n, le_rfl, .refl _⟩
  | succ k ih =>
    intro hk
    obtain ⟨m, hnm, hm⟩ := ih (by omega)
    by_contra hno
    push Not at hno
    -- No step from `m` on takes a command, so command `k + 1` would stay presented for ever.
    have hstuck : ∀ m', m ≤ m' → Answered inp out k (e n) (e m') → ¬ takes (e m') := by
      intro m' hm' hA ht
      obtain ⟨_, h1⟩ := (hmove m').resolve_right fun h => h.1 ht
      exact hno (m' + 1) (by omega) (hA.trans h1 hk)
    have hkeep : ∀ m', m ≤ m' → Answered inp out k (e n) (e m') := by
      intro m' hm'
      induction m', hm' using Nat.le_induction with
      | base => exact hm
      | succ m' hm' ihm =>
        obtain ⟨_, h0⟩ := (hmove m').resolve_left fun h => hstuck m' hm' ihm h.1
        exact ihm.trans h0 (by omega)
    obtain ⟨m', hm', ht⟩ := hserve m hnm fun m' hm' => (hkeep m' hm').inp_ne_nil hk
    exact hstuck m' hm' (hkeep m' hm') ht

end Answered

/-- A step of a run answers one of P's commands exactly when it is P's. -/
theorem IsRun.producer_moves {e : Nat → State} (hr : IsRun e) (m : Nat) :
    (pSteps (e m) ∧ Answered State.pIn State.pOut 1 (e m) (e (m + 1)))
      ∨ (¬ pSteps (e m) ∧ Answered State.pIn State.pOut 0 (e m) (e (m + 1))) := by
  obtain ⟨t, hstep, p, c, ts, hoff⟩ := hr m
  rw [hoff]
  cases step_streamsMove hstep with
  | producer hp cmd r hin hout => exact .inl ⟨hp, p, [r], by simp [hin], hout, rfl⟩
  | consumer hc _ _ _ _ hpIn hpOut => exact .inr ⟨fun hp => pSteps_not_cSteps hp hc, p, [], by simp [hpIn], by simp [hpOut], rfl⟩
  | neither hp _ h => exact .inr ⟨hp, p, [], by simp [h.pIn], by simp [h.pOut], rfl⟩

/-- A step of a run answers one of C's commands exactly when it is C's. -/
theorem IsRun.consumer_moves {e : Nat → State} (hr : IsRun e) (m : Nat) :
    (cSteps (e m) ∧ Answered State.cIn State.cOut 1 (e m) (e (m + 1)))
      ∨ (¬ cSteps (e m) ∧ Answered State.cIn State.cOut 0 (e m) (e (m + 1))) := by
  obtain ⟨t, hstep, p, c, ts, hoff⟩ := hr m
  rw [hoff]
  cases step_streamsMove hstep with
  | producer hp _ _ _ _ hcIn hcOut => exact .inr ⟨pSteps_not_cSteps hp, c, [], by simp [hcIn], by simp [hcOut], rfl⟩
  | consumer hc w r hin hout => exact .inl ⟨hc, c, [r], by simp [hin], hout, rfl⟩
  | neither _ hc h => exact .inr ⟨hc, c, [], by simp [h.cIn], by simp [h.cOut], rfl⟩

/-- Settles O59, by induction on the number of commands answered: a port that answered no further one would have it
presented for ever, against `ServesPorts`. -/
theorem presentedCommandsAreAnswered : Obligations.PresentedCommandsAreAnswered := by
  intro e n hr ⟨hserveP, hserveC⟩ hlive
  constructor
  · intro k hk
    obtain ⟨m, hnm, more, rsps, h⟩ := eventually_answered hr.producer_moves
      (fun m hm hne => hserveP m fun m' hm' => ⟨hlive m' (hm.trans hm'), hne m' hm'⟩) k hk
    exact ⟨m, more, rsps, hnm, h⟩
  · intro k hk
    obtain ⟨m, hnm, more, rsps, h⟩ := eventually_answered hr.consumer_moves
      (fun m hm hne => hserveC m fun m' hm' => ⟨hlive m' (hm.trans hm'), hne m' hm'⟩) k hk
    exact ⟨m, more, rsps, hnm, h⟩

end Sys2Proof.Machine

/-! ## What a step that ends in a next state has done, whichever port it served -/

namespace Sys2Proof.Machine

open Sys2Proof

/-- `u` is the state in which a command that its port has just accepted on a live ring is executed: `s` but for the schedule,
the streams and the latches, which hold a descriptor off the wires (R101, R104). -/
structure Accepted (s u : State) : Prop where
  live : s.live = true
  latches : u = { s with turns := u.turns, pIn := u.pIn, cIn := u.cIn, port := u.port, descIn := u.descIn }
  desc : u.descIn = s.descIn ∨ ∃ v, u.descIn = unpackDescriptor s.build v

theorem accepted_acceptedP {s : State} (hl : s.live = true) (ts : List Turn) (c : PCmd) (rest : List PCmd) :
    Accepted s (acceptedP s ts c rest) := ⟨hl, rfl, .inr ⟨c.desc, rfl⟩⟩

theorem accepted_acceptedC {s : State} (hl : s.live = true) (ts : List Turn) (rest : List Header) :
    Accepted s (acceptedC s ts rest) := ⟨hl, rfl, .inl rfl⟩

/-- Every way a step ends in a next state, the two ports taken together. -/
inductive StepMove (s : State) : State → Prop
  | pass (ts : List Turn) : StepMove s { s with turns := ts }
  | reserved (u : State) (ha : Accepted s u) : StepMove s (fail .badCmd u)
  | command (i : Instr) (u t : State) (ha : Accepted s u) (h : exec i u = .next t) : StepMove s t
  | sh (k : Nat) (ts : List Turn) : StepMove s (deliverHead k { s with turns := ts })
  | st (k : Nat) (ts : List Turn) : StepMove s (deliverTail k { s with turns := ts })
  | construct (cap : Word) (ts : List Turn) : StepMove s (hostConstruct cap { s with turns := ts })
  | resetRing (ts : List Turn) : StepMove s (hostReset { s with turns := ts })

theorem step_move {s t : State} (h : step s = .next t) : StepMove s t := by
  have hk := step_kind_next h
  generalize hr : Host.Outcome.next t = r at hk
  cases hk with
  | idle => cases hr; exact .pass s.turns
  | passP ts => cases hr; exact .pass ts
  | passC ts => cases hr; exact .pass ts
  | reservedP ts c rest _ _ hl => cases hr; exact .reserved _ (accepted_acceptedP hl ts c rest)
  | reservedC ts _ rest _ _ hl => cases hr; exact .reserved _ (accepted_acceptedC hl ts rest)
  | commandP ts c rest i _ hl => exact .command i _ t (accepted_acceptedP hl ts c rest) hr.symm
  | commandC ts _ rest i _ hl => exact .command i _ t (accepted_acceptedC hl ts rest) hr.symm
  | sh k ts => cases hr; exact .sh k ts
  | st k ts => cases hr; exact .st k ts
  | construct cap ts => cases hr; exact .construct cap ts
  | resetRing ts => cases hr; exact .resetRing ts

/-! ### The build and the configuration (R5, R23, R242) -/

/-- `t` has the build and the configuration of `s`, and is live when `s` is. -/
structure SameConfig (s t : State) : Prop where
  build : t.build = s.build
  capacity : t.capacity = s.capacity
  mask : t.mask = s.mask
  cfgStatus : t.cfgStatus = s.cfgStatus
  live : t.live = s.live

theorem SameConfig.trans {s t u : State} (h : SameConfig s t) (h' : SameConfig t u) : SameConfig s u :=
  ⟨h'.build.trans h.build, h'.capacity.trans h.capacity, h'.mask.trans h.mask, h'.cfgStatus.trans h.cfgStatus,
    h'.live.trans h.live⟩

theorem Accepted.sameConfig {s u : State} (h : Accepted s u) : SameConfig s u := by
  rw [h.latches]; exact ⟨rfl, rfl, rfl, rfl, rfl⟩

theorem fail_sameConfig (st : Status) (s : State) : SameConfig s (fail st s) := by
  constructor <;> simp [fail]

/-- No command writes the build or the configuration. -/
theorem exec_sameConfig {i : Instr} {s t : State} (h : exec i s = .next t) : SameConfig s t := by
  cases exec_kind h <;> constructor <;> simp [fail]

theorem deliverHead_sameConfig (k : Nat) (s : State) : SameConfig s (deliverHead k s) := by
  rcases deliverHead_cases k s with ⟨e, _⟩ | ⟨_, _, _, _, e⟩ <;> rw [e] <;> exact ⟨rfl, rfl, rfl, rfl, rfl⟩

theorem deliverTail_sameConfig (k : Nat) (s : State) : SameConfig s (deliverTail k s) := by
  rcases deliverTail_cases k s with ⟨e, _⟩ | ⟨_, _, _, _, e⟩ <;> rw [e] <;> exact ⟨rfl, rfl, rfl, rfl, rfl⟩

/-- HOST's CONSTRUCT is a step only where there is no ring, and it writes no build. -/
theorem hostConstruct_config (cap : Word) (s : State) :
    (hostConstruct cap s).build = s.build ∧ (hostConstruct cap s = s ∨ s.live = false) := by
  unfold hostConstruct
  split
  case isTrue h => rcases constructRing_cases cap s with ⟨_, e⟩ | ⟨_, _, _, e⟩ <;> rw [e] <;> exact ⟨rfl, .inr h.1⟩
  case isFalse => exact ⟨rfl, .inl rfl⟩

/-- Every step keeps the build; a step that changes the configuration starts or ends with no ring. -/
theorem step_config {s t : State} (h : step s = .next t) :
    t.build = s.build ∧ (SameConfig s t ∨ s.live = false ∨ t.live = false) := by
  have turns : ∀ ts, SameConfig s { s with turns := ts } := fun _ => ⟨rfl, rfl, rfl, rfl, rfl⟩
  have same : SameConfig s t → t.build = s.build ∧ (SameConfig s t ∨ s.live = false ∨ t.live = false) :=
    fun hc => ⟨hc.build, .inl hc⟩
  cases step_move h with
  | pass ts => exact same (turns ts)
  | reserved u ha => exact same (ha.sameConfig.trans (fail_sameConfig _ u))
  | command i u t ha hx => exact same (ha.sameConfig.trans (exec_sameConfig hx))
  | sh k ts => exact same ((turns ts).trans (deliverHead_sameConfig k _))
  | st k ts => exact same ((turns ts).trans (deliverTail_sameConfig k _))
  | construct cap ts =>
    obtain ⟨hb, e | hl⟩ := hostConstruct_config cap { s with turns := ts }
    · exact same (e.symm ▸ turns ts)
    · exact ⟨hb, .inr (.inl hl)⟩
  | resetRing ts => exact ⟨rfl, .inr (.inr rfl)⟩

/-- A step of a ring live before and after changes nothing of the build and the configuration (R242). -/
theorem step_sameConfig {s t : State} (h : step s = .next t) (hs : s.live = true) (ht : t.live = true) : SameConfig s t := by
  rcases (step_config h).2 with hc | hc | hc
  · exact hc
  · simp [hs] at hc
  · simp [ht] at hc

/-- Settles O38: of all steps only HOST's change the configuration, and they start or end with no ring. -/
theorem capacityIsFixedWhileLive : Obligations.CapacityIsFixedWhileLive := fun _ _ h =>
  ⟨(step_config h).1, fun hs ht => have hc := step_sameConfig h hs ht; ⟨hc.capacity, hc.mask, hc.cfgStatus⟩⟩

/-! ### The storage: canonical and inside `MAX_CAPACITY` (R60) -/

/-- The part of the invariant that holds with and without a ring. -/
structure StorageOk (s : State) : Prop where
  build : s.build.wf = true
  canonical : s.slots.wf
  inside : ∀ x ∈ s.slots, x.1 < s.build.maxCapacity

theorem Inv.storageOk {s : State} (h : Inv s) : StorageOk s := ⟨h.build, h.canonical, h.inside⟩

/-- The build and the slots are all it speaks of. -/
theorem StorageOk.congr {s t : State} (h : StorageOk s) (hb : t.build = s.build) (hs : t.slots = s.slots) : StorageOk t :=
  ⟨hb ▸ h.build, hs ▸ h.canonical, hb ▸ hs ▸ h.inside⟩

theorem StorageOk.noSlots {s t : State} (h : StorageOk s) (hb : t.build = s.build) (hs : t.slots = []) : StorageOk t :=
  ⟨hb ▸ h.build, hs ▸ .nil, by simp [hs]⟩

/-- A command that does not stop stores to a slot that exists. -/
theorem storedSlot_lt {i : Instr} {s t : State} {x : Nat} (h : exec i s = .next t) (hx : storedSlot i s = some x) :
    x < s.build.maxCapacity := by
  cases exec_kind h
  case query hq => cases i <;> simp_all [isQuery, storedSlot]
  case badCmd hb => simp [storedSlot_illegal hb] at hx
  all_goals simp_all [storedSlot]

theorem StorageOk.exec {i : Instr} {s t : State} (h : StorageOk s) (hx : exec i s = .next t) : StorageOk t := by
  have hb := (exec_sameConfig hx).build
  have hs := exec_slots hx
  cases ha : storedSlot i s with
  | none => exact h.congr hb (by simpa [ha] using hs)
  | some x =>
    simp only [ha] at hs
    refine ⟨hb ▸ h.build, hs ▸ Memory.write_wf x _ h.canonical, fun y hy => ?_⟩
    rw [hs] at hy
    rcases Memory.mem_write hy with rfl | hy
    · exact hb ▸ storedSlot_lt hx ha
    · exact hb ▸ h.inside y hy

theorem StorageOk.constructRing {s : State} (h : StorageOk s) (cap : Word) : StorageOk (constructRing cap s) := by
  rcases constructRing_cases cap s with ⟨_, e⟩ | ⟨_, _, _, e⟩ <;> rw [e]
  · exact h.noSlots rfl rfl
  · exact h.congr rfl rfl

theorem StorageOk.step {s t : State} (h : StorageOk s) (hx : step s = .next t) : StorageOk t := by
  cases step_move hx with
  | pass ts => exact h.congr rfl rfl
  | reserved u ha => exact h.congr (by simp [fail, ha.sameConfig.build]) (by simp [fail]; rw [ha.latches])
  | command i u t ha hx => exact (h.congr ha.sameConfig.build (by rw [ha.latches])).exec hx
  | sh k ts =>
    rcases deliverHead_cases k { s with turns := ts } with ⟨e, _⟩ | ⟨_, _, _, _, e⟩ <;> rw [e] <;> exact h.congr rfl rfl
  | st k ts =>
    rcases deliverTail_cases k { s with turns := ts } with ⟨e, _⟩ | ⟨_, _, _, _, e⟩ <;> rw [e] <;> exact h.congr rfl rfl
  | construct cap ts =>
    unfold hostConstruct
    split
    · exact (h.congr (t := { s with turns := ts }) rfl rfl).constructRing cap
    · exact h.congr rfl rfl
  | resetRing ts => exact h.congr rfl rfl

end Sys2Proof.Machine

/-! ## The invariant, step by step, and the index width (R36, R37, R38) -/

namespace Sys2Proof.Machine

open Sys2Proof

/-! ### How the logical indices move -/

/-- The logical indices of a ring just constructed. -/
def Ghost.zero : Ghost := { H := 0, T := 0, Hc := 0, Tp := 0, hs := [], ts := [] }

/-- `n` items become pending and the new `H` is in flight. -/
def Ghost.enqueue (n : Nat) (g : Ghost) : Ghost := { g with H := g.H + n, hs := g.hs ++ [g.H + n] }

/-- `n` items are no longer pending and the new `T` is in flight. -/
def Ghost.dequeue (n : Nat) (g : Ghost) : Ghost := { g with T := g.T + n, ts := g.ts ++ [g.T + n] }

/-- The first `k` values of `H` in flight have arrived, the last of them being `x`. -/
def Ghost.deliverHead (k x : Nat) (g : Ghost) : Ghost := { g with Hc := x, hs := g.hs.drop k }

/-- The first `k` values of `T` in flight have arrived, the last of them being `x`. -/
def Ghost.deliverTail (k x : Nat) (g : Ghost) : Ghost := { g with Tp := x, ts := g.ts.drop k }

theorem Params.idxW_le {b : Params} (hb : b.wf = true) : b.idxW ≤ 32 := (wf_facts hb).2.2.2

section LiveRing

variable {g : Ghost} {s : State} {n i : Word}

theorem LiveInv.respond (h : LiveInv g s) (st : Status) (v : Word) (d : Option Descriptor) : LiveInv g (respond st v d s) :=
  h.congr (by unfold Machine.respond; cases s.port <;> rfl)

theorem succ_toNat (hi : i.toNat < n.toNat) : (i + 1).toNat = i.toNat + 1 := by
  have := n.isLt
  rw [BitVec.toNat_add, one_toNat, Nat.mod_eq_of_lt (by omega)]

theorem LiveInv.idxAdd_head (hb : s.build.wf = true) (h : LiveInv g s) (n : Word) :
    idxAdd s.build s.head n = idxOf s.build (g.H + n.toNat) := by
  rw [h.headEq, idxAdd_idxOf (Params.idxW_le hb)]

theorem LiveInv.idxAdd_tail (hb : s.build.wf = true) (h : LiveInv g s) (n : Word) :
    idxAdd s.build s.tail n = idxOf s.build (g.T + n.toNat) := by
  rw [h.tailEq, idxAdd_idxOf (Params.idxW_le hb)]

/-- Once the slot `k` places after `H` is written, with the `k` before it, all slots from `T` on are. -/
theorem LiveInv.written_write (h : LiveInv g s) {k : Nat}
    (hk : ∀ j < k, (s.slots.read ((g.H + j) % s.capacity.toNat)).isSome) (d : Descriptor) (x : Nat) (h1 : g.T ≤ x)
    (h2 : x < g.H + (k + 1)) :
    ((s.slots.write ((g.H + k) % s.capacity.toNat) d).read (x % s.capacity.toNat)).isSome := by
  refine Memory.isSome_write fun hne => ?_
  by_cases hx : x < g.H
  · exact h.written x h1 hx
  · obtain ⟨j, rfl⟩ := Nat.exists_eq_add_of_le (Nat.le_of_not_lt hx)
    have hjk : j ≠ k := fun e => hne (by rw [e])
    exact hk j (by omega)

/-- R160, R162: a commit of `n` items, whose slots are written, keeps the invariant. -/
theorem LiveInv.commitHead (hb : s.build.wf = true) (h : LiveInv g s) (hn : 1 ≤ n.toNat)
    (hroom : n.toNat ≤ s.capacity.toNat - 1 - (g.H - g.Tp)) (m : Memory)
    (hw : ∀ x, g.T ≤ x → x < g.H + n.toNat → (m.read (x % s.capacity.toNat)).isSome) :
    LiveInv (g.enqueue n.toNat) { advanceHead n { s with slots := m } with pBurst := .idle } where
  __ := h
  headEq := h.idxAdd_head hb n
  hFlightEq := by simp [advanceHead, Ghost.enqueue, h.hFlightEq, h.idxAdd_head hb]
  chainH := Nat.le_add_right_of_le h.chainH
  chainCap := by
    have h1 := h.chainT; have h2 := h.chainHc; have h3 := h.chainH; have h4 := h.chainCap
    simp only [advanceHead, Ghost.enqueue]; omega
  hOk := h.hOk.snoc h.chainH (Nat.lt_add_of_pos_right hn)
  pOk := by intro _ _ e; cases e
  written := hw
  staged := by intro _ _ e; cases e

/-- R162: a beat that is not the last keeps the invariant. -/
theorem LiveInv.beatHead (h : LiveInv g s) (hp : s.pBurst = .opened n i) (hi : i.toNat + 1 < n.toNat) (d : Descriptor) :
    LiveInv g { s with slots := s.slots.write ((g.H + i.toNat) % s.capacity.toNat) d, pBurst := .opened n (i + 1) } where
  __ := h
  pOk := by
    obtain ⟨h1, h2, h3⟩ := h.pOk n i hp
    rintro _ _ ⟨⟩
    exact ⟨h1, h2, by rw [succ_toNat h3]; exact hi⟩
  written x h1 h2 := h.written_write (h.staged n i hp) d x h1 (by omega)
  staged := by
    rintro _ _ ⟨⟩ j hj
    rw [succ_toNat (n := n) (by omega)] at hj
    have h1 := h.chainHc; have h2 := h.chainH
    exact h.written_write (h.staged n i hp) d (g.H + j) (by omega) (by omega)

/-- R161: a grant of at most the P space keeps the invariant. -/
theorem LiveInv.grantHead (h : LiveInv g s) (hn : 1 ≤ n.toNat) (hroom : n.toNat ≤ s.capacity.toNat - 1 - (g.H - g.Tp)) :
    LiveInv g { s with pBurst := .opened n 0 } where
  __ := h
  pOk := by rintro _ _ ⟨⟩; exact ⟨hn, hroom, hn⟩
  staged := by rintro _ _ ⟨⟩ j hj; exact absurd hj (Nat.not_lt_zero j)

/-- R180, R184: taking `n` items that C may read keeps the invariant. -/
theorem LiveInv.commitTail (hb : s.build.wf = true) (h : LiveInv g s) (hn : 1 ≤ n.toNat) (hroom : n.toNat ≤ g.Hc - g.T) :
    LiveInv (g.dequeue n.toNat) { advanceTail n s with cBurst := .idle } where
  __ := h
  tailEq := h.idxAdd_tail hb n
  tFlightEq := by simp [advanceTail, Ghost.dequeue, h.tFlightEq, h.idxAdd_tail hb]
  chainT := Nat.le_add_right_of_le h.chainT
  chainHc := by simp only [Ghost.dequeue]; omega
  tOk := h.tOk.snoc h.chainT (Nat.lt_add_of_pos_right hn)
  cOk := by intro _ _ e; cases e
  written x h1 := h.written x (by simp only [Ghost.dequeue] at h1; omega)

/-- R184: a beat that is not the last keeps the invariant. -/
theorem LiveInv.beatTail (h : LiveInv g s) (hc : s.cBurst = .opened n i) (hi : i.toNat + 1 < n.toNat) :
    LiveInv g { s with cBurst := .opened n (i + 1) } where
  __ := h
  cOk := by
    obtain ⟨h1, h2, h3⟩ := h.cOk n i hc
    rintro _ _ ⟨⟩
    exact ⟨h1, h2, by rw [succ_toNat h3]; exact hi⟩

/-- R183: a grant of at most the C count keeps the invariant. -/
theorem LiveInv.grantTail (h : LiveInv g s) (hn : 1 ≤ n.toNat) (hroom : n.toNat ≤ g.Hc - g.T) :
    LiveInv g { s with cBurst := .opened n 0 } where
  __ := h
  cOk := by rintro _ _ ⟨⟩; exact ⟨hn, hroom, hn⟩

/-- R72: a delivery of SH keeps the invariant; a burst's grant stays within the C count. -/
theorem LiveInv.deliverHead (h : LiveInv g s) {k x : Nat} (hk : 1 ≤ k) (hx : g.hs[k - 1]? = some x) :
    LiveInv (g.deliverHead k x) { s with headC := idxOf s.build x, hFlight := s.hFlight.drop k } := by
  obtain ⟨hok, h1, h2⟩ := h.hOk.drop hk hx
  exact { h with
    headCEq := rfl
    hFlightEq := by rw [h.hFlightEq]; exact (List.map_drop ..).symm
    chainHc := h.chainHc.trans h1.le
    chainH := h2
    hOk := hok
    cOk := fun n i e => by
      obtain ⟨h3, h4, h5⟩ := h.cOk n i e
      exact ⟨h3, h4.trans (Nat.sub_le_sub_right h1.le _), h5⟩ }

/-- R73: a delivery of ST keeps the invariant; a burst's grant stays within the P space. -/
theorem LiveInv.deliverTail (h : LiveInv g s) {k x : Nat} (hk : 1 ≤ k) (hx : g.ts[k - 1]? = some x) :
    LiveInv (g.deliverTail k x) { s with tailP := idxOf s.build x, tFlight := s.tFlight.drop k } := by
  obtain ⟨hok, h1, h2⟩ := h.tOk.drop hk hx
  exact { h with
    tailPEq := rfl
    tFlightEq := by rw [h.tFlightEq]; exact (List.map_drop ..).symm
    chainT := h2
    chainCap := by have := h.chainCap; simp only [Ghost.deliverTail]; omega
    tOk := hok
    pOk := fun n i e => by
      obtain ⟨h3, h4, h5⟩ := h.pOk n i e
      exact ⟨h3, by simp only [Ghost.deliverTail]; omega, h5⟩ }

end LiveRing

/-- R246: a ring just constructed has the invariant. -/
theorem LiveInv.constructed {s : State} {cap : Word} (h : capacityStatus s.build cap = .ok) :
    LiveInv .zero { clearIndices s with capacity := cap, mask := cap - 1, slots := [], cfgStatus := .ok, live := true } := by
  obtain ⟨h2, ⟨k, _, hk⟩, hm⟩ := (capacityStatus_ok_iff s.build cap).mp h
  have h0 : (0 : Idx) = idxOf s.build 0 := by simp [idxOf]
  exact {
    capPow := ⟨k, hk⟩, capMin := h2, capMax := hm, maskEq := rfl
    headEq := h0, tailEq := h0, headCEq := h0, tailPEq := h0, hFlightEq := rfl, tFlightEq := rfl
    chainT := le_rfl, chainHc := le_rfl, chainH := le_rfl, chainCap := Nat.zero_le _
    hOk := ⟨.nil, by simp [Ghost.zero], rfl⟩, tOk := ⟨.nil, by simp [Ghost.zero], rfl⟩
    pOk := by intro _ _ e; cases e
    cOk := by intro _ _ e; cases e
    written := fun x _ hx => absurd hx (Nat.not_lt_zero x)
    staged := by intro _ _ e; cases e
    status := rfl }

/-! ### The same logical indices in a build of another index width (R37) -/

/-- `s` in the build `b`, with the registers that hold the logical indices `g` there. -/
def State.atWidth (s : State) (b : Params) (g : Ghost) : State :=
  { s with
    build := b
    head := idxOf b g.H, tail := idxOf b g.T, headC := idxOf b g.Hc, tailP := idxOf b g.Tp
    hFlight := g.hs.map (idxOf b), tFlight := g.ts.map (idxOf b) }

@[simp] theorem atWidth_build (s : State) (b : Params) (g : Ghost) : (s.atWidth b g).build = b := rfl
@[simp] theorem atWidth_slots (s : State) (b : Params) (g : Ghost) : (s.atWidth b g).slots = s.slots := rfl
@[simp] theorem atWidth_capacity (s : State) (b : Params) (g : Ghost) : (s.atWidth b g).capacity = s.capacity := rfl
@[simp] theorem atWidth_mask (s : State) (b : Params) (g : Ghost) : (s.atWidth b g).mask = s.mask := rfl
@[simp] theorem atWidth_pBurst (s : State) (b : Params) (g : Ghost) : (s.atWidth b g).pBurst = s.pBurst := rfl
@[simp] theorem atWidth_cBurst (s : State) (b : Params) (g : Ghost) : (s.atWidth b g).cBurst = s.cBurst := rfl
@[simp] theorem atWidth_live (s : State) (b : Params) (g : Ghost) : (s.atWidth b g).live = s.live := rfl
@[simp] theorem atWidth_cfgStatus (s : State) (b : Params) (g : Ghost) : (s.atWidth b g).cfgStatus = s.cfgStatus := rfl
@[simp] theorem atWidth_turns (s : State) (b : Params) (g : Ghost) : (s.atWidth b g).turns = s.turns := rfl
@[simp] theorem atWidth_pIn (s : State) (b : Params) (g : Ghost) : (s.atWidth b g).pIn = s.pIn := rfl
@[simp] theorem atWidth_cIn (s : State) (b : Params) (g : Ghost) : (s.atWidth b g).cIn = s.cIn := rfl
@[simp] theorem atWidth_port (s : State) (b : Params) (g : Ghost) : (s.atWidth b g).port = s.port := rfl
@[simp] theorem atWidth_descIn (s : State) (b : Params) (g : Ghost) : (s.atWidth b g).descIn = s.descIn := rfl

/-- The legal build `b` differs from that of `s` in `IDX_W` at most. -/
structure Rebuild (s : State) (b : Params) : Prop where
  wf : b.wf = true
  others : b = { s.build with idxW := b.idxW }

section AtWidth

variable {g : Ghost} {s : State} {b : Params} {n i : Word}

theorem Rebuild.maxCapacity (hb : Rebuild s b) : b.maxCapacity = s.build.maxCapacity := by rw [hb.others]

theorem Rebuild.slot_lt (hb : Rebuild s b) {a a' : Nat} (e : a' = a) (ha : a < s.build.maxCapacity) : a' < b.maxCapacity :=
  e ▸ ha.trans_eq hb.maxCapacity.symm

theorem Rebuild.unpackDescriptor (hb : Rebuild s b) (v : Nat) : unpackDescriptor b v = unpackDescriptor s.build v := by
  rw [hb.others]; rfl

theorem Rebuild.congr {t : State} (hb : Rebuild s b) (h : t.build = s.build) : Rebuild t b := ⟨hb.wf, h ▸ hb.others⟩

theorem Rebuild.wf_atWidth (hb : Rebuild s b) (g : Ghost) : (s.atWidth b g).build.wf = true := hb.wf

/-- The invariant speaks of the logical indices: it holds at every width. -/
theorem LiveInv.atWidth (h : LiveInv g s) (hb : Rebuild s b) : LiveInv g (s.atWidth b g) where
  __ := h
  capMax := h.capMax.trans hb.maxCapacity.ge
  headEq := rfl
  tailEq := rfl
  headCEq := rfl
  tailPEq := rfl
  hFlightEq := rfl
  tFlightEq := rfl

end AtWidth

theorem atWidth_respond (st : Status) (v : Word) (d : Option Descriptor) (s : State) (b : Params) (g : Ghost) :
    (respond st v d s).atWidth b g = respond st v d (s.atWidth b g) := by
  unfold respond State.atWidth
  cases s.port <;> rfl

theorem atWidth_advanceHead (s : State) {b : Params} (hb : b.idxW ≤ 32) (g : Ghost) (n : Word) (m : Memory) :
    (advanceHead n { s with slots := m }).atWidth b (g.enqueue n.toNat) = advanceHead n { s.atWidth b g with slots := m } := by
  simp [advanceHead, State.atWidth, Ghost.enqueue, idxAdd_idxOf hb]

theorem atWidth_advanceTail (s : State) {b : Params} (hb : b.idxW ≤ 32) (g : Ghost) (n : Word) :
    (advanceTail n s).atWidth b (g.dequeue n.toNat) = advanceTail n (s.atWidth b g) := by
  simp [advanceTail, State.atWidth, Ghost.dequeue, idxAdd_idxOf hb]

/-! ### Views and slots are those of the logical indices -/

section Views

variable {g : Ghost} {s : State} {b : Params}

/-- The P view is empty exactly when `H = T_p`. -/
theorem LiveInv.pEmpty_iff (hs : s.build.wf = true) (h : LiveInv g s) : s.head = s.tailP ↔ g.H = g.Tp := by
  have := h.capMin
  have h1 := h.chainT; have h2 := h.chainHc; have h3 := h.chainH; have h4 := h.chainCap
  rw [h.headEq, h.tailPEq]
  exact h.idxOf_inj hs (by omega) (by omega)

/-- A view is empty exactly when its count is 0 (R147). -/
theorem LiveInv.isEmptyView_iff (hs : s.build.wf = true) (h : LiveInv g s) (p : Port) :
    isEmptyView (viewOf p s) = true ↔ (countOf s.build s.mask (viewOf p s)).toNat = 0 := by
  have h1 := h.chainT; have h2 := h.chainHc; have h3 := h.chainH
  rw [isEmptyView, beq_iff_eq]
  cases p with
  | producer => rw [h.pView hs, viewOf, h.pEmpty_iff hs]; omega
  | consumer => rw [h.cView hs, viewOf, h.empty_iff hs]; omega

theorem LiveInv.countOf_atWidth (hs : s.build.wf = true) (h : LiveInv g s) (hb : Rebuild s b) (p : Port) :
    countOf b s.mask (viewOf p (s.atWidth b g)) = countOf s.build s.mask (viewOf p s) := by
  apply BitVec.eq_of_toNat_eq
  cases p with
  | producer => rw [h.pView hs]; exact (h.atWidth hb).pView (hb.wf_atWidth g)
  | consumer => rw [h.cView hs]; exact (h.atWidth hb).cView (hb.wf_atWidth g)

theorem LiveInv.isEmptyView_atWidth (hs : s.build.wf = true) (h : LiveInv g s) (hb : Rebuild s b) (p : Port) :
    isEmptyView (viewOf p (s.atWidth b g)) = isEmptyView (viewOf p s) := by
  rw [Bool.eq_iff_iff, h.isEmptyView_iff hs, (h.atWidth hb).isEmptyView_iff (hb.wf_atWidth g)]
  exact iff_of_eq (congrArg (fun w : Word => w.toNat = 0) (h.countOf_atWidth hs hb p))

theorem LiveInv.isFullView_atWidth (hs : s.build.wf = true) (h : LiveInv g s) (hb : Rebuild s b) (p : Port) :
    isFullView b s.mask (viewOf p (s.atWidth b g)) = isFullView s.build s.mask (viewOf p s) := by
  rw [isFullView, h.countOf_atWidth hs hb]; rfl

theorem LiveInv.spaceOf_atWidth (hs : s.build.wf = true) (h : LiveInv g s) (hb : Rebuild s b) (p : Port) :
    spaceOf b s.capacity s.mask (viewOf p (s.atWidth b g)) = spaceOf s.build s.capacity s.mask (viewOf p s) := by
  rw [spaceOf, h.countOf_atWidth hs hb]; rfl

/-- Every flag output is the same at every width. -/
theorem LiveInv.flagOutputs_atWidth (hs : s.build.wf = true) (h : LiveInv g s) (hb : Rebuild s b) (p : Port) :
    flagOutputs p (s.atWidth b g) = flagOutputs p s := by
  simp only [flagOutputs, atWidth_live, atWidth_build, atWidth_mask, atWidth_capacity, h.isEmptyView_atWidth hs hb,
    h.isFullView_atWidth hs hb, h.countOf_atWidth hs hb, h.spaceOf_atWidth hs hb]

theorem LiveInv.enqSlot_atWidth (hs : s.build.wf = true) (h : LiveInv g s) (hb : Rebuild s b) :
    Machine.enqSlot (s.atWidth b g) = Machine.enqSlot s := by
  rw [h.enqSlot hs]; exact (h.atWidth hb).enqSlot (hb.wf_atWidth g)

theorem LiveInv.enqdSlot_atWidth (hs : s.build.wf = true) (h : LiveInv g s) (hb : Rebuild s b) (i : Word) :
    Machine.enqdSlot i (s.atWidth b g) = Machine.enqdSlot i s := by
  rw [h.enqdSlot hs]; exact (h.atWidth hb).enqdSlot (hb.wf_atWidth g) i

theorem LiveInv.deqSlot_atWidth (hs : s.build.wf = true) (h : LiveInv g s) (hb : Rebuild s b) :
    Machine.deqSlot (s.atWidth b g) = Machine.deqSlot s := by
  rw [h.deqSlot hs]; exact (h.atWidth hb).deqSlot (hb.wf_atWidth g)

theorem LiveInv.deqdSlot_atWidth (hs : s.build.wf = true) (h : LiveInv g s) (hb : Rebuild s b) (i : Word) :
    Machine.deqdSlot i (s.atWidth b g) = Machine.deqdSlot i s := by
  rw [h.deqdSlot hs]; exact (h.atWidth hb).deqdSlot (hb.wf_atWidth g) i

end Views

/-! ### A command keeps the invariant and does the same at every width -/

/-- `i` takes the ring with logical indices `g` to `t`, which has the invariant, and does the same at every width. -/
def MovesAtWidths (i : Instr) (g : Ghost) (s t : State) : Prop :=
  ∃ g', LiveInv g' t ∧ ∀ b, Rebuild s b → exec i (s.atWidth b g) = .next (t.atWidth b g')

section Exec

variable {g : Ghost} {s t : State} {i : Instr}

/-- The response of a command is outside the invariant and the same at every width. -/
theorem MovesAtWidths.of_respond {g' : Ghost} {u : State} {st : Status} {v : Word} {d : Option Descriptor} (h : LiveInv g' u)
    (hx : ∀ b, Rebuild s b → exec i (s.atWidth b g) = .next (respond st v d (u.atWidth b g'))) :
    MovesAtWidths i g s (respond st v d u) :=
  ⟨g', h.respond st v d, fun b hb => by rw [hx b hb, atWidth_respond]⟩

theorem LiveInv.query (hs : s.build.wf = true) (h : LiveInv g s) (hq : isQuery i) (hx : exec i s = .next t) :
    MovesAtWidths i g s t := by
  cases i with
  | isEmpty a =>
    cases hx
    exact .of_respond h fun b hb => by simp only [exec, execIsEmpty, atWidth_port, h.isEmptyView_atWidth hs hb]
  | isFull a =>
    cases hx
    exact .of_respond h fun b hb => by
      simp only [exec, execIsFull, atWidth_port, atWidth_build, atWidth_mask, h.isFullView_atWidth hs hb]
  | space a =>
    cases hx
    exact .of_respond h fun b hb => by
      simp only [exec, execSpace, atWidth_port, atWidth_build, atWidth_mask, atWidth_capacity, h.spaceOf_atWidth hs hb]
  | count a =>
    cases hx
    exact .of_respond h fun b hb => by
      simp only [exec, execCount, atWidth_port, atWidth_build, atWidth_mask, h.countOf_atWidth hs hb]
  | enq | enqb | enqd | deq | peek | deqb | deqd => exact hq.elim

/-! The commands that move an index or a burst, one by one. -/

section Producer

variable (hs : s.build.wf = true) (h : LiveInv g s)
include hs h

/-- A P view that is not full has room for one item. -/
theorem LiveInv.room_of_not_full (hf : isFullView s.build s.mask (viewOf .producer s) = false) :
    1 ≤ s.capacity.toNat - 1 - (g.H - g.Tp) := by
  have hne := (h.full_iff hs).not.mp (by simp [hf])
  have := h.chainCap
  omega

theorem LiveInv.enq (hb : s.pBurst = .idle) (hf : isFullView s.build s.mask (viewOf .producer s) = false) :
    LiveInv (g.enqueue (1 : Word).toNat) (advanceHead 1 { s with slots := s.slots.write (Machine.enqSlot s) s.descIn }) := by
  have hinv := h.commitHead hs (n := 1) le_rfl (h.room_of_not_full hs hf) (s.slots.write (Machine.enqSlot s) s.descIn)
    (h.enqSlot hs ▸ h.written_write (k := 0) (by simp) s.descIn)
  simpa [advanceHead, ← hb] using hinv

theorem LiveInv.enqdBeat (n i : Word) (hb : s.pBurst = .opened n i) (hi : i.toNat + 1 < n.toNat) :
    LiveInv g { s with slots := s.slots.write (Machine.enqdSlot i s) s.descIn, pBurst := .opened n (i + 1) } :=
  h.enqdSlot hs i ▸ h.beatHead hb hi s.descIn

theorem LiveInv.enqdLast (n i : Word) (hb : s.pBurst = .opened n i) (hi : n.toNat ≤ i.toNat + 1) :
    LiveInv (g.enqueue n.toNat)
      { advanceHead n { s with slots := s.slots.write (Machine.enqdSlot i s) s.descIn } with pBurst := .idle } := by
  obtain ⟨hn, hroom, hin⟩ := h.pOk n i hb
  refine h.commitHead hs hn hroom _ fun x h1 h2 => ?_
  rw [h.enqdSlot hs]
  exact h.written_write (h.staged n i hb) s.descIn x h1 (by omega)

theorem LiveInv.enqb (len n : Word) (hn : n = minWord len (spaceOf s.build s.capacity s.mask (viewOf .producer s)))
    (h0 : n ≠ 0) : LiveInv g { s with pBurst := .opened n 0 } := by
  have h1 : n.toNat ≠ 0 := fun e => h0 (BitVec.eq_of_toNat_eq e)
  have h2 := congrArg BitVec.toNat hn
  rw [minWord_toNat, h.pSpace hs] at h2
  exact h.grantHead (by omega) (by omega)

end Producer

section Consumer

variable (hs : s.build.wf = true) (h : LiveInv g s)
include hs h

theorem LiveInv.deq (hb : s.cBurst = .idle) (he : s.headC ≠ s.tail) :
    LiveInv (g.dequeue (1 : Word).toNat) (advanceTail 1 s) := by
  have hne := (h.empty_iff hs).not.mp he
  have := h.chainHc
  have hinv := h.commitTail hs (n := 1) le_rfl (by rw [one_toNat]; omega)
  simpa [advanceTail, ← hb] using hinv

theorem LiveInv.deqdLast (n i : Word) (hb : s.cBurst = .opened n i) :
    LiveInv (g.dequeue n.toNat) { advanceTail n s with cBurst := .idle } := by
  obtain ⟨hn, hroom, _⟩ := h.cOk n i hb
  exact h.commitTail hs hn hroom

theorem LiveInv.deqb (req n : Word) (hn : n = minWord req (countOf s.build s.mask (viewOf .consumer s))) (h0 : n ≠ 0) :
    LiveInv g { s with cBurst := .opened n 0 } := by
  have h1 : n.toNat ≠ 0 := fun e => h0 (BitVec.eq_of_toNat_eq e)
  have h2 := congrArg BitVec.toNat hn
  rw [minWord_toNat, h.cView hs] at h2
  exact h.grantTail (by omega) (by omega)

end Consumer

/-- Every command of a live ring keeps the invariant and does the same at every width. -/
theorem LiveInv.exec_moves (h : LiveInv g s) (hs : s.build.wf = true) (hx : exec i s = .next t) : MovesAtWidths i g s t := by
  have hw : ∀ {b}, Rebuild s b → b.idxW ≤ 32 := fun hb => Params.idxW_le hb.wf
  have hfull : ∀ {b} {c : Bool}, isFullView s.build s.mask (viewOf .producer s) = c → Rebuild s b →
      isFullView b s.mask (viewOf .producer (s.atWidth b g)) = c := fun hf hb => (h.isFullView_atWidth hs hb _).trans hf
  have hempty : ∀ {b}, Rebuild s b → ((s.atWidth b g).headC = (s.atWidth b g).tail ↔ s.headC = s.tail) := fun hb => by
    rw [h.empty_iff hs]; exact (h.atWidth hb).empty_iff (hb.wf_atWidth g)
  cases exec_kind hx with
  | query _ _ hq => exact h.query hs hq hx
  | badCmd _ hq => exact .of_respond h fun b hb => exec_illegal hq
  | ringFull a hp hbu hf => exact .of_respond h fun b hb => exec_enq_full a hp hbu (hfull hf hb)
  | enq a hp hbu hf ha =>
    refine .of_respond (h.enq hs hbu hf) fun b hb => ?_
    have hslot := h.enqSlot_atWidth hs hb
    refine (exec_enq_next (s := s.atWidth b g) a hp hbu (hfull hf hb) (hb.slot_lt hslot ha)).trans ?_
    rw [hslot]
    exact congrArg _ (congrArg _ (atWidth_advanceHead s (hw hb) g 1 _).symm)
  | grantNoneP len hp hbu hn =>
    exact .of_respond h fun b hb => exec_enqb_none len hp hbu ((congrArg _ (h.spaceOf_atWidth hs hb _)).trans hn)
  | grantP len n hp hbu hn h0 =>
    exact .of_respond (h.enqb hs len n hn h0) fun b hb =>
      exec_enqb_next len n hp hbu (hn.trans (congrArg _ (h.spaceOf_atWidth hs hb _).symm)) h0
  | beatP a n j hp hbu ha hj =>
    refine .of_respond (h.enqdBeat hs n j hbu hj) fun b hb => ?_
    have hslot := h.enqdSlot_atWidth hs hb j
    refine (exec_enqd_beat (s := s.atWidth b g) a n j hp hbu (hb.slot_lt hslot ha) hj).trans ?_
    rw [hslot]
    rfl
  | commitP a n j hp hbu ha hj =>
    refine .of_respond (h.enqdLast hs n j hbu hj) fun b hb => ?_
    have hslot := h.enqdSlot_atWidth hs hb j
    refine (exec_enqd_commit (s := s.atWidth b g) a n j hp hbu (hb.slot_lt hslot ha) hj).trans ?_
    rw [hslot]
    exact congrArg (fun u : State => (.next (Machine.respond .ok 0 none { u with pBurst := .idle }) : Result))
      (atWidth_advanceHead s (hw hb) g n _).symm
  | ringEmptyDeq a hp hbu he => exact .of_respond h fun b hb => exec_deq_empty a hp hbu ((hempty hb).mpr he)
  | ringEmptyPeek a hp hbu he => exact .of_respond h fun b hb => exec_peek_empty a hp hbu ((hempty hb).mpr he)
  | deq a d hp hbu he ha hr =>
    refine .of_respond (h.deq hs hbu he) fun b hb => ?_
    have hslot := h.deqSlot_atWidth hs hb
    refine (exec_deq_next (s := s.atWidth b g) a hp hbu ((hempty hb).not.mpr he) (hb.slot_lt hslot ha)
      ((congrArg _ hslot).trans hr)).trans ?_
    exact congrArg _ (congrArg _ (atWidth_advanceTail s (hw hb) g 1).symm)
  | peek a d hp hbu he ha hr =>
    refine .of_respond h fun b hb => ?_
    have hslot := h.deqSlot_atWidth hs hb
    exact exec_peek_next (s := s.atWidth b g) a hp hbu ((hempty hb).not.mpr he) (hb.slot_lt hslot ha)
      ((congrArg _ hslot).trans hr)
  | grantNoneC req hp hbu hn =>
    exact .of_respond h fun b hb => exec_deqb_none req hp hbu ((congrArg _ (h.countOf_atWidth hs hb _)).trans hn)
  | grantC req n hp hbu hn h0 =>
    exact .of_respond (h.deqb hs req n hn h0) fun b hb =>
      exec_deqb_next req n hp hbu (hn.trans (congrArg _ (h.countOf_atWidth hs hb _).symm)) h0
  | beatC a n j d hp hbu ha hr hj =>
    refine .of_respond (h.beatTail hbu hj) fun b hb => ?_
    have hslot := h.deqdSlot_atWidth hs hb j
    exact exec_deqd_beat (s := s.atWidth b g) a n j hp hbu (hb.slot_lt hslot ha) ((congrArg _ hslot).trans hr) hj
  | commitC a n j d hp hbu ha hr hj =>
    refine .of_respond (h.deqdLast hs n j hbu) fun b hb => ?_
    have hslot := h.deqdSlot_atWidth hs hb j
    refine (exec_deqd_commit (s := s.atWidth b g) a n j hp hbu (hb.slot_lt hslot ha)
      ((congrArg _ hslot).trans hr) hj).trans ?_
    exact congrArg (fun u : State => (.next (Machine.respond .ok 0 (some d) { u with cBurst := .idle }) : Result))
      (atWidth_advanceTail s (hw hb) g n).symm

end Exec

/-! ### A step keeps the invariant and does the same at every width -/

/-- `g` are the logical indices of `s`: those of its live ring, or all 0 with no ring. -/
structure Indexes (g : Ghost) (s : State) : Prop where
  live : s.live = true → LiveInv g s
  rest : s.live = false → RestInv s ∧ g = .zero

theorem Inv.indexes {s : State} (h : Inv s) : ∃ g, Indexes g s := by
  cases hl : s.live with
  | true => obtain ⟨g, hg⟩ := h.live hl; exact ⟨g, fun _ => hg, by simp [hl]⟩
  | false => exact ⟨.zero, by simp [hl], fun _ => ⟨h.rest hl, rfl⟩⟩

theorem StorageOk.inv {g : Ghost} {s : State} (h : StorageOk s) (hg : Indexes g s) : Inv s :=
  ⟨h.build, h.canonical, h.inside, fun hl => ⟨g, hg.live hl⟩, fun hl => (hg.rest hl).1⟩

section Step

variable {g : Ghost} {s t : State} {b : Params}

theorem LiveInv.indexes (h : LiveInv g s) (hl : s.live = true) : Indexes g s := ⟨fun _ => h, by simp [hl]⟩

theorem RestInv.indexes (h : RestInv s) (hl : s.live = false) : Indexes .zero s := ⟨by simp [hl], fun _ => ⟨h, rfl⟩⟩

/-- The schedule is no part of the invariant. -/
theorem Indexes.turns (h : Indexes g s) (ts : List Turn) : Indexes g { s with turns := ts } :=
  ⟨fun hl => (h.live hl).congr rfl, fun hl => ⟨{ (h.rest hl).1 with }, (h.rest hl).2⟩⟩

@[simp] theorem idxOf_zero (b : Params) : idxOf b 0 = 0 := by simp [idxOf]

/-- The registers of a state hold its logical indices, with and without a ring. -/
theorem Indexes.atWidth_self (h : Indexes g s) : s.atWidth s.build g = s := by
  cases hl : s.live with
  | true =>
    have hg := h.live hl
    simp only [State.atWidth, ← hg.headEq, ← hg.tailEq, ← hg.headCEq, ← hg.tailPEq, ← hg.hFlightEq, ← hg.tFlightEq]
  | false =>
    obtain ⟨⟨h1, h2, h3, h4, h5, h6, _⟩, rfl⟩ := h.rest hl
    cases s
    simp_all [State.atWidth, Ghost.zero]

theorem Accepted.liveInv {u : State} (h : LiveInv g s) (hu : Accepted s u) : LiveInv g u := h.congr (by rw [hu.latches])

theorem deliverHead_pass {k : Nat} (h : s.live = false ∨ k = 0 ∨ s.hFlight.length < k) : deliverHead k s = s := by
  rcases deliverHead_cases k s with ⟨e, _⟩ | ⟨v, hl, hk, hv, _⟩
  · exact e
  · have := (List.getElem?_eq_some_iff.mp hv).1
    rcases h with h | h | h
    · simp [hl] at h
    · omega
    · omega

theorem deliverTail_pass {k : Nat} (h : s.live = false ∨ k = 0 ∨ s.tFlight.length < k) : deliverTail k s = s := by
  rcases deliverTail_cases k s with ⟨e, _⟩ | ⟨v, hl, hk, hv, _⟩
  · exact e
  · have := (List.getElem?_eq_some_iff.mp hv).1
    rcases h with h | h | h
    · simp [hl] at h
    · omega
    · omega

theorem deliverHead_next {k : Nat} {v : Idx} (hl : s.live = true) (hk : 1 ≤ k) (hv : s.hFlight[k - 1]? = some v) :
    deliverHead k s = { s with headC := v, hFlight := s.hFlight.drop k } := by
  simp [deliverHead, hl, hk, hv]

theorem deliverTail_next {k : Nat} {v : Idx} (hl : s.live = true) (hk : 1 ≤ k) (hv : s.tFlight[k - 1]? = some v) :
    deliverTail k s = { s with tailP := v, tFlight := s.tFlight.drop k } := by
  simp [deliverTail, hl, hk, hv]

theorem Indexes.hFlight_length (h : Indexes g s) : g.hs.length = s.hFlight.length := by
  rw [← h.atWidth_self]; simp [State.atWidth]

theorem Indexes.tFlight_length (h : Indexes g s) : g.ts.length = s.tFlight.length := by
  rw [← h.atWidth_self]; simp [State.atWidth]

theorem Indexes.deliverHead (h : Indexes g s) (k : Nat) : ∃ g', Indexes g' (deliverHead k s) ∧
    ∀ b, deliverHead k (s.atWidth b g) = (deliverHead k s).atWidth b g' := by
  rcases deliverHead_cases k s with ⟨e, hpass⟩ | ⟨v, hl, hk, hv, e⟩
  · refine ⟨g, e.symm ▸ h, fun b => ?_⟩
    rw [e]
    exact deliverHead_pass (by simpa [State.atWidth, h.hFlight_length] using hpass)
  · have hg := h.live hl
    obtain ⟨x, hx, rfl⟩ : ∃ x, g.hs[k - 1]? = some x ∧ idxOf s.build x = v := by simpa [hg.hFlightEq] using hv
    refine ⟨g.deliverHead k x, e.symm ▸ (hg.deliverHead hk hx).indexes hl, fun b => ?_⟩
    rw [deliverHead_next (s := s.atWidth b g) (v := idxOf b x) hl hk (by simp [State.atWidth, hx]), e]
    simp [State.atWidth, Ghost.deliverHead, List.map_drop]

theorem Indexes.deliverTail (h : Indexes g s) (k : Nat) : ∃ g', Indexes g' (deliverTail k s) ∧
    ∀ b, deliverTail k (s.atWidth b g) = (deliverTail k s).atWidth b g' := by
  rcases deliverTail_cases k s with ⟨e, hpass⟩ | ⟨v, hl, hk, hv, e⟩
  · refine ⟨g, e.symm ▸ h, fun b => ?_⟩
    rw [e]
    exact deliverTail_pass (by simpa [State.atWidth, h.tFlight_length] using hpass)
  · have hg := h.live hl
    obtain ⟨x, hx, rfl⟩ : ∃ x, g.ts[k - 1]? = some x ∧ idxOf s.build x = v := by simpa [hg.tFlightEq] using hv
    refine ⟨g.deliverTail k x, e.symm ▸ (hg.deliverTail hk hx).indexes hl, fun b => ?_⟩
    rw [deliverTail_next (s := s.atWidth b g) (v := idxOf b x) hl hk (by simp [State.atWidth, hx]), e]
    simp [State.atWidth, Ghost.deliverTail, List.map_drop]

/-- With no ring a state rests: after RESET and after a CONSTRUCT that fails (R240, R244). -/
theorem restInv_noRing (s : State) {st : Status} (hst : st = .ok ∨ st = .invalidCapacity ∨ st = .allocFail) :
    RestInv { forgetCapacity (clearIndices s) with cfgStatus := st, live := false } :=
  ⟨rfl, rfl, rfl, rfl, rfl, rfl, rfl, rfl, hst⟩

theorem clearIndices_atWidth (s : State) (b : Params) (g : Ghost) :
    clearIndices (s.atWidth b g) = (clearIndices s).atWidth b .zero := by
  simp [clearIndices, State.atWidth, Ghost.zero]

theorem constructRing_moves (g : Ghost) (cap : Word) (s : State) : ∃ g', Indexes g' (constructRing cap s) ∧
    ∀ b, Rebuild s b → constructRing cap (s.atWidth b g) = (constructRing cap s).atWidth b g' := by
  have hst : ∀ {b}, Rebuild s b → capacityStatus (s.atWidth b g).build cap = capacityStatus s.build cap :=
    fun hb => by simp only [capacityStatus, atWidth_build, hb.maxCapacity]
  rcases constructRing_cases cap s with ⟨hok, e⟩ | ⟨st, hfail, hs, e⟩
  · refine ⟨.zero, e ▸ (LiveInv.constructed hok).indexes rfl, fun b hb => ?_⟩
    simp only [constructRing, hst hb, hok, clearIndices_atWidth]
    rfl
  · refine ⟨.zero, e ▸ (restInv_noRing s (.inr hfail)).indexes rfl, fun b hb => ?_⟩
    rcases hfail with rfl | rfl <;> simp only [constructRing, hst hb, hs, clearIndices_atWidth] <;> rfl

theorem Indexes.hostConstruct (h : Indexes g s) (cap : Word) : ∃ g', Indexes g' (hostConstruct cap s) ∧
    ∀ b, Rebuild s b → hostConstruct cap (s.atWidth b g) = (hostConstruct cap s).atWidth b g' := by
  by_cases he : s.live = false ∧ s.cfgStatus = .ok
  · obtain ⟨g', hg', hb⟩ := constructRing_moves g cap s
    refine ⟨g', by simpa [Machine.hostConstruct, he] using hg', fun b hr => ?_⟩
    simp only [Machine.hostConstruct, atWidth_live, atWidth_cfgStatus, if_pos he, hb b hr]
  · refine ⟨g, by simpa only [Machine.hostConstruct, if_neg he] using h, fun b _ => ?_⟩
    simp only [Machine.hostConstruct, atWidth_live, atWidth_cfgStatus, he, if_false]

theorem hostReset_atWidth (s : State) (b : Params) (g : Ghost) :
    hostReset (s.atWidth b g) = (hostReset s).atWidth b .zero := by
  rw [hostReset, clearIndices_atWidth]; rfl

/-- The step from `s` with logical indices `g` to `t` keeps them logical indices, and goes the same way at every width. -/
def StepsAtWidths (g : Ghost) (s t : State) : Prop :=
  ∃ g', Indexes g' t ∧ ∀ b, Rebuild s b → step (s.atWidth b g) = .next (t.atWidth b g')

/-! P's and C's accepted commands, forwards. -/

theorem step_commandP {ts : List Turn} {c : PCmd} {rest : List PCmd} {i : Instr} (hts : s.turns = .p :: ts)
    (hl : s.live = true) (hi : s.pIn = c :: rest) (hd : decode c.hdr = .ok i) :
    step s = exec i (acceptedP s ts c rest) := by
  simp [step, takeTurn, hts, acceptProducer, acceptedP, hl, hi, hd]

theorem step_reservedP {ts : List Turn} {c : PCmd} {rest : List PCmd} {e : DecodeError} (hts : s.turns = .p :: ts)
    (hl : s.live = true) (hi : s.pIn = c :: rest) (hd : decode c.hdr = .error e) :
    step s = .next (fail .badCmd (acceptedP s ts c rest)) := by
  simp [step, takeTurn, hts, acceptProducer, acceptedP, hl, hi, hd]

theorem step_commandC {ts : List Turn} {w : Header} {rest : List Header} {i : Instr} (hts : s.turns = .c :: ts)
    (hl : s.live = true) (hi : s.cIn = w :: rest) (hd : decode w = .ok i) :
    step s = exec i (acceptedC s ts rest) := by
  simp [step, takeTurn, hts, acceptConsumer, acceptedC, hl, hi, hd]

theorem step_reservedC {ts : List Turn} {w : Header} {rest : List Header} {e : DecodeError} (hts : s.turns = .c :: ts)
    (hl : s.live = true) (hi : s.cIn = w :: rest) (hd : decode w = .error e) :
    step s = .next (fail .badCmd (acceptedC s ts rest)) := by
  simp [step, takeTurn, hts, acceptConsumer, acceptedC, hl, hi, hd]

theorem acceptedP_atWidth (ts : List Turn) (c : PCmd) (rest : List PCmd) (hb : Rebuild s b) :
    acceptedP (s.atWidth b g) ts c rest = (acceptedP s ts c rest).atWidth b g := by
  simp only [acceptedP, atWidth_build, hb.unpackDescriptor]; rfl

/-- R37 and the invariant of logical indices, for every step of every agent. -/
theorem step_moves (hw : s.build.wf = true) (h : Indexes g s) (hx : step s = .next t) : StepsAtWidths g s t := by
  have hk := step_kind_next hx
  generalize hr : Host.Outcome.next t = r at hk
  cases hk with
  | idle hts => cases hr; exact ⟨g, h, fun b _ => by simp [step, takeTurn, hts]⟩
  | passP ts hts hn =>
    cases hr
    refine ⟨g, h.turns ts, fun b _ => ?_⟩
    rcases hn with hn | hn <;> simp [step, takeTurn, hts, acceptProducer, hn] <;> rfl
  | passC ts hts hn =>
    cases hr
    refine ⟨g, h.turns ts, fun b _ => ?_⟩
    rcases hn with hn | hn <;> simp [step, takeTurn, hts, acceptConsumer, hn] <;> rfl
  | reservedP ts c rest e hts hl hi hd =>
    cases hr
    have ha := (accepted_acceptedP hl ts c rest).liveInv (h.live hl)
    refine ⟨g, (ha.respond .badCmd 0 none).indexes hl, fun b hb => ?_⟩
    rw [step_reservedP (s := s.atWidth b g) hts hl hi hd, acceptedP_atWidth ts c rest hb]
    rfl
  | reservedC ts w rest e hts hl hi hd =>
    cases hr
    have ha := (accepted_acceptedC hl ts rest).liveInv (h.live hl)
    refine ⟨g, (ha.respond .badCmd 0 none).indexes hl, fun b hb => ?_⟩
    rw [step_reservedC (s := s.atWidth b g) hts hl hi hd]
    rfl
  | commandP ts c rest i hts hl hi hd =>
    have ha := (accepted_acceptedP hl ts c rest).liveInv (h.live hl)
    obtain ⟨g', hg', hmove⟩ := ha.exec_moves hw hr.symm
    refine ⟨g', hg'.indexes ((exec_sameConfig hr.symm).live.trans hl), fun b hb => ?_⟩
    rw [step_commandP (s := s.atWidth b g) hts hl hi hd, acceptedP_atWidth ts c rest hb]
    exact hmove b (hb.congr rfl)
  | commandC ts w rest i hts hl hi hd =>
    have ha := (accepted_acceptedC hl ts rest).liveInv (h.live hl)
    obtain ⟨g', hg', hmove⟩ := ha.exec_moves hw hr.symm
    refine ⟨g', hg'.indexes ((exec_sameConfig hr.symm).live.trans hl), fun b hb => ?_⟩
    rw [step_commandC (s := s.atWidth b g) hts hl hi hd]
    exact hmove b (hb.congr rfl)
  | sh k ts hts =>
    cases hr
    obtain ⟨g', hg', hmove⟩ := (h.turns ts).deliverHead k
    exact ⟨g', hg', fun b _ => by rw [← hmove b]; simp only [step, takeTurn, atWidth_turns, hts]; rfl⟩
  | st k ts hts =>
    cases hr
    obtain ⟨g', hg', hmove⟩ := (h.turns ts).deliverTail k
    exact ⟨g', hg', fun b _ => by rw [← hmove b]; simp only [step, takeTurn, atWidth_turns, hts]; rfl⟩
  | construct cap ts hts =>
    cases hr
    obtain ⟨g', hg', hmove⟩ := (h.turns ts).hostConstruct cap
    exact ⟨g', hg', fun b hb => by rw [← hmove b (hb.congr rfl)]; simp only [step, takeTurn, atWidth_turns, hts]; rfl⟩
  | resetRing ts hts =>
    cases hr
    refine ⟨.zero, (restInv_noRing { s with turns := ts } (.inl rfl)).indexes rfl, fun b _ => ?_⟩
    rw [← hostReset_atWidth _ b g]; simp only [step, takeTurn, atWidth_turns, hts]; rfl

end Step

/-! ### The obligations on the invariant -/

theorem Inv.step {s t : State} (h : Inv s) (hx : step s = .next t) : Inv t := by
  obtain ⟨g, hg⟩ := h.indexes
  obtain ⟨g', hg', _⟩ := step_moves h.build hg hx
  exact (h.storageOk.step hx).inv hg'

/-- Settles O45: what holds with and without a ring is kept (`StorageOk.step`), and the logical indices move to logical
indices (`step_moves`). -/
theorem everyStepKeepsTheInvariant : Obligations.EveryStepKeepsTheInvariant := fun _ _ h hx => h.step hx

/-- Under the invariant no command stops: its slot exists, and one that it reads is written (R28, R64). -/
theorem LiveInv.not_execStops {g : Ghost} {s : State} {i : Instr} {f : Fault} (hs : s.build.wf = true) (h : LiveInv g s) :
    ¬ ExecStops s i f := by
  have hstore : ∀ x, storeSlot (x % s.capacity.toNat) s.descIn s ≠ .error f := fun x he =>
    absurd (storeSlot_error_iff.mp he).1 (Nat.not_le.mpr (h.slot_lt x))
  have hload : ∀ x, g.T ≤ x → x < g.H → loadSlot (x % s.capacity.toNat) s ≠ .error f := by
    intro x h1 h2 he
    rcases loadSlot_error_iff.mp he with ⟨_, hr, _⟩ | ⟨hm, _⟩
    · have := h.written x h1 h2; simp [hr] at this
    · exact absurd hm (Nat.not_le.mpr (h.slot_lt x))
  have hH := h.chainH
  have hHc := h.chainHc
  intro hstop
  cases hstop with
  | enq a _ hp hb hf he => exact hstore g.H (h.enqSlot hs ▸ he)
  | enqd a n i _ hp hb he => exact hstore _ (h.enqdSlot hs i ▸ he)
  | deq a _ hp hb hne he =>
    have := (h.empty_iff hs).not.mp hne
    exact hload g.T le_rfl (by omega) (h.deqSlot hs ▸ he)
  | peek a _ hp hb hne he =>
    have := (h.empty_iff hs).not.mp hne
    exact hload g.T le_rfl (by omega) (h.deqSlot hs ▸ he)
  | deqd a n i _ hp hb he =>
    obtain ⟨_, h2, h3⟩ := h.cOk n i hb
    exact hload (g.T + i.toNat) (Nat.le_add_right _ _) (by omega) (h.deqdSlot hs i ▸ he)

/-- Under the invariant every command answers a next state. -/
theorem LiveInv.exec_next {g : Ghost} {s : State} (h : LiveInv g s) (hs : s.build.wf = true) (i : Instr) :
    ∃ t, exec i s = .next t :=
  (exec_total i s).resolve_right fun ⟨_, _, hf⟩ => h.not_execStops hs hf

/-- Settles O48: only an accepted command could stop, and it stops at no slot access (`LiveInv.not_execStops`); the next
state has the invariant by O45. -/
theorem noStepFaults : Obligations.NoStepFaults := by
  intro s h
  obtain ⟨g, hg⟩ := h.indexes
  have hnext : ∃ t, step s = .next t := by
    have hk := step_kind s
    generalize step s = r at hk
    cases hk with
    | commandP ts c rest i _ hl => exact ((accepted_acceptedP hl ts c rest).liveInv (hg.live hl)).exec_next h.build i
    | commandC ts w rest i _ hl => exact ((accepted_acceptedC hl ts rest).liveInv (hg.live hl)).exec_next h.build i
    | idle | passP | passC | reservedP | reservedC | sh | st | construct | resetRing => exact ⟨_, rfl⟩
  obtain ⟨t, ht⟩ := hnext
  exact ⟨t, ht, h.step ht⟩

/-- States of two widths with the same logical indices are one state, rendered at the two widths. -/
theorem SameUpToIndexWidth.indexes {s s' : State} (h : SameUpToIndexWidth s s') (hs : Inv s) (hs' : Inv s') :
    ∃ g, Indexes g s ∧ s' = s.atWidth s'.build g := by
  have hlive : s'.live = s.live := by rw [h.others]
  obtain ⟨g, hg, hg'⟩ : ∃ g, Indexes g s ∧ Indexes g s' := by
    cases hl : s.live with
    | true => obtain ⟨g, hg, hg'⟩ := h.logical hl; exact ⟨g, hg.indexes hl, hg'.indexes (hlive.trans hl)⟩
    | false => exact ⟨.zero, (hs.rest hl).indexes hl, (hs'.rest (hlive.trans hl)).indexes (hlive.trans hl)⟩
  refine ⟨g, hg, ?_⟩
  conv_lhs => rw [← hg'.atWidth_self, h.others]
  rfl

/-- Settles O57: both states are one, rendered at two widths; the flags do not see the width
(`LiveInv.flagOutputs_atWidth`) and the step goes the same way at both (`step_moves`). -/
theorem indexWidthIsUnobservable : Obligations.IndexWidthIsUnobservable := by
  intro s s' t hs hs' hsame hx
  obtain ⟨g, hg, e⟩ := hsame.indexes hs hs'
  have hb : Rebuild s s'.build := ⟨hs'.build, hsame.build⟩
  obtain ⟨g', hg', hmove⟩ := step_moves hs.build hg hx
  constructor
  · intro p
    rw [e]
    cases hl : s.live with
    | true => exact ((hg.live hl).flagOutputs_atWidth hs.build hb p).symm
    | false => simp [flagOutputs, hl]
  · have hbt : Rebuild t s'.build := hb.congr (step_config hx).1
    exact ⟨t.atWidth s'.build g', e ▸ hmove _ hb,
      ⟨hbt.others, rfl, fun hl => ⟨g', hg'.live hl, (hg'.live hl).atWidth hbt⟩⟩, rfl, rfl, rfl⟩

end Sys2Proof.Machine

/-! ## How the index registers move, and their widths (R20, R24, R25) -/

namespace Sys2Proof.Machine

open Sys2Proof

/-! ### Which commands move an index -/

/-- On P, ENQ commits 1 item and the last beat of a burst of `n` commits `n`. -/
def CommitsHead (i : Instr) (s : State) (n : Word) : Prop :=
  s.port = .producer ∧ ((∃ a, i = .enq a ∧ s.pBurst = .idle ∧ n = 1)
    ∨ ∃ a j, i = .enqd a ∧ s.pBurst = .opened n j ∧ n.toNat ≤ j.toNat + 1)

/-- On C, DEQ takes 1 item and the last beat of a burst of `n` takes `n`. -/
def CommitsTail (i : Instr) (s : State) (n : Word) : Prop :=
  s.port = .consumer ∧ ((∃ a, i = .deq a ∧ s.cBurst = .idle ∧ n = 1)
    ∨ ∃ a j, i = .deqd a ∧ s.cBurst = .opened n j ∧ n.toNat ≤ j.toNat + 1)

/-- What a command does to `head` and `h_flight`. -/
theorem exec_head {i : Instr} {s t : State} (h : exec i s = .next t) :
    (t.head = s.head ∧ t.hFlight = s.hFlight)
    ∨ ∃ n, CommitsHead i s n ∧ t.head = idxAdd s.build s.head n
        ∧ t.hFlight = s.hFlight ++ [idxAdd s.build s.head n] := by
  cases exec_kind h
  case enq a hp hb _ _ => exact .inr ⟨1, ⟨hp, .inl ⟨a, rfl, hb, rfl⟩⟩, by simp, by simp⟩
  case commitP a n j hp hb _ hj => exact .inr ⟨n, ⟨hp, .inr ⟨a, j, rfl, hb, hj⟩⟩, by simp, by simp⟩
  all_goals exact .inl ⟨by simp [fail], by simp [fail]⟩

/-- What a command does to `tail` and `t_flight`. -/
theorem exec_tail {i : Instr} {s t : State} (h : exec i s = .next t) :
    (t.tail = s.tail ∧ t.tFlight = s.tFlight)
    ∨ ∃ n, CommitsTail i s n ∧ t.tail = idxAdd s.build s.tail n
        ∧ t.tFlight = s.tFlight ++ [idxAdd s.build s.tail n] := by
  cases exec_kind h
  case deq a d hp hb _ _ _ => exact .inr ⟨1, ⟨hp, .inl ⟨a, rfl, hb, rfl⟩⟩, by simp, by simp⟩
  case commitC a n j d hp hb _ _ hj => exact .inr ⟨n, ⟨hp, .inr ⟨a, j, rfl, hb, hj⟩⟩, by simp, by simp⟩
  all_goals exact .inl ⟨by simp [fail], by simp [fail]⟩

/-- No command writes a copy of an index or the latch of the descriptor wires. -/
theorem exec_copies {i : Instr} {s t : State} (h : exec i s = .next t) :
    t.headC = s.headC ∧ t.tailP = s.tailP ∧ t.descIn = s.descIn := by
  cases exec_kind h <;> simp [fail]

/-- On a live ring CONSTRUCT is no step (R240). -/
theorem hostConstruct_live {s : State} (h : s.live = true) (cap : Word) : hostConstruct cap s = s := by
  simp [hostConstruct, h]

theorem deliverHead_registers (k : Nat) (s : State) : (deliverHead k s).head = s.head ∧ (deliverHead k s).tail = s.tail := by
  rcases deliverHead_cases k s with ⟨e, _⟩ | ⟨_, _, _, _, e⟩ <;> rw [e] <;> exact ⟨rfl, rfl⟩

theorem deliverTail_registers (k : Nat) (s : State) : (deliverTail k s).head = s.head ∧ (deliverTail k s).tail = s.tail := by
  rcases deliverTail_cases k s with ⟨e, _⟩ | ⟨_, _, _, _, e⟩ <;> rw [e] <;> exact ⟨rfl, rfl⟩

/-- A step of a ring live before and after moves no index, or is a port's command that commits. -/
theorem step_registers {s t : State} (h : step s = .next t) (hs : s.live = true) (ht : t.live = true) :
    (t.head = s.head ∧ t.tail = s.tail)
    ∨ (t.tail = s.tail ∧ ∃ ts c rest i n, s.turns = .p :: ts ∧ s.pIn = c :: rest ∧ decode c.hdr = .ok i
        ∧ CommitsHead i (acceptedP s ts c rest) n ∧ t.head = idxAdd s.build s.head n)
    ∨ (t.head = s.head ∧ ∃ ts w rest i n, s.turns = .c :: ts ∧ s.cIn = w :: rest ∧ decode w = .ok i
        ∧ CommitsTail i (acceptedC s ts rest) n ∧ t.tail = idxAdd s.build s.tail n) := by
  have hk := step_kind_next h
  generalize hr : Host.Outcome.next t = r at hk
  cases hk with
  | idle | passP | passC | reservedP | reservedC => cases hr; exact .inl ⟨rfl, rfl⟩
  | sh k ts => cases hr; exact .inl (deliverHead_registers k { s with turns := ts })
  | st k ts => cases hr; exact .inl (deliverTail_registers k { s with turns := ts })
  | construct cap ts => cases hr; rw [hostConstruct_live (s := { s with turns := ts }) hs]; exact .inl ⟨rfl, rfl⟩
  | resetRing ts => cases hr; cases ht
  | commandP ts c rest i hts hl hi hd =>
    have htail : t.tail = s.tail := by
      rcases exec_tail hr.symm with ⟨e, _⟩ | ⟨_, ⟨hp, _⟩, _⟩
      · exact e
      · cases hp
    rcases exec_head hr.symm with ⟨e, _⟩ | ⟨n, hn, e, _⟩
    · exact .inl ⟨e, htail⟩
    · exact .inr (.inl ⟨htail, ts, c, rest, i, n, hts, hi, hd, hn, e⟩)
  | commandC ts w rest i hts hl hi hd =>
    have hhead : t.head = s.head := by
      rcases exec_head hr.symm with ⟨e, _⟩ | ⟨_, ⟨hp, _⟩, _⟩
      · exact e
      · cases hp
    rcases exec_tail hr.symm with ⟨e, _⟩ | ⟨n, hn, e, _⟩
    · exact .inl ⟨hhead, e⟩
    · exact .inr (.inr ⟨hhead, ts, w, rest, i, n, hts, hi, hd, hn, e⟩)

/-- Settles O39: `step_registers`, with the commands that commit written out. -/
theorem indicesMoveOnlyByTheirCommands : Obligations.IndicesMoveOnlyByTheirCommands := by
  intro s t h hs ht
  constructor
  · intro hne
    rcases step_registers h hs ht with ⟨e, _⟩ | ⟨_, ts, c, rest, i, n, hts, hi, hd, ⟨_, hn⟩, e⟩ | ⟨e, _⟩
    · exact absurd e hne
    · rcases hn with ⟨a, rfl, hb, rfl⟩ | ⟨a, j, rfl, hb, hj⟩
      · exact ⟨c, rest, ts, a, hts, hi, .inl ⟨hd, hb, e⟩⟩
      · exact ⟨c, rest, ts, a, hts, hi, .inr ⟨n, j, hd, hb, hj, e⟩⟩
    · exact absurd e hne
  · intro hne
    rcases step_registers h hs ht with ⟨_, e⟩ | ⟨e, _⟩ | ⟨_, ts, w, rest, i, n, hts, hi, hd, ⟨_, hn⟩, e⟩
    · exact absurd e hne
    · exact absurd e hne
    · rcases hn with ⟨a, rfl, hb, rfl⟩ | ⟨a, j, rfl, hb, hj⟩
      · exact ⟨w, rest, ts, a, hts, hi, .inl ⟨hd, hb, e⟩⟩
      · exact ⟨w, rest, ts, a, hts, hi, .inr ⟨n, j, hd, hb, hj, e⟩⟩

/-! ### Widths (R20, R21) -/

section Widths

variable {s t : State}

/-- The schedule, the streams and the responses are no part of the widths. -/
theorem WidthsOk.turns (h : WidthsOk s) (ts : List Turn) : WidthsOk { s with turns := ts } := { h with }

theorem WidthsOk.respond (h : WidthsOk s) (st : Status) (v : Word) (d : Option Descriptor) : WidthsOk (respond st v d s) := by
  unfold Machine.respond
  cases s.port <;> exact { h with }

/-- What is taken off the descriptor wires fits (R106). -/
theorem WidthsOk.accepted (h : WidthsOk s) {u : State} (hu : Accepted s u) : WidthsOk u := by
  have hd : u.descIn.wf s.build = true := by
    rcases hu.desc with e | ⟨v, e⟩ <;> rw [e]
    · exact h.descIn
    · exact unpackDescriptor_wf _ v
  rw [hu.latches]
  exact { h with descIn := hd }

theorem WidthsOk.exec (h : WidthsOk s) {i : Instr} (hx : exec i s = .next t) : WidthsOk t := by
  obtain ⟨hheadC, htailP, hdesc⟩ := exec_copies hx
  have hb := (exec_sameConfig hx).build
  have hhead : t.head.toNat < 2 ^ s.build.idxW ∧ ∀ v ∈ t.hFlight, v.toNat < 2 ^ s.build.idxW := by
    rcases exec_head hx with ⟨e, ef⟩ | ⟨n, _, e, ef⟩ <;> rw [e, ef]
    · exact ⟨h.head, h.hFlight⟩
    · exact ⟨idxAdd_lt _ _ _, List.forall_mem_append.mpr ⟨h.hFlight, by simp [idxAdd_lt]⟩⟩
  have htail : t.tail.toNat < 2 ^ s.build.idxW ∧ ∀ v ∈ t.tFlight, v.toNat < 2 ^ s.build.idxW := by
    rcases exec_tail hx with ⟨e, ef⟩ | ⟨n, _, e, ef⟩ <;> rw [e, ef]
    · exact ⟨h.tail, h.tFlight⟩
    · exact ⟨idxAdd_lt _ _ _, List.forall_mem_append.mpr ⟨h.tFlight, by simp [idxAdd_lt]⟩⟩
  have hslots : ∀ x ∈ t.slots, x.2.wf s.build = true := by
    intro x hmem
    rw [exec_slots hx] at hmem
    cases ha : storedSlot i s with
    | none => exact h.slots x (by simpa [ha] using hmem)
    | some a =>
      rcases Memory.mem_write (by simpa [ha] using hmem) with rfl | hmem
      · exact h.descIn
      · exact h.slots x hmem
  exact {
    head := hb ▸ hhead.1, tail := hb ▸ htail.1, hFlight := hb ▸ hhead.2, tFlight := hb ▸ htail.2, slots := hb ▸ hslots
    headC := by rw [hb, hheadC]; exact h.headC
    tailP := by rw [hb, htailP]; exact h.tailP
    descIn := by rw [hb, hdesc]; exact h.descIn }

theorem WidthsOk.deliverHead (h : WidthsOk s) (k : Nat) : WidthsOk (deliverHead k s) := by
  rcases deliverHead_cases k s with ⟨e, _⟩ | ⟨v, _, _, hv, e⟩ <;> rw [e]
  · exact h
  · exact { h with
      headC := h.hFlight v (List.mem_of_getElem? hv)
      hFlight := fun w hw => h.hFlight w (List.mem_of_mem_drop hw) }

theorem WidthsOk.deliverTail (h : WidthsOk s) (k : Nat) : WidthsOk (deliverTail k s) := by
  rcases deliverTail_cases k s with ⟨e, _⟩ | ⟨v, _, _, hv, e⟩ <;> rw [e]
  · exact h
  · exact { h with
      tailP := h.tFlight v (List.mem_of_getElem? hv)
      tFlight := fun w hw => h.tFlight w (List.mem_of_mem_drop hw) }

/-- Indices 0 and nothing in flight fit every width. -/
theorem WidthsOk.clearIndices (h : WidthsOk s) : WidthsOk (clearIndices s) :=
  have h0 : (0 : Idx).toNat < 2 ^ s.build.idxW := Nat.two_pow_pos _
  { h with
    head := h0, tail := h0, headC := h0, tailP := h0
    hFlight := fun _ hv => nomatch hv
    tFlight := fun _ hv => nomatch hv }

theorem WidthsOk.constructRing (h : WidthsOk s) (cap : Word) : WidthsOk (constructRing cap s) := by
  rcases constructRing_cases cap s with ⟨_, e⟩ | ⟨_, _, _, e⟩ <;> rw [e]
  · exact { h.clearIndices with slots := fun _ hx => nomatch hx }
  · exact { h.clearIndices with }

theorem WidthsOk.hostConstruct (h : WidthsOk s) (cap : Word) : WidthsOk (hostConstruct cap s) := by
  unfold Machine.hostConstruct
  split
  · exact h.constructRing cap
  · exact h

end Widths

/-- Settles O47, agent by agent. -/
theorem everyStepKeepsTheWidths : Obligations.EveryStepKeepsTheWidths := by
  intro s t h hx
  cases step_move hx with
  | pass ts => exact h.turns ts
  | reserved u ha => exact (h.accepted ha).respond _ _ _
  | command i u t ha hx => exact (h.accepted ha).exec hx
  | sh k ts => exact (h.turns ts).deliverHead k
  | st k ts => exact (h.turns ts).deliverTail k
  | construct cap ts => exact (h.turns ts).hostConstruct cap
  | resetRing ts => exact { (h.turns ts).clearIndices with }

/-! ### The state after reset (R39, R246) -/

/-- Settles O46: all registers are 0, and the 0 in the latch of the descriptor wires fits. -/
theorem widthsAtReset : Obligations.WidthsAtReset where
  head := by decide
  tail := by decide
  headC := by decide
  tailP := by decide
  hFlight := fun _ hv => nomatch hv
  tFlight := fun _ hv => nomatch hv
  slots := fun _ hx => nomatch hx
  descIn := by decide

/-- Settles O44: with no ring, the resting values. -/
theorem invariantAtReset : Obligations.InvariantAtReset where
  build := by decide
  canonical := reset_slots_wf
  inside := fun _ hx => nomatch hx
  live := fun hl => nomatch hl
  rest := fun _ => ⟨rfl, rfl, rfl, rfl, rfl, rfl, rfl, rfl, .inl rfl⟩

/-- Settles O32: the fields of `State.reset`, whose schedule is empty. -/
theorem resetStateIsTheOneResetLeaves : Obligations.ResetStateIsTheOneResetLeaves :=
  ⟨rfl, rfl, rfl, rfl, rfl, rfl, rfl, rfl, rfl, rfl, fun _ => rfl, rfl⟩

/-! ### Where a slot access stops (R28, R60) -/

/-- Settles O26: each clause is a way to stop (`ExecStops`) with the slot and the error of its access. -/
theorem slotAccessFaultsByName : Obligations.SlotAccessFaultsByName := by
  intro a n i s
  refine ⟨fun hp hb hne => ⟨fun hm hr => ?_, fun hm => ?_⟩, fun hp hb => ⟨fun hm hr => ?_, fun hm => ?_⟩,
    fun hp hb hf hm => ?_, fun hp hb hm => ?_⟩
  · have he := loadSlot_error_iff.mpr (.inl ⟨hm, hr, rfl⟩)
    exact ⟨exec_stops (.deq a _ hp hb hne he), exec_stops (.peek a _ hp hb hne he)⟩
  · have he := loadSlot_error_iff.mpr (.inr ⟨hm, rfl⟩)
    exact ⟨exec_stops (.deq a _ hp hb hne he), exec_stops (.peek a _ hp hb hne he)⟩
  · exact exec_stops (.deqd a n i _ hp hb (loadSlot_error_iff.mpr (.inl ⟨hm, hr, rfl⟩)))
  · exact exec_stops (.deqd a n i _ hp hb (loadSlot_error_iff.mpr (.inr ⟨hm, rfl⟩)))
  · exact exec_stops (.enq a _ hp hb (beq_eq_false_iff_ne.mpr hf) (storeSlot_error_iff.mpr ⟨hm, rfl⟩))
  · exact exec_stops (.enqd a n i _ hp hb (storeSlot_error_iff.mpr ⟨hm, rfl⟩))

/-! ### The descriptor on the wires (R22) -/

section Opaque

variable {i : Instr} {s t u u' : State} {d : Descriptor}

/-- `u'` is `u` with `d` on the descriptor wires, but for the slots. -/
def OtherDesc (d : Descriptor) (u u' : State) : Prop := u' = { u with descIn := d, slots := u'.slots }

theorem OtherDesc.respond (h : u' = { u with descIn := d, slots := u'.slots }) (st : Status) (v : Word)
    (r : Option Descriptor) :
    OtherDesc d (respond st v r u) (respond st v r u') := by
  rw [OtherDesc, h]
  unfold Machine.respond
  cases u.port <;> rfl

/-- Which slot a command stores to does not depend on the descriptor. -/
theorem storedSlot_otherDesc (i : Instr) (s : State) (d : Descriptor) :
    storedSlot i { s with descIn := d } = storedSlot i s := by
  cases i <;> rfl

theorem query_otherDesc (d : Descriptor) (hq : isQuery i) (h : exec i s = .next t) :
    ∃ t', exec i { s with descIn := d } = .next t' ∧ OtherDesc d t t' := by
  cases i with
  | isEmpty | isFull | space | count => cases h; exact ⟨_, rfl, .respond rfl _ _ _⟩
  | enq | enqb | enqd | deq | peek | deqb | deqd => exact hq.elim

/-- With another descriptor on the wires a command answers a next state too, which differs in the slots only. -/
theorem exec_otherDesc (d : Descriptor) (h : exec i s = .next t) :
    ∃ t', exec i { s with descIn := d } = .next t' ∧ OtherDesc d t t' := by
  cases exec_kind h with
  | query _ v hq => exact query_otherDesc d hq h
  | badCmd _ hq => exact ⟨_, exec_illegal hq, .respond rfl _ _ _⟩
  | ringFull a hp hb hf => exact ⟨_, exec_enq_full a hp hb hf, .respond rfl _ _ _⟩
  | enq a hp hb hf ha => exact ⟨_, exec_enq_next a hp hb hf ha, .respond rfl _ _ _⟩
  | grantNoneP len hp hb hn => exact ⟨_, exec_enqb_none len hp hb hn, .respond rfl _ _ _⟩
  | grantP len n hp hb hn h0 => exact ⟨_, exec_enqb_next len n hp hb hn h0, .respond rfl _ _ _⟩
  | beatP a n j hp hb ha hj => exact ⟨_, exec_enqd_beat a n j hp hb ha hj, .respond rfl _ _ _⟩
  | commitP a n j hp hb ha hj => exact ⟨_, exec_enqd_commit a n j hp hb ha hj, .respond rfl _ _ _⟩
  | ringEmptyDeq a hp hb he => exact ⟨_, exec_deq_empty a hp hb he, .respond rfl _ _ _⟩
  | ringEmptyPeek a hp hb he => exact ⟨_, exec_peek_empty a hp hb he, .respond rfl _ _ _⟩
  | deq a r hp hb he ha hr => exact ⟨_, exec_deq_next a hp hb he ha hr, .respond rfl _ _ _⟩
  | peek a r hp hb he ha hr => exact ⟨_, exec_peek_next a hp hb he ha hr, .respond rfl _ _ _⟩
  | grantNoneC req hp hb hn => exact ⟨_, exec_deqb_none req hp hb hn, .respond rfl _ _ _⟩
  | grantC req n hp hb hn h0 => exact ⟨_, exec_deqb_next req n hp hb hn h0, .respond rfl _ _ _⟩
  | beatC a n j r hp hb ha hr hj => exact ⟨_, exec_deqd_beat a n j hp hb ha hr hj, .respond rfl _ _ _⟩
  | commitC a n j r hp hb ha hr hj => exact ⟨_, exec_deqd_commit a n j hp hb ha hr hj, .respond rfl _ _ _⟩

/-- A command that stops, stops alike with another descriptor on the wires. -/
theorem execStops_otherDesc {f : Fault} (d : Descriptor) (h : ExecStops s i f) : ExecStops { s with descIn := d } i f := by
  cases h with
  | enq a _ hp hb hf h =>
    have he := storeSlot_error_iff.mp h
    exact .enq a f hp hb hf (storeSlot_error_iff.mpr he)
  | enqd a n j _ hp hb h =>
    have he := storeSlot_error_iff.mp h
    exact .enqd a n j f hp hb (storeSlot_error_iff.mpr he)
  | deq a _ hp hb he h => exact .deq a f hp hb he h
  | peek a _ hp hb he h => exact .peek a f hp hb he h
  | deqd a n j _ hp hb h => exact .deqd a n j f hp hb h

end Opaque

/-- Settles O13: both runs answer or both stop; what each stores, and where, is `exec_read`'s. -/
theorem descriptorContentsAreOpaque : Obligations.DescriptorContentsAreOpaque := by
  intro i s d
  rcases exec_total i s with ⟨t, ht⟩ | ⟨f, hf, hstop⟩
  · obtain ⟨t', ht', hdiff⟩ := exec_otherDesc d ht
    refine .inl ⟨t, t', ht, ht', hdiff, fun x => ?_⟩
    rw [exec_read ht x, exec_read ht' x, storedSlot_otherDesc i s d]
    exact ⟨fun hx => by simp [hx], fun hx => by simp [hx]⟩
  · exact .inr ⟨f, hf, exec_stops (execStops_otherDesc d hstop)⟩

end Sys2Proof.Machine

/-! ## The queue's content: pending and staged items (R36 I5, I6) -/

namespace Sys2Proof.Machine

open Sys2Proof

/-! ### Windows of the storage -/

/-- The contents of the `n` slots from logical index `x` on, of a ring with capacity `c`. -/
def window (m : Memory) (c x n : Nat) : List (Option Descriptor) := (List.range n).map fun j => m.read ((x + j) % c)

theorem window_add (m : Memory) (c x n k : Nat) : window m c x (n + k) = window m c x n ++ window m c (x + n) k := by
  simp [window, List.range_add, Nat.add_assoc]

theorem window_one (m : Memory) (c x : Nat) : window m c x 1 = [m.read (x % c)] := by simp [window]

theorem window_getElem? {m : Memory} {c x n j : Nat} (h : j < n) : (window m c x n)[j]? = some (m.read ((x + j) % c)) := by
  simp [window, h]

/-- Memories that agree on the slots of a window have it in common. -/
theorem window_congr {m m' : Memory} {c x n : Nat} (h : ∀ y, x ≤ y → y < x + n → m'.read (y % c) = m.read (y % c)) :
    window m' c x n = window m c x n :=
  List.map_congr_left fun j hj => h (x + j) (Nat.le_add_right _ _) (by have := List.mem_range.mp hj; omega)

/-- Writing the slot of a logical index in front of or behind a window, less than a capacity away, leaves the window. -/
theorem window_write {m : Memory} {c x n a : Nat} (d : Descriptor) (hx : x + n ≤ a) (hc : a < x + c) :
    window (m.write (a % c) d) c x n = window m c x n :=
  window_congr fun y h1 h2 => Memory.read_write_other _ _ _ _ (mod_ne_of_lt (by omega) (by omega)).symm

/-- Writing the slot right behind a window shorter than the ring makes the window longer by what is written. -/
theorem window_snoc_write {m : Memory} {c n : Nat} (x : Nat) (d : Descriptor) (h : n < c) :
    window (m.write ((x + n) % c) d) c x (n + 1) = window m c x n ++ [some d] := by
  rw [window_add, window_write d le_rfl (by omega), window_one, Memory.read_write_same]

@[simp] theorem window_length (m : Memory) (c x n : Nat) : (window m c x n).length = n := by simp [window]

section LiveRing

variable {g : Ghost} {s : State}

/-- With the registers of `s`, the pending items of any storage are its slots from `T` up to `H` (R36 I5). -/
theorem LiveInv.pending_withSlots (h : LiveInv g s) (hs : s.build.wf = true) (m : Memory) :
    pending { s with slots := m } = window m s.capacity.toNat g.T (g.H - g.T) := by
  have h1 := h.chainT; have h4 := h.chainCap; have hc := s.capacity.isLt
  have ho : Machine.occupancy { s with slots := m } = Machine.occupancy s := rfl
  rw [pending, ho, h.occupancy hs, window]
  refine List.map_congr_left fun j hj => ?_
  have hj := List.mem_range.mp hj
  simp only [pendingAt, h.tailEq]
  rw [h.slot_after hs (by omega)]

theorem LiveInv.pending_eq (h : LiveInv g s) (hs : s.build.wf = true) :
    pending s = window s.slots s.capacity.toNat g.T (g.H - g.T) := h.pending_withSlots hs s.slots

/-- The staged items are the slots from `H` on, one for each beat done (R162 iii). -/
theorem LiveInv.staged_eq (h : LiveInv g s) (hs : s.build.wf = true) {n i : Word} (hb : s.pBurst = .opened n i) :
    Machine.staged s = window s.slots s.capacity.toNat g.H i.toNat := by
  have hi := i.isLt
  rw [Machine.staged, hb, window]
  refine List.map_congr_left fun j hj => ?_
  have hj := List.mem_range.mp hj
  rw [stagedAt, h.headEq, h.slot_after hs (by omega)]

/-- The slot a command stores to is none that holds a pending item (R36 I6, R162). -/
theorem LiveInv.storedSlot_free (hs : s.build.wf = true) (h : LiveInv g s) {i : Instr} {x : Nat}
    (hx : storedSlot i s = some x) :
    ∃ a, x = a % s.capacity.toNat ∧ g.H ≤ a ∧ a < g.Tp + s.capacity.toNat := by
  have hc := h.capMin; have h4 := h.chainCap
  cases i with
  | enq a =>
    simp only [storedSlot] at hx
    split at hx
    case isTrue hg =>
      have := h.room_of_not_full hs hg.2.2
      exact ⟨g.H, (Option.some.inj hx).symm.trans (h.enqSlot hs), le_rfl, by omega⟩
    case isFalse => cases hx
  | enqd a =>
    simp only [storedSlot] at hx
    split at hx
    case h_1 n j _ hb =>
      obtain ⟨_, h2, h3⟩ := h.pOk n j hb
      exact ⟨g.H + j.toNat, (Option.some.inj hx).symm.trans (h.enqdSlot hs j), Nat.le_add_right _ _, by omega⟩
    all_goals cases hx
  | isEmpty | isFull | space | count | enqb | deq | peek | deqb | deqd => cases hx

/-- No command overwrites a pending item. -/
theorem LiveInv.exec_window (h : LiveInv g s) (hs : s.build.wf = true) {i : Instr} {t : State} (hx : exec i s = .next t) :
    window t.slots s.capacity.toNat g.T (g.H - g.T) = window s.slots s.capacity.toNat g.T (g.H - g.T) := by
  have h1 := h.chainT; have h2 := h.chainHc; have h3 := h.chainH
  rw [exec_slots hx]
  cases ha : storedSlot i s with
  | none => rfl
  | some x =>
    obtain ⟨a, rfl, h4, h5⟩ := h.storedSlot_free hs ha
    exact window_write _ (by omega) (by omega)

/-- A commit of `k` staged items and one just written makes them all pending (R160, R162). -/
theorem LiveInv.window_commit (h : LiveInv g s) {k : Nat} (hk : g.H + k < g.Tp + s.capacity.toNat) (d : Descriptor) :
    window (s.slots.write ((g.H + k) % s.capacity.toNat) d) s.capacity.toNat g.T (g.H + (k + 1) - g.T)
      = window s.slots s.capacity.toNat g.T (g.H - g.T) ++ window s.slots s.capacity.toNat g.H k ++ [some d] := by
  have h1 := h.chainT; have h2 := h.chainHc; have h3 := h.chainH
  have hlen : g.H + (k + 1) - g.T = (g.H - g.T + k) + 1 := by omega
  have hlast : g.H + k = g.T + (g.H - g.T + k) := by omega
  have hnext : g.T + (g.H - g.T) = g.H := by omega
  rw [hlen, hlast, window_snoc_write g.T d (by omega), window_add, hnext]

/-- Taking the first `k` pending items leaves those behind them (R180, R184). -/
theorem LiveInv.window_take (h : LiveInv g s) {k : Nat} (hk : k ≤ g.Hc - g.T) :
    window s.slots s.capacity.toNat g.T (g.H - g.T)
      = window s.slots s.capacity.toNat g.T k ++ window s.slots s.capacity.toNat (g.T + k) (g.H - (g.T + k)) := by
  have h2 := h.chainHc; have h3 := h.chainH
  rw [← window_add]
  congr 1
  omega

/-- An item that C may read is there (R28). -/
theorem LiveInv.exists_item (h : LiveInv g s) {j : Nat} (hj : j < g.Hc - g.T) :
    ∃ d, s.slots.read ((g.T + j) % s.capacity.toNat) = some d :=
  Option.isSome_iff_exists.mp (h.written (g.T + j) (Nat.le_add_right _ _) (by have := h.chainH; omega))

end LiveRing

/-- The pending items are read with the index registers, the configuration and the slots. -/
theorem pending_congr {s t : State} (hc : SameConfig s t) (hh : t.head = s.head) (ht : t.tail = s.tail)
    (hs : t.slots = s.slots) :
    pending t = pending s := by
  have ho : occupancy t = occupancy s := by rw [occupancy, occupancy, hc.build, hc.mask, hh, ht]
  rw [pending, pending, ho]
  exact List.map_congr_left fun j _ => by rw [pendingAt, pendingAt, hs, hc.build, hc.mask, ht]

theorem pending_respond (st : Status) (v : Word) (d : Option Descriptor) (s : State) : pending (respond st v d s) = pending s :=
  pending_congr (by constructor <;> simp) (by simp) (by simp) (by simp)

/-- Settles O53: a command overwrites no pending item (`LiveInv.exec_window`), and no other agent writes a slot of a live
ring. -/
theorem otherStepsKeepThePendingItems : Obligations.OtherStepsKeepThePendingItems := by
  intro s t hinv hx hs ht hhead htail
  have hc := step_sameConfig hx hs ht
  cases step_move hx with
  | pass ts => rfl
  | reserved u ha => exact pending_congr hc hhead htail (by simp only [fail, respond_slots]; rw [ha.latches])
  | command i u t ha hx =>
    obtain ⟨g, hg⟩ := hinv.live hs
    have hu := ha.liveInv hg
    have hw : u.build.wf = true := ha.sameConfig.build ▸ hinv.build
    have huh : u.head = s.head := by rw [ha.latches]
    have hut : u.tail = s.tail := by rw [ha.latches]
    obtain ⟨hbuild, hcap, hmask, hstatus, hlive⟩ := exec_sameConfig hx
    have hcu : SameConfig { u with slots := t.slots } t := ⟨hbuild, hcap, hmask, hstatus, hlive⟩
    calc pending t = pending { u with slots := t.slots } :=
          pending_congr hcu (hhead.trans huh.symm) (htail.trans hut.symm) rfl
      _ = window t.slots u.capacity.toNat g.T (g.H - g.T) := hu.pending_withSlots hw t.slots
      _ = window u.slots u.capacity.toNat g.T (g.H - g.T) := hu.exec_window hw hx
      _ = pending u := (hu.pending_eq hw).symm
      _ = pending s := pending_congr ha.sameConfig huh hut (by rw [ha.latches])
  | sh k ts =>
    refine pending_congr hc hhead htail ?_
    rcases deliverHead_cases k { s with turns := ts } with ⟨e, _⟩ | ⟨_, _, _, _, e⟩ <;> rw [e]
  | st k ts =>
    refine pending_congr hc hhead htail ?_
    rcases deliverTail_cases k { s with turns := ts } with ⟨e, _⟩ | ⟨_, _, _, _, e⟩ <;> rw [e]
  | construct cap ts => rw [hostConstruct_live (s := { s with turns := ts }) hs]; rfl
  | resetRing ts => cases ht

/-- Settles O51: the commit of one item, a beat, and the commit of a burst, in terms of the slots from `T` and from `H` on. -/
theorem enqueuesAppendToThePendingItems : Obligations.EnqueuesAppendToThePendingItems := by
  intro a s hinv hl hp
  obtain ⟨g, h⟩ := hinv.live hl
  have hw := hinv.build
  constructor
  · intro hb hfull
    have hf : isFullView s.build s.mask (viewOf .producer s) = false := by simpa [flagOutputs, hl] using hfull
    have hroom := h.room_of_not_full hw hf
    refine ⟨_, exec_enq_next a hp hb hf (h.enqSlot hw ▸ h.slot_lt _), ?_⟩
    rw [pending_respond, (h.enq hw hb hf).pending_eq hw, h.pending_eq hw]
    have := h.window_commit (k := 0) (by omega) s.descIn
    simpa [h.enqSlot hw, Ghost.enqueue, window] using this
  · intro n i hb
    obtain ⟨h1, h2, h3⟩ := h.pOk n i hb
    have hslot := h.enqdSlot hw i
    have hlt : enqdSlot i s < s.build.maxCapacity := hslot ▸ h.slot_lt _
    by_cases hi : i.toNat + 1 < n.toNat
    · have hx := exec_enqd_beat a n i hp hb hlt hi
      have ht := (h.enqdBeat hw n i hb hi).respond .ok (n - i - 1) none
      refine ⟨_, hx, fun _ => ⟨?_, ?_⟩, fun he => by omega⟩
      · rw [h.pending_eq hw, ht.pending_eq (by simpa using hw)]
        simpa using h.exec_window hw hx
      · rw [h.staged_eq hw hb, ht.staged_eq (n := n) (i := i + 1) (by simpa using hw) (by simp), succ_toNat h3]
        simpa [hslot] using window_snoc_write g.H s.descIn (by omega)
    · have hx := exec_enqd_commit a n i hp hb hlt (by omega)
      have hn : n.toNat = i.toNat + 1 := by omega
      refine ⟨_, hx, fun hc => absurd hc hi, fun _ => ⟨?_, by simp [staged]⟩⟩
      rw [pending_respond, (h.enqdLast hw n i hb (by omega)).pending_eq hw, h.pending_eq hw, h.staged_eq hw hb]
      simpa [hslot, Ghost.enqueue, hn] using h.window_commit (by omega) s.descIn

/-- Settles O52: the items C may read are written, and taking `n` of them leaves the slots from `T + n` on. -/
theorem dequeuesTakeTheOldestItems : Obligations.DequeuesTakeTheOldestItems := by
  intro a s hinv hl hp
  obtain ⟨g, h⟩ := hinv.live hl
  have hw := hinv.build
  have hpend := h.pending_eq hw
  have h2 := h.chainHc; have h3 := h.chainH
  constructor
  · intro hb hempty
    have he : s.headC ≠ s.tail := by simpa [flagOutputs, hl, isEmptyView, viewOf] using hempty
    have hne := (h.empty_iff hw).not.mp he
    have hlt : deqSlot s < s.build.maxCapacity := h.deqSlot hw ▸ h.slot_lt _
    obtain ⟨d, hd⟩ := h.exists_item (j := 0) (by omega)
    have hr : s.slots.read (deqSlot s) = some d := h.deqSlot hw ▸ hd
    refine ⟨d, _, _, exec_deq_next a hp hb he hlt hr, by simp [hp], ?_, exec_peek_next a hp hb he hlt hr, by simp [hp],
      pending_respond ..⟩
    rw [pending_respond, (h.deq hw hb he).pending_eq hw, hpend, h.window_take (k := 1) (by omega), window_one]
    simpa [Ghost.dequeue] using hd
  · intro n i hb
    obtain ⟨h4, h5, h6⟩ := h.cOk n i hb
    have hslot := h.deqdSlot hw i
    have hlt : deqdSlot i s < s.build.maxCapacity := hslot ▸ h.slot_lt _
    obtain ⟨d, hd⟩ := h.exists_item (j := i.toNat) (by omega)
    have hr : s.slots.read (deqdSlot i s) = some d := hslot ▸ hd
    have hitem : (pending s)[i.toNat]? = some (some d) := by rw [hpend, window_getElem? (by omega), hd]
    by_cases hi : i.toNat + 1 < n.toNat
    · refine ⟨d, _, exec_deqd_beat a n i hp hb hlt hr hi, hitem, by simp [hp], fun _ => ?_, fun he => by omega⟩
      rw [pending_respond]
      exact pending_congr ⟨rfl, rfl, rfl, rfl, rfl⟩ rfl rfl rfl
    · have hn : n.toNat = i.toNat + 1 := by omega
      have hval : n - i - 1 = 0 := by
        apply BitVec.eq_of_toNat_eq
        have := n.isLt
        rw [BitVec.toNat_sub, BitVec.toNat_sub, one_toNat, hn]
        simp; omega
      refine ⟨d, _, exec_deqd_commit a n i hp hb hlt hr (by omega), hitem, by rw [hval]; simp [hp],
        fun hc => absurd hc hi, fun _ => ?_⟩
      rw [pending_respond, (h.deqdLast hw n i hb).pending_eq hw, hpend, h.window_take h5, List.drop_left' (window_length ..)]
      rfl

/-- Settles O49: the slot P may write is behind `H`, the one C may read before it, less than a capacity apart. -/
theorem writableAndReadableSlotsDiffer : Obligations.WritableAndReadableSlotsDiffer := by
  intro s i j hinv hl hi hj
  obtain ⟨g, h⟩ := hinv.live hl
  have hw := hinv.build
  have hi' : i < s.capacity.toNat - 1 - (g.H - g.Tp) := by simpa [flagOutputs, hl, h.pSpace hw] using hi
  have hj' : j < g.Hc - g.T := by simpa [flagOutputs, hl, h.cView hw] using hj
  have h1 := h.chainT; have h2 := h.chainHc; have h3 := h.chainH; have h4 := h.chainCap; have hc := s.capacity.isLt
  rw [h.headEq, h.tailEq, h.slot_after hw (by omega), h.slot_after hw (by omega)]
  exact mod_ne_of_lt (by omega) (by omega)

end Sys2Proof.Machine

/-! ## The synchronizers and the registers they carry across (R29, R30, R72 to R77) -/

namespace Sys2Proof.Machine

open Sys2Proof

/-! ### One step of a synchronizer -/

/-- Settles O27: a turn of SH is `deliverHead`, here with an enabled `k`. -/
theorem headSynchronizerDelivers : Obligations.HeadSynchronizerDelivers := by
  intro s k v ts hts hl hk hv
  have hdel := deliverHead_next (s := { s with turns := ts }) hl hk hv
  simp only [step, takeTurn, hts, hdel]

/-- Settles O28: a turn of ST is `deliverTail`, here with an enabled `k`. -/
theorem tailSynchronizerDelivers : Obligations.TailSynchronizerDelivers := by
  intro s k v ts hts hl hk hv
  have hdel := deliverTail_next (s := { s with turns := ts }) hl hk hv
  simp only [step, takeTurn, hts, hdel]

/-- An index register, its copy in the other port's domain and the values on their way there, oldest first. -/
structure Channel where
  reg : Idx
  copy : Idx
  flight : List Idx

/-- The channel SH serves (R29). -/
def State.headChannel (s : State) : Channel := ⟨s.head, s.headC, s.hFlight⟩

/-- The channel ST serves (R30). -/
def State.tailChannel (s : State) : Channel := ⟨s.tail, s.tailP, s.tFlight⟩

/-- From `c` to `d` the synchronizer delivers one of the values in flight, and all older ones are dropped. -/
def Channel.Delivers (c d : Channel) : Prop :=
  d.reg = c.reg ∧ ∃ k, 1 ≤ k ∧ c.flight[k - 1]? = some d.copy ∧ d.flight = c.flight.drop k

/-- All that a step does to a channel (R74): nothing, one new value in flight, or one delivery. -/
def Channel.Moves (c d : Channel) : Prop :=
  (d.copy = c.copy ∧ d.reg = c.reg ∧ d.flight = c.flight)
    ∨ (d.copy = c.copy ∧ d.flight = c.flight ++ [d.reg])
    ∨ c.Delivers d

theorem Channel.Moves.refl (c : Channel) : c.Moves c := .inl ⟨rfl, rfl, rfl⟩

section Moves

variable {c d : Channel} {s t : State}

theorem Channel.Delivers.length_lt (h : c.Delivers d) : d.flight.length < c.flight.length := by
  obtain ⟨_, k, hk, hv, hd⟩ := h
  have hlt := (List.getElem?_eq_some_iff.mp hv).1
  rw [hd, List.length_drop]
  omega

theorem shSteps_delivers (h : shSteps s) (hx : step s = .next t) : s.headChannel.Delivers t.headChannel := by
  obtain ⟨hl, k, ts, hts, hk, hlen⟩ := h
  have hv := List.getElem?_eq_getElem (l := s.hFlight) (i := k - 1) (by omega)
  cases (headSynchronizerDelivers s k _ ts hts hl hk hv).symm.trans hx
  exact ⟨rfl, k, hk, hv, rfl⟩

theorem stSteps_delivers (h : stSteps s) (hx : step s = .next t) : s.tailChannel.Delivers t.tailChannel := by
  obtain ⟨hl, k, ts, hts, hk, hlen⟩ := h
  have hv := List.getElem?_eq_getElem (l := s.tFlight) (i := k - 1) (by omega)
  cases (tailSynchronizerDelivers s k _ ts hts hl hk hv).symm.trans hx
  exact ⟨rfl, k, hk, hv, rfl⟩

theorem deliverHead_channels (k : Nat) (s : State) :
    s.headChannel.Moves (deliverHead k s).headChannel ∧ (deliverHead k s).tailChannel = s.tailChannel := by
  rcases deliverHead_cases k s with ⟨e, _⟩ | ⟨v, _, hk, hv, e⟩ <;> rw [e]
  · exact ⟨.refl _, rfl⟩
  · exact ⟨.inr (.inr ⟨rfl, k, hk, hv, rfl⟩), rfl⟩

theorem deliverTail_channels (k : Nat) (s : State) :
    (deliverTail k s).headChannel = s.headChannel ∧ s.tailChannel.Moves (deliverTail k s).tailChannel := by
  rcases deliverTail_cases k s with ⟨e, _⟩ | ⟨v, _, hk, hv, e⟩ <;> rw [e]
  · exact ⟨rfl, .refl _⟩
  · exact ⟨rfl, .inr (.inr ⟨rfl, k, hk, hv, rfl⟩)⟩

/-- A command delivers nothing: it leaves a channel alone or puts the register's new value in flight. -/
theorem exec_channels {i : Instr} (h : exec i s = .next t) :
    s.headChannel.Moves t.headChannel ∧ s.tailChannel.Moves t.tailChannel := by
  obtain ⟨hheadC, htailP, _⟩ := exec_copies h
  constructor
  · rcases exec_head h with ⟨e, ef⟩ | ⟨n, _, e, ef⟩
    · exact .inl ⟨hheadC, e, ef⟩
    · exact .inr (.inl ⟨hheadC, ef.trans (congrArg (_ ++ [·]) e.symm)⟩)
  · rcases exec_tail h with ⟨e, ef⟩ | ⟨n, _, e, ef⟩
    · exact .inl ⟨htailP, e, ef⟩
    · exact .inr (.inl ⟨htailP, ef.trans (congrArg (_ ++ [·]) e.symm)⟩)

theorem Accepted.channels {u : State} (h : Accepted s u) :
    u.headChannel = s.headChannel ∧ u.tailChannel = s.tailChannel := by
  rw [h.latches]; exact ⟨rfl, rfl⟩

theorem fail_channels (st : Status) (s : State) :
    (fail st s).headChannel = s.headChannel ∧ (fail st s).tailChannel = s.tailChannel := by
  simp [fail, State.headChannel, State.tailChannel]

/-- R74, for a ring live before and after. -/
theorem step_channels (h : step s = .next t) (hs : s.live = true) (ht : t.live = true) :
    s.headChannel.Moves t.headChannel ∧ s.tailChannel.Moves t.tailChannel := by
  cases step_move h with
  | pass => exact ⟨.refl _, .refl _⟩
  | reserved u ha =>
    obtain ⟨hh, htl⟩ := fail_channels .badCmd u
    obtain ⟨hhu, htlu⟩ := ha.channels
    rw [hh, htl, hhu, htlu]
    exact ⟨.refl _, .refl _⟩
  | command i u t ha hx => simpa only [ha.channels] using exec_channels hx
  | sh k ts =>
    obtain ⟨hh, htl⟩ := deliverHead_channels k { s with turns := ts }
    exact ⟨hh, htl ▸ .refl _⟩
  | st k ts =>
    obtain ⟨hh, htl⟩ := deliverTail_channels k { s with turns := ts }
    exact ⟨hh ▸ .refl _, htl⟩
  | construct cap ts =>
    rw [hostConstruct_live (s := { s with turns := ts }) hs]
    exact ⟨.refl _, .refl _⟩
  | resetRing => cases ht

end Moves

/-- Settles O29: `step_channels`, for both channels. -/
theorem copiesTakeOnlyWholeValues : Obligations.CopiesTakeOnlyWholeValues := fun _ _ h hs ht => step_channels h hs ht

/-! ### What the invariant says of a channel (R36 I3, R75) -/

/-- The logical values of the register and of what is in flight lie above the copy's, by less than `2^IDX_W`. -/
structure Channel.Holds (b : Params) (c : Channel) (base newest : Nat) (l : List Nat) : Prop where
  width : b.idxW ≤ 32
  reg : c.reg = idxOf b newest
  copy : c.copy = idxOf b base
  flight : c.flight = l.map (idxOf b)
  ok : FlightOk base newest l
  le : base ≤ newest
  lt : newest - base < 2 ^ b.idxW

theorem FlightOk.le_newest {base newest x : Nat} {l : List Nat} (h : FlightOk base newest l) (hx : x ∈ l) : x ≤ newest := by
  obtain ⟨i, hi⟩ := List.mem_iff_getElem?.mp hx
  exact (h.drop (k := i + 1) (Nat.le_add_left 1 i) hi).2.2

section Holds

variable {b : Params} {c d : Channel} {base newest : Nat} {l : List Nat}

theorem Channel.Holds.idxOf_inj (h : c.Holds b base newest l) {x y : Nat} (hx : base ≤ x ∧ x ≤ newest)
    (hy : base ≤ y ∧ y ≤ newest) (he : idxOf b x = idxOf b y) : x = y := by
  have := h.lt
  rcases Nat.le_total y x with hyx | hxy
  · exact Machine.idxOf_inj h.width hyx (by omega) he
  · exact (Machine.idxOf_inj h.width hxy (by omega) he.symm).symm

/-- The newest of the copy and the values in flight is the register's. -/
theorem Channel.Holds.ends (h : c.Holds b base newest l) : (c.copy :: c.flight).getLast? = some c.reg := by
  rw [List.getLast?_cons, h.flight, h.copy, h.reg, List.getLast?_map, Option.getD_map, h.ok.ends]

/-- The copy and the values in flight are pairwise different. -/
theorem Channel.Holds.nodup (h : c.Holds b base newest l) : (c.copy :: c.flight).Nodup := by
  have hrising : (base :: l).Pairwise (· < ·) := List.pairwise_cons.mpr ⟨h.ok.above, h.ok.rising⟩
  have hwindow : ∀ x ∈ base :: l, base ≤ x ∧ x ≤ newest := by
    intro x hx
    rcases List.mem_cons.mp hx with rfl | hx
    · exact ⟨le_rfl, h.le⟩
    · exact ⟨(h.ok.above x hx).le, h.ok.le_newest hx⟩
  rw [h.copy, h.flight, ← List.map_cons]
  exact hrising.nodup.map_on fun x hx y hy => h.idxOf_inj (hwindow x hx) (hwindow y hy)

/-- What is in flight, if anything is, ends with the register's value. -/
theorem Channel.Holds.flight_ends (h : c.Holds b base newest l) (hne : c.flight ≠ []) : c.flight.getLast? = some c.reg := by
  rw [← h.ends, List.getLast?_cons, List.getLast?_eq_some_getLast hne]; rfl

/-- R77, for one channel. -/
theorem Channel.Holds.flight_nil_iff (h : c.Holds b base newest l) : c.flight = [] ↔ c.copy = c.reg := by
  constructor
  · intro he
    simpa [he] using h.ends
  · intro he
    by_contra hne
    have hmem : c.copy ∈ c.flight := he ▸ List.mem_of_getLast? (h.flight_ends hne)
    exact (List.nodup_cons.mp h.nodup).1 hmem

/-- A delivery brings the copy strictly nearer to the register (R75). -/
theorem Channel.Holds.delivers_nearer (h : c.Holds b base newest l) (hd : c.Delivers d) :
    (idxSub b d.reg d.copy).toNat < (idxSub b c.reg c.copy).toNat := by
  obtain ⟨hreg, k, hk, hv, _⟩ := hd
  obtain ⟨x, hx, hxv⟩ : ∃ x, l[k - 1]? = some x ∧ idxOf b x = d.copy := by simpa [h.flight] using hv
  obtain ⟨_, hlo, hhi⟩ := h.ok.drop hk hx
  have := h.lt
  rw [hreg, ← hxv, h.reg, h.copy, idxSub_idxOf_toNat h.width hhi, idxSub_idxOf_toNat h.width h.le,
    Nat.mod_eq_of_lt (by omega), Nat.mod_eq_of_lt (by omega)]
  omega

/-- While the register keeps its value nothing new comes in flight: a new value differs from all in flight. -/
theorem Channel.Moves.length_le (hm : c.Moves d) (hc : c.Holds b base newest l) {b' : Params} {base' newest' : Nat}
    {l' : List Nat} (hd : d.Holds b' base' newest' l') (hreg : d.reg = c.reg) : d.flight.length ≤ c.flight.length := by
  rcases hm with ⟨_, _, e⟩ | ⟨hcopy, e⟩ | hdel
  · exact e ▸ le_rfl
  · have hnd := hd.nodup
    rw [hcopy, e, hreg, ← List.cons_append] at hnd
    exact absurd (List.mem_singleton_self _) (List.disjoint_of_nodup_append hnd (List.mem_of_getLast? hc.ends))
  · exact hdel.length_lt.le

end Holds

section Invariant

variable {g : Ghost} {s : State}

theorem LiveInv.cap_le_pow (hs : s.build.wf = true) (h : LiveInv g s) : s.capacity.toNat ≤ 2 ^ s.build.idxW :=
  Nat.le_of_dvd (Nat.two_pow_pos _) (h.cap_dvd hs)

theorem LiveInv.headChannel (hs : s.build.wf = true) (h : LiveInv g s) : s.headChannel.Holds s.build g.Hc g.H g.hs := by
  refine ⟨Params.idxW_le hs, h.headEq, h.headCEq, h.hFlightEq, h.hOk, h.chainH, ?_⟩
  have h1 := h.chainT; have h2 := h.chainHc; have h3 := h.chainCap; have h4 := h.capMin
  exact lt_of_lt_of_le (by omega) (h.cap_le_pow hs)

theorem LiveInv.tailChannel (hs : s.build.wf = true) (h : LiveInv g s) : s.tailChannel.Holds s.build g.Tp g.T g.ts := by
  refine ⟨Params.idxW_le hs, h.tailEq, h.tailPEq, h.tFlightEq, h.tOk, h.chainT, ?_⟩
  have h1 := h.chainHc; have h2 := h.chainH; have h3 := h.chainCap; have h4 := h.capMin
  exact lt_of_lt_of_le (by omega) (h.cap_le_pow hs)

end Invariant

/-- Settles O30: a step of SH or ST is a delivery, which brings the copy nearer (`Channel.Holds.delivers_nearer`). -/
theorem copiesNeverMoveBackward : Obligations.CopiesNeverMoveBackward := by
  intro s t hinv hl hx
  obtain ⟨g, h⟩ := hinv.live hl
  constructor
  · intro hsh
    have hdel := shSteps_delivers hsh hx
    have hnearer := (h.headChannel hinv.build).delivers_nearer hdel
    exact ⟨hdel.1, hnearer⟩
  · intro hst
    have hdel := stSteps_delivers hst hx
    have hnearer := (h.tailChannel hinv.build).delivers_nearer hdel
    exact ⟨hdel.1, hnearer⟩

/-! ### Settling the ring (R77, R115) -/

section Settle

variable {g : Ghost} {s t : State} {ts : List Turn}

/-- `m + n` steps are `m` steps and then `n`. -/
theorem stepN_add {m : Nat} (n : Nat) (h : stepN m s = .next t) : stepN (m + n) s = stepN n t := by
  induction m generalizing s with
  | zero => cases h; rw [Nat.zero_add]
  | succ m ih =>
    rw [Nat.add_right_comm]
    cases hx : step s <;> simp only [stepN, hx] at h ⊢
    · exact ih h
    all_goals cases h

theorem Inv.stepN {m : Nat} (hinv : Inv s) (h : stepN m s = .next t) : Inv t := by
  induction m generalizing s with
  | zero => cases h; exact hinv
  | succ m ih =>
    cases hx : Machine.step s <;> simp only [Machine.stepN, hx] at h
    · exact ih (hinv.step hx) h
    all_goals cases h

/-- One synchronizer's part of `SYNC`: its turn `x`, unless its flight list `l` is empty. -/
def syncTurn (l : List Idx) (x : Turn) : List Turn := if l.isEmpty then [] else [x]

theorem syncTurns_eq (s : State) :
    syncTurns s = syncTurn s.hFlight (.sh s.hFlight.length) ++ syncTurn s.tFlight (.st s.tFlight.length) := rfl

theorem stepN_syncTurn {l : List Idx} {x : Turn} (hts : s.turns = syncTurn l x ++ ts) (hnone : l = [] → s.turns = ts → t = s)
    (hsome : l ≠ [] → s.turns = x :: ts → step s = .next t) : stepN (syncTurn l x).length s = .next t := by
  cases l with
  | nil => exact congrArg _ (hnone rfl hts).symm
  | cons v l =>
    have hx := hsome (List.cons_ne_nil v l) hts
    simp [syncTurn, stepN, hx]

/-- SH's part delivers the newest value, and with it all that is in flight. -/
theorem LiveInv.stepN_syncHead (hs : s.build.wf = true) (h : LiveInv g s) (hl : s.live = true)
    (hts : s.turns = syncTurn s.hFlight (.sh s.hFlight.length) ++ ts) :
    stepN (syncTurn s.hFlight (.sh s.hFlight.length)).length s =
      .next { s with turns := ts, headC := s.head, hFlight := [] } := by
  have hc := h.headChannel hs
  refine stepN_syncTurn hts (fun he hts => ?_) fun hne hts => ?_
  · have hcopy : s.headC = s.head := hc.flight_nil_iff.mp he
    rw [← hts, ← he]
    exact congrArg (fun v => { s with headC := v }) hcopy.symm
  · have hlast : s.hFlight[s.hFlight.length - 1]? = some s.head := List.getLast?_eq_getElem? ▸ hc.flight_ends hne
    rw [headSynchronizerDelivers s _ _ ts hts hl (List.length_pos_iff.mpr hne) hlast, List.drop_length]

/-- ST's part delivers the newest value, and with it all that is in flight. -/
theorem LiveInv.stepN_syncTail (hs : s.build.wf = true) (h : LiveInv g s) (hl : s.live = true)
    (hts : s.turns = syncTurn s.tFlight (.st s.tFlight.length) ++ ts) :
    stepN (syncTurn s.tFlight (.st s.tFlight.length)).length s =
      .next { s with turns := ts, tailP := s.tail, tFlight := [] } := by
  have hc := h.tailChannel hs
  refine stepN_syncTurn hts (fun he hts => ?_) fun hne hts => ?_
  · have hcopy : s.tailP = s.tail := hc.flight_nil_iff.mp he
    rw [← hts, ← he]
    exact congrArg (fun v => { s with tailP := v }) hcopy.symm
  · have hlast : s.tFlight[s.tFlight.length - 1]? = some s.tail := List.getLast?_eq_getElem? ▸ hc.flight_ends hne
    rw [tailSynchronizerDelivers s _ _ ts hts hl (List.length_pos_iff.mpr hne) hlast, List.drop_length]

/-- R77: settled means that both copies equal their registers. -/
theorem LiveInv.isSettled_iff (hs : s.build.wf = true) (h : LiveInv g s) :
    isSettled s = true ↔ s.headC = s.head ∧ s.tailP = s.tail := by
  rw [isSettled, Bool.and_eq_true, List.isEmpty_iff, List.isEmpty_iff]
  exact and_congr (h.headChannel hs).flight_nil_iff (h.tailChannel hs).flight_nil_iff

/-- Equal views give equal flags: a port's flags are functions of its view (R144). -/
theorem flagOutputs_congr {p q : Port} (h : viewOf p s = viewOf q s) : flagOutputs p s = flagOutputs q s := by
  simp only [flagOutputs, h]

end Settle

/-- Settles O31: the copies equal their registers exactly when nothing is in flight (`LiveInv.isSettled_iff`), and `SYNC` is
one delivery of the newest value on each channel that has something in flight. -/
theorem syncSettlesTheRing : Obligations.SyncSettlesTheRing := by
  intro s hinv hl
  obtain ⟨g, h⟩ := hinv.live hl
  have hw := hinv.build
  refine ⟨h.isSettled_iff hw, fun hset => ?_, fun ts hts => ?_⟩
  · obtain ⟨hheadC, htailP⟩ := (h.isSettled_iff hw).mp hset
    have hview : viewOf .producer s = viewOf .consumer s := by simp only [viewOf, hheadC, htailP]
    exact ⟨hview, flagOutputs_congr hview⟩
  · rw [syncTurns_eq, List.append_assoc] at hts
    have hhead := h.stepN_syncHead hw hl hts
    have hinv' := hinv.stepN hhead
    obtain ⟨g', h'⟩ := hinv'.live hl
    rw [syncTurns_eq, List.length_append, stepN_add _ hhead]
    exact h'.stepN_syncTail hinv'.build hl rfl

/-! ### Fair synchronizers (R76) -/

/-- A number that never grows, and gets smaller again and again while it is not 0, comes to 0. -/
theorem eventually_zero {f : Nat → Nat} {takes : Nat → Prop} {n : Nat} (hkeep : ∀ m, n ≤ m → f (m + 1) ≤ f m)
    (hless : ∀ m, n ≤ m → takes m → f (m + 1) < f m)
    (hfair : ∀ m, n ≤ m → (∀ m', m ≤ m' → f m' ≠ 0) → ∃ m', m ≤ m' ∧ takes m') : ∃ m, n ≤ m ∧ f m = 0 := by
  induction hf : f n using Nat.strong_induction_on generalizing n with
  | _ k ih =>
    by_contra hno
    push Not at hno
    have hle : ∀ m, n ≤ m → f m ≤ f n := Nat.le_induction le_rfl fun m hm ihm => (hkeep m hm).trans ihm
    obtain ⟨m, hnm, hm⟩ := hfair n le_rfl hno
    have hlt : f (m + 1) < k := hf ▸ (hless m hnm hm).trans_le (hle m hnm)
    have hnm' : n ≤ m + 1 := hnm.trans (Nat.le_succ m)
    obtain ⟨m', hm', h0⟩ := ih _ hlt (fun j hj => hkeep j (hnm'.trans hj)) (fun j hj => hless j (hnm'.trans hj))
      (fun j hj => hfair j (hnm'.trans hj)) rfl
    exact hno m' (hnm'.trans hm') h0

section Run

variable {e : Nat → State}

theorem IsRun.inv (hr : IsRun e) (h : Inv (e 0)) (m : Nat) : Inv (e m) := by
  induction m with
  | zero => exact h
  | succ m ih =>
    obtain ⟨t, hx, p, c, ts, hoff⟩ := hr m
    exact (ih.step hx).congr (by rw [hoff])

theorem Offers.live {s t : State} (h : Offers s t) : t.live = s.live := by
  obtain ⟨p, c, ts, rfl⟩ := h; rfl

/-- What the outside world appends is no part of a channel. -/
theorem Offers.channels {s t : State} (h : Offers s t) :
    t.headChannel = s.headChannel ∧ t.tailChannel = s.tailChannel := by
  obtain ⟨p, c, ts, rfl⟩ := h; exact ⟨rfl, rfl⟩

/-- On a channel whose register keeps its value, with a synchronizer that delivers again and again while something is in
flight, the last value arrives. -/
theorem eventually_delivered {ch : State → Channel} {delivers : State → Prop} {n : Nat}
    (hholds : ∀ m, n ≤ m → ∃ b base newest l, (ch (e m)).Holds b base newest l)
    (hmove : ∀ m, n ≤ m → (ch (e m)).Moves (ch (e (m + 1))))
    (hdel : ∀ m, n ≤ m → delivers (e m) → (ch (e m)).Delivers (ch (e (m + 1))))
    (hfair : ∀ m, n ≤ m → (∀ m', m ≤ m' → (ch (e m')).flight ≠ []) → ∃ m', m ≤ m' ∧ delivers (e m'))
    (hreg : ∀ m, n ≤ m → (ch (e m)).reg = (ch (e n)).reg) :
    ∃ m, n ≤ m ∧ (ch (e m)).copy = (ch (e n)).reg ∧ (ch (e m)).flight = [] := by
  obtain ⟨m, hm, hlen⟩ := eventually_zero (f := fun m => (ch (e m)).flight.length) (takes := fun m => delivers (e m))
    (fun m hm => by
      obtain ⟨_, _, _, _, hc⟩ := hholds m hm
      obtain ⟨_, _, _, _, hd⟩ := hholds (m + 1) (by omega)
      exact (hmove m hm).length_le hc hd ((hreg (m + 1) (by omega)).trans (hreg m hm).symm))
    (fun m hm hd => (hdel m hm hd).length_lt)
    (fun m hm hne => hfair m hm fun m' hm' h => hne m' hm' (List.length_eq_zero_iff.mpr h))
  have hnil := List.length_eq_zero_iff.mp hlen
  obtain ⟨_, _, _, _, hc⟩ := hholds m hm
  exact ⟨m, hm, (hc.flight_nil_iff.mp hnil).trans (hreg m hm), hnil⟩

end Run

/-- Settles O58: while the register keeps its value, each delivery shortens the flight list and no other step lengthens it
(`Channel.Moves.length_le`). -/
theorem fairSynchronizersDeliverTheLastValue : Obligations.FairSynchronizersDeliverTheLastValue := by
  intro e n hr ⟨hfairH, hfairT⟩ hinv hlive
  have hmove : ∀ m, n ≤ m → (e m).headChannel.Moves (e (m + 1)).headChannel
      ∧ (e m).tailChannel.Moves (e (m + 1)).tailChannel := by
    intro m hm
    obtain ⟨t, hx, hoff⟩ := hr m
    have ht : t.live = true := hoff.live.symm.trans (hlive (m + 1) (by omega))
    obtain ⟨hhead, htail⟩ := hoff.channels
    rw [hhead, htail]
    exact step_channels hx (hlive m hm) ht
  have hholds : ∀ m, n ≤ m → ∃ g, LiveInv g (e m) := fun m hm => (hr.inv hinv m).live (hlive m hm)
  constructor
  · refine eventually_delivered (ch := State.headChannel) (delivers := shSteps) (fun m hm => ?_) (fun m hm => (hmove m hm).1)
      (fun m _ hsh => ?_) (fun m hm hne => hfairH m fun m' hm' => ⟨hlive m' (hm.trans hm'), hne m' hm'⟩)
    · obtain ⟨g, h⟩ := hholds m hm
      exact ⟨_, _, _, _, h.headChannel (hr.inv hinv m).build⟩
    · obtain ⟨t, hx, hoff⟩ := hr m
      exact hoff.channels.1 ▸ shSteps_delivers hsh hx
  · refine eventually_delivered (ch := State.tailChannel) (delivers := stSteps) (fun m hm => ?_) (fun m hm => (hmove m hm).2)
      (fun m _ hst => ?_) (fun m hm hne => hfairT m fun m' hm' => ⟨hlive m' (hm.trans hm'), hne m' hm'⟩)
    · obtain ⟨g, h⟩ := hholds m hm
      exact ⟨_, _, _, _, h.tailChannel (hr.inv hinv m).build⟩
    · obtain ⟨t, hx, hoff⟩ := hr m
      exact hoff.channels.2 ▸ stSteps_delivers hst hx

end Sys2Proof.Machine

/-! ## Headers and the bits of a descriptor (R105, R106, R108, R111) -/

namespace Sys2Proof

/-! ### The header: two fields, and the opcode map -/

theorem decode_encode (i : Instr) : decode (encode i) = .ok i := by
  unfold decode
  rw [headerOp_encode, headerArg_encode]
  cases i <;> rfl

theorem encode_of_fields {h : Header} {i : Instr} (ho : headerOp h = i.opcode) (ha : headerArg h = i.arg) : encode i = h :=
  header_ext ((headerOp_encode i).trans ho.symm) ((headerArg_encode i).trans ha.symm)

theorem decode_eq_ok_iff {h : Header} {i : Instr} : decode h = .ok i ↔ encode i = h := by
  constructor
  · intro hd
    obtain ⟨ho, ha⟩ := decode_fields hd
    exact encode_of_fields ho ha
  · rintro rfl
    exact decode_encode i

/-- Settles O1: the encoder puts both fields back (`encode_of_fields`), and the decoder reads them (`decode_encode`). -/
theorem decodeAndEncodeAreInverse : Obligations.DecodeAndEncodeAreInverse := fun _ _ => decode_eq_ok_iff

/-- The mask of the opcode map compares the `op` field alone. -/
theorem and_opMask_eq_iff {h m : Header} (h0 : headerArg m = 0) :
    h &&& 0xF00000000#36 = m ↔ headerOp h = headerOp m := by
  have hm : m.toNat % 2 ^ 32 = 0 := by rw [← headerArg_toNat, h0]; rfl
  rw [← BitVec.toNat_inj, ← BitVec.toNat_inj, and_opMask_toNat, headerOp_toNat m]
  omega

/-- A row of the opcode map (R108): match under mask, for the command with the header's argument. -/
theorem opMap_row {h m : Header} {i : Instr} (hm : headerOp m = i.opcode) (h0 : headerArg m = 0) (ha : headerArg h = i.arg) :
    h &&& 0xF00000000#36 = m ↔ decode h = .ok i := by
  rw [and_opMask_eq_iff h0, hm]
  exact ⟨fun ho => decode_eq_ok_iff.mpr (encode_of_fields ho ha), fun hd => (decode_fields hd).1⟩

/-- The "port" column of R108, by bits 3 and 2 of the opcode. -/
theorem opcode_portBits (i : Instr) :
    (i.opcode.getLsbD 3 = false ↔ i.legalOn .producer = true ∧ i.legalOn .consumer = true)
      ∧ (i.opcode.getLsbD 3 = true → i.opcode.getLsbD 2 = false →
          i.legalOn .producer = true ∧ i.legalOn .consumer = false)
      ∧ (i.opcode.getLsbD 3 = true → i.opcode.getLsbD 2 = true →
          i.legalOn .producer = false ∧ i.legalOn .consumer = true) := by
  cases i <;> simp [Instr.opcode, Instr.legalOn]

/-- Settles O2: each row is `opMap_row`; a command's port bits are those of its opcode. -/
theorem headersDecodeByTheOpcodeMap : Obligations.HeadersDecodeByTheOpcodeMap := by
  constructor
  · intro h
    refine ⟨?_, ?_, ?_, ?_, ?_, ?_, ?_, ?_, ?_, ?_, ?_⟩ <;> exact opMap_row rfl rfl rfl
  · intro h i hd
    rw [(decode_fields hd).1]
    exact opcode_portBits i

/-! ### The reserved opcodes -/

/-- The opcodes R111 reserves on both ports. -/
def reservedOpcodes : List (BitVec 4) := [0x0#4, 0x5#4, 0x6#4, 0x7#4, 0xB#4]

theorem opcode_not_reserved (i : Instr) : i.opcode ∉ reservedOpcodes := by
  cases i <;> simp [Instr.opcode, reservedOpcodes]

/-- The opcodes that are not reserved are those of the eleven commands. -/
theorem mem_opcodes_of_not_reserved : ∀ op : BitVec 4, op ∉ reservedOpcodes →
    op ∈ [0x1#4, 0x2#4, 0x3#4, 0x4#4, 0x8#4, 0x9#4, 0xA#4, 0xC#4, 0xD#4, 0xE#4, 0xF#4] := by decide

theorem exists_instr_of_not_reserved {op : BitVec 4} (h : op ∉ reservedOpcodes) (a : Word) :
    ∃ i : Instr, op = i.opcode ∧ a = i.arg := by
  have hm := mem_opcodes_of_not_reserved op h
  simp only [List.mem_cons, List.not_mem_nil, or_false] at hm
  rcases hm with rfl | rfl | rfl | rfl | rfl | rfl | rfl | rfl | rfl | rfl | rfl
  · exact ⟨.isEmpty a, rfl, rfl⟩
  · exact ⟨.isFull a, rfl, rfl⟩
  · exact ⟨.space a, rfl, rfl⟩
  · exact ⟨.count a, rfl, rfl⟩
  · exact ⟨.enq a, rfl, rfl⟩
  · exact ⟨.enqb a, rfl, rfl⟩
  · exact ⟨.enqd a, rfl, rfl⟩
  · exact ⟨.deq a, rfl, rfl⟩
  · exact ⟨.peek a, rfl, rfl⟩
  · exact ⟨.deqb a, rfl, rfl⟩
  · exact ⟨.deqd a, rfl, rfl⟩

theorem decode_ok_of_not_reserved {h : Header} (hr : headerOp h ∉ reservedOpcodes) : ∃ i, decode h = .ok i := by
  obtain ⟨i, ho, ha⟩ := exists_instr_of_not_reserved hr (headerArg h)
  exact ⟨i, decode_eq_ok_iff.mpr (encode_of_fields ho ha)⟩

/-- The decoder's only error names the opcode it read. -/
theorem decode_error {h : Header} {e : DecodeError} (hd : decode h = .error e) : e = .reservedOpcode (headerOp h) := by
  unfold decode at hd
  split at hd <;> cases hd
  rfl

theorem decode_reserved {h : Header} (hr : headerOp h ∈ reservedOpcodes) :
    decode h = .error (.reservedOpcode (headerOp h)) := by
  cases hd : decode h with
  | error e => rw [decode_error hd]
  | ok i => exact absurd ((decode_fields hd).1 ▸ hr) (opcode_not_reserved i)

/-- Settles O3: no command has a reserved opcode, and every other opcode is a command's. -/
theorem onlyReservedOpcodesAreRejected : Obligations.OnlyReservedOpcodesAreRejected := fun _ =>
  ⟨decode_reserved, decode_ok_of_not_reserved⟩

/-- Settles O4: each word is the encoding of its command. -/
theorem sampleHeadersDecode : Obligations.SampleHeadersDecode := by
  unfold Obligations.SampleHeadersDecode
  simp only [decode_eq_ok_iff]
  decide

/-! ### The descriptor's slices -/

/-- The slice of `m` bits at bit `n`, joined to the bits above it. -/
theorem slice_add_rest (v n m : Nat) : v / 2 ^ n % 2 ^ m + 2 ^ m * (v / 2 ^ (n + m)) = v / 2 ^ n := by
  rw [Nat.pow_add, ← Nat.div_div_eq_div_mul, Nat.mod_add_div]

/-- A field of `n` bits is taken off the bottom of a packed number. -/
theorem add_mul_div_two_pow {a n : Nat} (ha : a < 2 ^ n) (x : Nat) : (a + 2 ^ n * x) / 2 ^ n = x := by
  rw [Nat.add_mul_div_left _ _ (Nat.two_pow_pos n), Nat.div_eq_of_lt ha, Nat.zero_add]

theorem add_mul_div_two_pow_add {a n : Nat} (ha : a < 2 ^ n) (x m : Nat) : (a + 2 ^ n * x) / 2 ^ (n + m) = x / 2 ^ m := by
  rw [Nat.pow_add, ← Nat.div_div_eq_div_mul, add_mul_div_two_pow ha]

theorem ofNat_add_mul_two_pow {n : Nat} (f : BitVec n) (x : Nat) : BitVec.ofNat n (f.toNat + 2 ^ n * x) = f := by
  apply BitVec.eq_of_toNat_eq
  rw [BitVec.toNat_ofNat, Nat.add_mul_mod_self_left, Nat.mod_eq_of_lt f.isLt]

theorem add_mul_lt_two_pow_add {a x n m : Nat} (ha : a < 2 ^ n) (hx : x < 2 ^ m) : a + 2 ^ n * x < 2 ^ (n + m) := by
  calc a + 2 ^ n * x < 2 ^ n * (x + 1) := by rw [Nat.mul_add]; omega
    _ ≤ 2 ^ n * 2 ^ m := Nat.mul_le_mul_left _ hx
    _ = 2 ^ (n + m) := (Nat.pow_add 2 n m).symm

theorem packDescriptor_unpackDescriptor {b : Params} {v : Nat} (hv : v < 2 ^ b.descW) :
    packDescriptor b (unpackDescriptor b v) = v := by
  have htop : v / 2 ^ (b.refW + b.paW + 32) % 2 ^ 64 = v / 2 ^ (b.refW + b.paW + 16 + 16) :=
    Nat.mod_eq_of_lt (Nat.div_lt_of_lt_mul (by rwa [← Nat.pow_add]))
  simp only [packDescriptor, unpackDescriptor, BitVec.toNat_ofNat]
  rw [htop, slice_add_rest, slice_add_rest, slice_add_rest, Nat.mod_add_div]

theorem packDescriptor_lt {b : Params} {d : Descriptor} (hr : d.dataRef < 2 ^ b.refW) (hp : d.physAddr < 2 ^ b.paW) :
    packDescriptor b d < 2 ^ b.descW := by
  have h := add_mul_lt_two_pow_add hr (add_mul_lt_two_pow_add hp (add_mul_lt_two_pow_add d.length.isLt
    (add_mul_lt_two_pow_add d.flags.isLt d.timestamp.isLt)))
  simpa only [packDescriptor, Params.descW, Nat.add_assoc] using h

theorem unpackDescriptor_packDescriptor {b : Params} {d : Descriptor} (hr : d.dataRef < 2 ^ b.refW)
    (hp : d.physAddr < 2 ^ b.paW) : unpackDescriptor b (packDescriptor b d) = d := by
  obtain ⟨ref, pa, len, flags, ts⟩ := d
  have hts : (len.toNat + 2 ^ 16 * (flags.toNat + 2 ^ 16 * ts.toNat)) / 2 ^ 32 = ts.toNat :=
    (add_mul_div_two_pow_add len.isLt _ 16).trans (add_mul_div_two_pow flags.isLt _)
  simp only [packDescriptor, unpackDescriptor, Nat.add_assoc, add_mul_div_two_pow_add hr, add_mul_div_two_pow hr,
    add_mul_div_two_pow_add hp, add_mul_div_two_pow hp, add_mul_div_two_pow len.isLt, hts, Nat.add_mul_mod_self_left,
    Nat.mod_eq_of_lt hr, Nat.mod_eq_of_lt hp, ofNat_add_mul_two_pow, BitVec.ofNat_toNat, BitVec.setWidth_eq]

/-- Settles O5: the slices are `unpackDescriptor`'s own; each round trip is a lemma above. -/
theorem descriptorBitsFollowTheLayout : Obligations.DescriptorBitsFollowTheLayout := by
  constructor
  · exact fun b v hv => ⟨rfl, rfl, BitVec.toNat_ofNat _ _, BitVec.toNat_ofNat _ _, BitVec.toNat_ofNat _ _,
      packDescriptor_unpackDescriptor hv⟩
  · intro b d hd
    simp only [Descriptor.wf, Bool.and_eq_true, decide_eq_true_eq] at hd
    obtain ⟨hr, hp⟩ := hd
    exact ⟨packDescriptor_lt hr hp, unpackDescriptor_packDescriptor hr hp⟩

end Sys2Proof

/-! ## What a command answers (R104, R107, R109 to R112, R200 to R202) -/

namespace Sys2Proof.Machine

open Sys2Proof

/-- The responses a command may give: which failures are its own, and that a failure carries nothing (R107, R200 to R202). -/
inductive MayAnswer (s : State) (i : Instr) : Response → Prop
  | ok (v : Word) (d : Option Descriptor) : MayAnswer s i ⟨.ok, v, d⟩
  | badCmd (h : isIllegal s i) : MayAnswer s i ⟨.badCmd, 0, none⟩
  | ringFull (hp : s.port = .producer) (h : ∃ a, i = .enq a) : MayAnswer s i ⟨.ringFull, 0, none⟩
  | ringEmpty (hp : s.port = .consumer) (h : ∃ a, i = .deq a ∨ i = .peek a) : MayAnswer s i ⟨.ringEmpty, 0, none⟩

section MayAnswer

variable {s t : State} {i : Instr} {r : Response}

/-- The producer port has no descriptor wires. -/
theorem MayAnswer.noDesc {st : Status} {v : Word} {d : Option Descriptor} (h : MayAnswer s i ⟨st, v, d⟩) :
    MayAnswer s i ⟨st, v, none⟩ := by
  cases h with
  | ok => exact .ok v none
  | badCmd h => exact .badCmd h
  | ringFull hp h => exact .ringFull hp h
  | ringEmpty hp h => exact .ringEmpty hp h

theorem MayAnswer.not_badCmd (h : MayAnswer s i r) (hl : i.opcode ∈ legalOpcodes s.port (burstOf s.port s)) :
    r.status ≠ .badCmd := by
  cases h with
  | badCmd hi => exact absurd hl hi
  | ok | ringFull | ringEmpty => simp

theorem MayAnswer.status (h : MayAnswer s i r) :
    (r.status = .ok ∨ r.status = .badCmd
        ∨ (r.status = .ringFull ∧ s.port = .producer ∧ ∃ a, i = .enq a)
        ∨ (r.status = .ringEmpty ∧ s.port = .consumer ∧ ∃ a, i = .deq a ∨ i = .peek a))
      ∧ (r.status ≠ .ok → r.val = 0 ∧ r.desc = none) := by
  cases h with
  | ok => exact ⟨.inl rfl, fun hn => absurd rfl hn⟩
  | badCmd => exact ⟨.inr (.inl rfl), fun _ => ⟨rfl, rfl⟩⟩
  | ringFull hp h => exact ⟨.inr (.inr (.inl ⟨rfl, hp, h⟩)), fun _ => ⟨rfl, rfl⟩⟩
  | ringEmpty hp h => exact ⟨.inr (.inr (.inr ⟨rfl, hp, h⟩)), fun _ => ⟨rfl, rfl⟩⟩

/-- `exec_responds`, with what may be answered. -/
theorem exec_mayAnswer (h : exec i s = .next t) :
    ∃ st v d u, t = respond st v d u ∧ SameStreams s u ∧ MayAnswer s i ⟨st, v, d⟩ := by
  cases exec_kind h
  case badCmd hi => exact ⟨_, _, _, _, rfl, .refl s, .badCmd hi⟩
  case ringFull a hp hb hf => exact ⟨_, _, _, _, rfl, .refl s, .ringFull hp ⟨a, rfl⟩⟩
  case ringEmptyDeq a hp hb he => exact ⟨_, _, _, _, rfl, .refl s, .ringEmpty hp ⟨a, .inl rfl⟩⟩
  case ringEmptyPeek a hp hb he => exact ⟨_, _, _, _, rfl, .refl s, .ringEmpty hp ⟨a, .inr rfl⟩⟩
  all_goals exact ⟨_, _, _, _, rfl, ⟨rfl, rfl, rfl, rfl, rfl⟩, .ok _ _⟩

theorem exec_answers_producer (h : exec i s = .next t) (hp : s.port = .producer) :
    ∃ r, t.pOut = s.pOut ++ [r] ∧ t.cOut = s.cOut ∧ r.desc = none ∧ MayAnswer s i r := by
  obtain ⟨st, v, d, u, rfl, hu, hr⟩ := exec_mayAnswer h
  rw [respond_producer (hu.port.trans hp)]
  exact ⟨⟨st, v, none⟩, congrArg (· ++ [_]) hu.pOut, hu.cOut, rfl, hr.noDesc⟩

theorem exec_answers_consumer (h : exec i s = .next t) (hp : s.port = .consumer) :
    ∃ r, t.cOut = s.cOut ++ [r] ∧ t.pOut = s.pOut ∧ MayAnswer s i r := by
  obtain ⟨st, v, d, u, rfl, hu, hr⟩ := exec_mayAnswer h
  rw [respond_consumer (hu.port.trans hp)]
  exact ⟨⟨st, v, d⟩, congrArg (· ++ [_]) hu.cOut, hu.pOut, hr⟩

end MayAnswer

/-- Settles O10: on its port a command gives one response, which it may answer (`MayAnswer`). -/
theorem statusesComeOnlyFromTheirCommands : Obligations.StatusesComeOnlyFromTheirCommands := by
  intro i s t h
  cases hp : s.port with
  | producer =>
    obtain ⟨r, hpOut, hcOut, hdesc, hr⟩ := exec_answers_producer h hp
    exact ⟨r, .inl ⟨rfl, hpOut, hcOut, hdesc⟩, hp ▸ hr.status⟩
  | consumer =>
    obtain ⟨r, hcOut, hpOut, hr⟩ := exec_answers_consumer h hp
    exact ⟨r, .inr ⟨rfl, hcOut, hpOut⟩, hp ▸ hr.status⟩

theorem legalOpcodes_not_reserved (p : Port) (b : Burst) : ∀ op ∈ legalOpcodes p b, op ∉ reservedOpcodes := by
  cases p <;> cases b <;> simp only [legalOpcodes] <;> decide

/-- A legal header decodes, to a command that is legal. -/
theorem decode_of_legal {p : Port} {b : Burst} {h : Header} (hl : headerOp h ∈ legalOpcodes p b) :
    ∃ i, decode h = .ok i ∧ i.opcode ∈ legalOpcodes p b := by
  obtain ⟨i, hd⟩ := decode_ok_of_not_reserved (legalOpcodes_not_reserved p b _ hl)
  exact ⟨i, hd, (decode_fields hd).1 ▸ hl⟩

/-- Settles O8: a legal header decodes, and `BadCmd` is the answer to an illegal command only (`MayAnswer.not_badCmd`). -/
theorem legalCommandNeverAnswersBadCmd : Obligations.LegalCommandNeverAnswersBadCmd := by
  intro s t ts hl hx
  constructor
  · intro c rest hts hi hop
    obtain ⟨i, hd, hlegal⟩ := decode_of_legal hop
    rw [step_commandP hts hl hi hd] at hx
    obtain ⟨r, hpOut, _, _, hr⟩ := exec_answers_producer hx rfl
    exact ⟨r, hpOut, hr.not_badCmd hlegal⟩
  · intro w rest hts hi hop
    obtain ⟨i, hd, hlegal⟩ := decode_of_legal hop
    rw [step_commandC hts hl hi hd] at hx
    obtain ⟨r, hcOut, _, hr⟩ := exec_answers_consumer hx rfl
    exact ⟨r, hcOut, hr.not_badCmd hlegal⟩

/-- Settles O9: the three moves of the streams (`step_streamsMove`), the lists of one or no command written out. -/
theorem everyCommandGetsOneResponse : Obligations.EveryCommandGetsOneResponse := by
  intro s t h
  cases step_streamsMove h with
  | producer _ c r hin hout hcIn hcOut => exact ⟨⟨[c], [r], hin, hout, rfl, le_rfl⟩, [], [], by simp [hcIn, hcOut]⟩
  | consumer _ w r hin hout hpIn hpOut => exact ⟨⟨[], [], by simp [hpIn, hpOut]⟩, [w], [r], hin, hout, rfl, le_rfl⟩
  | neither _ _ hs => exact ⟨⟨[], [], by simp [hs.pIn, hs.pOut]⟩, [], [], by simp [hs.cIn, hs.cOut]⟩

/-- Settles O6: `step_commandP` and `step_commandC`, the accepted state written out. -/
theorem stepRunsTheDecodedCommand : Obligations.StepRunsTheDecodedCommand := fun _ _ _ hl =>
  ⟨fun _ _ hts hi hd => step_commandP hts hl hi hd, fun _ _ hts hi hd => step_commandC hts hl hi hd⟩

/-- Settles O12: the meanings of the nine commands do not mention their argument. -/
theorem argumentBitsAreIgnored : Obligations.ArgumentBitsAreIgnored := fun _ _ _ =>
  ⟨rfl, rfl, rfl, rfl, rfl, rfl, rfl, rfl, rfl⟩

end Sys2Proof.Machine

/-! ## The flag outputs and the queries (R139 to R147) -/

namespace Sys2Proof.Machine

open Sys2Proof

/-! ### The wires of a port and what a query answers -/

theorem flagOutputs_live {s : State} (hl : s.live = true) (p : Port) :
    flagOutputs p s = ⟨isEmptyView (viewOf p s), isFullView s.build s.mask (viewOf p s), countOf s.build s.mask (viewOf p s),
      spaceOf s.build s.capacity s.mask (viewOf p s)⟩ := if_pos hl

theorem flagOutputs_noRing {s : State} (hl : s.live = false) (p : Port) : flagOutputs p s = ⟨true, true, 0, 0⟩ := by
  simp [flagOutputs, hl]

/-- A flag on the `val` wires is 1 exactly when the two words it compares are equal (R107). -/
theorem boolWord_beq (x y : Word) : boolWord (x == y) = if x = y then 1 else 0 := by
  simp [boolWord]

theorem exec_isEmpty (a : Word) (s : State) :
    exec (.isEmpty a) s = .next (respond .ok (boolWord (isEmptyView (viewOf s.port s))) none s) := rfl

theorem exec_isFull (a : Word) (s : State) :
    exec (.isFull a) s = .next (respond .ok (boolWord (isFullView s.build s.mask (viewOf s.port s))) none s) := rfl

theorem exec_space (a : Word) (s : State) :
    exec (.space a) s = .next (respond .ok (spaceOf s.build s.capacity s.mask (viewOf s.port s)) none s) := rfl

theorem exec_count (a : Word) (s : State) :
    exec (.count a) s = .next (respond .ok (countOf s.build s.mask (viewOf s.port s)) none s) := rfl

/-- Settles O14: the answers of `exec_isEmpty` and `exec_isFull`, each port's view written out. -/
theorem emptyAndFullQueriesAnswer : Obligations.EmptyAndFullQueriesAnswer := by
  intro a s
  rw [exec_isEmpty, exec_isFull]
  constructor
  · intro hp
    rw [respond_producer hp, respond_producer hp, hp, isEmptyView, isFullView, boolWord_beq, boolWord_beq]
    exact ⟨rfl, rfl⟩
  · intro hp
    rw [respond_consumer hp, respond_consumer hp, hp, isEmptyView, isFullView, boolWord_beq, boolWord_beq]
    exact ⟨rfl, rfl⟩

/-- Settles O15: the answers of `exec_space` and `exec_count`, each port's view written out. -/
theorem spaceAndCountQueriesAnswer : Obligations.SpaceAndCountQueriesAnswer := by
  intro a s
  rw [exec_space, exec_count]
  constructor
  · intro hp
    rw [respond_producer hp, respond_producer hp, hp]
    exact ⟨rfl, rfl⟩
  · intro hp
    rw [respond_consumer hp, respond_consumer hp, hp]
    exact ⟨rfl, rfl⟩

/-- Settles O16: the wires of a live ring are the quantities of the port's view (`flagOutputs_live`), which are what the
queries answer. -/
theorem flagOutputsAreCombinational : Obligations.FlagOutputsAreCombinational := by
  intro s
  refine ⟨fun hl => ?_, flagOutputs_noRing⟩
  simp only [flagOutputs_live hl]
  exact ⟨rfl, rfl, fun a => ⟨exec_isEmpty a s, exec_isFull a s, exec_count a s, exec_space a s⟩⟩

/-! ### The identities of one view (R147) -/

section Identities

variable {g : Ghost} {s : State}

/-- Neither view counts more than `capacity − 1` items (R36 I1). -/
theorem LiveInv.countOf_le (hs : s.build.wf = true) (h : LiveInv g s) (p : Port) :
    (countOf s.build s.mask (viewOf p s)).toNat ≤ s.capacity.toNat - 1 := by
  have h1 := h.chainT; have h3 := h.chainH; have h4 := h.chainCap
  cases p with
  | producer => rw [h.pView hs]; omega
  | consumer => rw [h.cView hs]; omega

/-- A view is full exactly when its count is `capacity − 1` (R141). -/
theorem LiveInv.isFullView_iff (h : LiveInv g s) (v : View) :
    isFullView s.build s.mask v = true ↔ countOf s.build s.mask v = s.capacity - 1 := by
  rw [isFullView, beq_iff_eq, h.maskEq]

end Identities

/-- Settles O17: for a count `n ≤ capacity − 1`, empty is `n = 0`, full is `n = capacity − 1` and the space is
`capacity − 1 − n`. -/
theorem queryIdentitiesHold : Obligations.QueryIdentitiesHold := by
  intro s p hinv hl
  obtain ⟨g, h⟩ := hinv.live hl
  have hcap := h.capMin
  have hle := h.countOf_le hinv.build p
  have hspace := h.space_toNat hle
  have hzero : ∀ w : Word, w = 0 ↔ w.toNat = 0 := fun _ => BitVec.toNat_inj.symm
  have hmost : ∀ w : Word, w = s.capacity - 1 ↔ w.toNat = s.capacity.toNat - 1 := fun w => by
    rw [← BitVec.toNat_inj, mask_toNat _ (by omega)]
  simp only [flagOutputs_live hl, h.isEmptyView_iff hinv.build p, h.isFullView_iff, hzero, hmost, hspace, true_and]
  omega

/-! ### The views and the true occupancy (R145) -/

/-- A move of a channel leaves the copy at a logical index between where it was and the register's. -/
theorem Channel.Holds.moved_copy {b : Params} {c d : Channel} {base newest : Nat} {l : List Nat}
    (h : c.Holds b base newest l) (hm : c.Moves d) : ∃ x, base ≤ x ∧ x ≤ newest ∧ d.copy = idxOf b x := by
  rcases hm with ⟨hcopy, _⟩ | ⟨hcopy, _⟩ | ⟨_, k, hk, hv, _⟩
  · exact ⟨base, le_rfl, h.le, hcopy.trans h.copy⟩
  · exact ⟨base, le_rfl, h.le, hcopy.trans h.copy⟩
  · obtain ⟨x, hx, hxv⟩ : ∃ x, l[k - 1]? = some x ∧ idxOf b x = d.copy := by simpa [h.flight] using hv
    obtain ⟨_, hlo, hhi⟩ := h.ok.drop hk hx
    exact ⟨x, hlo.le, hhi, hxv.symm⟩

section Bracket

variable {g : Ghost} {s t : State} {x : Turn} {ts : List Turn}

/-- On a live ring only P's turn moves `head`. -/
theorem step_head_of_ne (hx : step s = .next t) (hl : s.live = true) (ht : t.live = true) (hts : s.turns = x :: ts)
    (hne : x ≠ .p) : t.head = s.head := by
  rcases step_registers hx hl ht with ⟨e, _⟩ | ⟨_, _, _, _, _, _, hp, _⟩ | ⟨e, _⟩
  · exact e
  · exact absurd (List.cons.inj (hts.symm.trans hp)).1 hne
  · exact e

/-- On a live ring only C's turn moves `tail`. -/
theorem step_tail_of_ne (hx : step s = .next t) (hl : s.live = true) (ht : t.live = true) (hts : s.turns = x :: ts)
    (hne : x ≠ .c) : t.tail = s.tail := by
  rcases step_registers hx hl ht with ⟨_, e⟩ | ⟨e, _⟩ | ⟨_, _, _, _, _, _, hc, _⟩
  · exact e
  · exact e
  · exact absurd (List.cons.inj (hts.symm.trans hc)).1 hne

/-- A C view that is not empty has an item. -/
theorem LiveInv.item_of_not_empty (h : LiveInv g s) (hs : s.build.wf = true)
    (he : isEmptyView (viewOf .consumer s) = false) : g.T < g.Hc := by
  have hne : ¬ g.Hc = g.T := (h.empty_iff hs).not.mp (beq_eq_false_iff_ne.mp he)
  have := h.chainHc
  omega

/-- A P view that is not full stays so while `head` stays: `tail_p` only comes nearer to `tail`. -/
theorem LiveInv.not_full_step (h : LiveInv g s) (hs : s.build.wf = true) (hc : SameConfig s t)
    (hm : s.tailChannel.Moves t.tailChannel) (hhead : t.head = s.head)
    (hf : isFullView s.build s.mask (viewOf .producer s) = false) :
    isFullView t.build t.mask (viewOf .producer t) = false := by
  have hroom := h.room_of_not_full hs hf
  obtain ⟨y, hlo, hhi, hy⟩ := (h.tailChannel hs).moved_copy hm
  have h2 := h.chainHc; have h3 := h.chainH
  have hview : viewOf .producer t = ⟨idxOf s.build g.H, idxOf s.build y⟩ := congrArg₂ View.mk (hhead.trans h.headEq) hy
  have hcount := h.countOf_idxOf hs (x := g.H) (y := y) (by omega) (by omega)
  rw [hview, hc.build, hc.mask, isFullView, beq_eq_false_iff_ne]
  intro he
  rw [he, h.mask_toNat] at hcount
  omega

/-- A C view that is not empty stays so while `tail` stays: `head_c` only comes nearer to `head`. -/
theorem LiveInv.not_empty_step (h : LiveInv g s) (hs : s.build.wf = true) (hm : s.headChannel.Moves t.headChannel)
    (htail : t.tail = s.tail) (he : isEmptyView (viewOf .consumer s) = false) : isEmptyView (viewOf .consumer t) = false := by
  have hitem := h.item_of_not_empty hs he
  obtain ⟨y, hlo, hhi, hy⟩ := (h.headChannel hs).moved_copy hm
  have hcap := h.capMin
  have h1 := h.chainT; have h4 := h.chainCap
  have hview : viewOf .consumer t = ⟨idxOf s.build y, idxOf s.build g.T⟩ := congrArg₂ View.mk hy (htail.trans h.tailEq)
  rw [hview, isEmptyView, beq_eq_false_iff_ne, ne_eq, h.idxOf_inj hs (by omega) (by omega)]
  omega

end Bracket

/-- Settles O18: the bracket is `T_p ≤ T ≤ H_c ≤ H` (R36 I1), and a clear flag stays clear because another agent's step
leaves the port's own register and moves its copy of the other only forward (`step_channels`). -/
theorem viewsBracketTheOccupancy : Obligations.ViewsBracketTheOccupancy := by
  intro s hinv hl
  obtain ⟨g, h⟩ := hinv.live hl
  have hs := hinv.build
  have h1 := h.chainT; have h2 := h.chainHc; have h3 := h.chainH; have h4 := h.chainCap
  simp only [flagOutputs_live hl, h.pView hs, h.cView hs, h.occupancy hs]
  refine ⟨by omega, by omega, by omega, fun hf => ?_, fun he => ?_, fun t x ts hts hx ht => ?_⟩
  · have hroom := h.room_of_not_full hs hf
    omega
  · have hitem := h.item_of_not_empty hs he
    omega
  · obtain ⟨hheadMoves, htailMoves⟩ := step_channels hx hl ht
    simp only [flagOutputs_live ht]
    exact ⟨fun hne => h.not_full_step hs (step_sameConfig hx hl ht) htailMoves (step_head_of_ne hx hl ht hts hne),
      fun hne => h.not_empty_step hs hheadMoves (step_tail_of_ne hx hl ht hts hne)⟩

end Sys2Proof.Machine

/-! ## The producer's commands, whole (R160 to R164, R115) -/

namespace Sys2Proof.Machine

open Sys2Proof

/-! ### One command (R160, R161, R162) -/

section Command

variable {s : State}

/-- What a command that is illegal on P answers (R109, R110). -/
theorem exec_badCmd_producer {i : Instr} (hp : s.port = .producer) (h : i.opcode ∉ legalOpcodes .producer s.pBurst) :
    exec i s = .next { s with pOut := s.pOut ++ [⟨.badCmd, 0, none⟩] } := by
  have hill : isIllegal s i := by rw [isIllegal, hp]; exact h
  rw [exec_illegal hill, fail, respond_producer hp]

theorem enq_illegal_in_burst (a : Word) {b : Burst} (hb : b ≠ .idle) : (Instr.enq a).opcode ∉ legalOpcodes .producer b := by
  simp [opcode_mem_legalOpcodes, isQuery, hb]

theorem enqb_illegal_in_burst (len : Word) {b : Burst} (hb : b ≠ .idle) :
    (Instr.enqb len).opcode ∉ legalOpcodes .producer b := by
  simp [opcode_mem_legalOpcodes, isQuery, hb]

theorem enqd_illegal_idle (a : Word) : (Instr.enqd a).opcode ∉ legalOpcodes .producer .idle := by
  simp [opcode_mem_legalOpcodes, isQuery]

/-! The three stores of P with their response, as one update of the state. -/

theorem exec_enq_producer (a : Word) (hp : s.port = .producer) (hb : s.pBurst = .idle)
    (hf : isFullView s.build s.mask (viewOf .producer s) = false) (ha : enqSlot s < s.build.maxCapacity) :
    exec (.enq a) s = .next { s with
      slots := s.slots.write (enqSlot s) s.descIn, head := idxAdd s.build s.head 1,
      hFlight := s.hFlight ++ [idxAdd s.build s.head 1], pOut := s.pOut ++ [⟨.ok, 0, none⟩] } := by
  rw [exec_enq_next a hp hb hf ha, respond_producer]
  · rfl
  · exact hp

theorem exec_enqd_beat_producer (a n i : Word) (hp : s.port = .producer) (hb : s.pBurst = .opened n i)
    (ha : enqdSlot i s < s.build.maxCapacity) (hi : i.toNat + 1 < n.toNat) :
    exec (.enqd a) s = .next { s with
      slots := s.slots.write (enqdSlot i s) s.descIn, pBurst := .opened n (i + 1),
      pOut := s.pOut ++ [⟨.ok, n - i - 1, none⟩] } := by
  rw [exec_enqd_beat a n i hp hb ha hi, respond_producer]
  exact hp

theorem exec_enqd_commit_producer (a n i : Word) (hp : s.port = .producer) (hb : s.pBurst = .opened n i)
    (ha : enqdSlot i s < s.build.maxCapacity) (hi : n.toNat ≤ i.toNat + 1) :
    exec (.enqd a) s = .next { s with
      slots := s.slots.write (enqdSlot i s) s.descIn, head := idxAdd s.build s.head n,
      hFlight := s.hFlight ++ [idxAdd s.build s.head n], pBurst := .idle, pOut := s.pOut ++ [⟨.ok, 0, none⟩] } := by
  rw [exec_enqd_commit a n i hp hb ha hi, respond_producer]
  · rfl
  · exact hp

end Command

/-- Settles O19: illegal in a burst, `RingFull` on a full view, else the one store of `exec_enq_producer`. -/
theorem enqWritesOneSlotAndAdvancesHead : Obligations.EnqWritesOneSlotAndAdvancesHead := by
  intro a s hp
  refine ⟨fun hb => exec_badCmd_producer hp (enq_illegal_in_burst a hb), fun hb hf => ?_, fun hb hf ha => ?_⟩
  · rw [exec_enq_full a hp hb (beq_iff_eq.mpr hf), fail, respond_producer hp]
  · exact ⟨_, exec_enq_producer a hp hb (beq_eq_false_iff_ne.mpr hf) ha, fun x => Memory.read_write _ _ x _, rfl⟩

/-- Settles O20: the grant `n` is `minWord` of the length and the P space, and a burst is opened unless it is 0. -/
theorem enqbGrantsMinOfLengthAndSpace : Obligations.EnqbGrantsMinOfLengthAndSpace := by
  intro len n s hp
  refine ⟨fun hb => exec_badCmd_producer hp (enqb_illegal_in_burst len hb), fun hb hn => ?_⟩
  have hmin : n = minWord len (spaceOf s.build s.capacity s.mask (viewOf .producer s)) :=
    BitVec.eq_of_toNat_eq (hn.trans (minWord_toNat ..).symm)
  by_cases h0 : n = 0
  · subst h0
    rw [exec_enqb_none len hp hb hmin.symm, respond_producer hp, if_pos rfl, ← hb]
  · rw [exec_enqb_next len n hp hb hmin h0, respond_producer, if_neg h0]
    exact hp

/-- Settles O21: illegal when idle, else the store of `exec_enqd_beat_producer` or, on the last beat, of
`exec_enqd_commit_producer`. -/
theorem enqdWritesABeatAndCommitsTheLast : Obligations.EnqdWritesABeatAndCommitsTheLast := by
  intro a n i s hp
  refine ⟨fun hb => exec_badCmd_producer hp (hb ▸ enqd_illegal_idle a), fun hb ha => ?_⟩
  by_cases hi : i.toNat + 1 < n.toNat
  · exact ⟨_, exec_enqd_beat_producer a n i hp hb ha hi, fun x => Memory.read_write _ _ x _, fun _ => rfl,
      fun he => by omega⟩
  · exact ⟨_, exec_enqd_commit_producer a n i hp hb ha (by omega), fun x => Memory.read_write _ _ x _,
      fun hlt => absurd hlt hi, fun _ => rfl⟩

/-! ### What P learns of C (R164) -/

section Noninterference

variable {s t u : State} {i : Instr}

/-- `s` with the slots and the consumer's side, all that P may not read, as they are in `o`. -/
def State.withConsumerOf (s o : State) : State :=
  { s with
    slots := o.slots, tail := o.tail, headC := o.headC, cBurst := o.cBurst, tFlight := o.tFlight,
    cfgStatus := o.cfgStatus, cIn := o.cIn, cOut := o.cOut }

theorem sameForProducer_iff {s' : State} : SameForProducer s s' ↔ ∃ o, s' = s.withConsumerOf o :=
  ⟨fun h => ⟨s', h⟩, by rintro ⟨o, rfl⟩; rfl⟩

/-- The same response leaves two states different in the consumer's side only. -/
theorem sameForProducer_respond {u' : State} (h : u' = u.withConsumerOf u') (st : Status) (v : Word) (d : Option Descriptor) :
    SameForProducer (respond st v d u) (respond st v d u') := by
  rw [SameForProducer, h]
  unfold respond State.withConsumerOf
  cases u.port <;> rfl

/-- Which slot P's command stores to does not depend on the consumer's side. -/
theorem storedSlot_withConsumerOf (i : Instr) (s o : State) : storedSlot i (s.withConsumerOf o) = storedSlot i s := by
  cases i <;> rfl

theorem isIllegal_withConsumerOf (hp : s.port = .producer) (o : State) (h : isIllegal s i) :
    isIllegal (s.withConsumerOf o) i := by
  rw [isIllegal, hp] at h
  have hp' : (s.withConsumerOf o).port = .producer := hp
  rw [isIllegal, hp']
  exact h

theorem query_withConsumerOf (hp : s.port = .producer) (o : State) (hq : isQuery i) (h : exec i s = .next t) :
    ∃ t', exec i (s.withConsumerOf o) = .next t' ∧ SameForProducer t t' := by
  have hview : viewOf (s.withConsumerOf o).port (s.withConsumerOf o) = viewOf s.port s := by
    have hp' : (s.withConsumerOf o).port = .producer := hp
    rw [hp, hp']; rfl
  cases i with
  | isEmpty a => cases h; exact ⟨_, by rw [exec_isEmpty, hview], sameForProducer_respond rfl _ _ _⟩
  | isFull a => cases h; exact ⟨_, by rw [exec_isFull, hview]; rfl, sameForProducer_respond rfl _ _ _⟩
  | space a => cases h; exact ⟨_, by rw [exec_space, hview]; rfl, sameForProducer_respond rfl _ _ _⟩
  | count a => cases h; exact ⟨_, by rw [exec_count, hview]; rfl, sameForProducer_respond rfl _ _ _⟩
  | enq | enqb | enqd | deq | peek | deqb | deqd => exact hq.elim

/-- A command of P answers a next state whatever the consumer's side, and the two next states differ there only. -/
theorem exec_withConsumerOf (hp : s.port = .producer) (o : State) (h : exec i s = .next t) :
    ∃ t', exec i (s.withConsumerOf o) = .next t' ∧ SameForProducer t t' := by
  cases exec_kind h
  case query v hq => exact query_withConsumerOf hp o hq h
  case badCmd hq => exact ⟨_, exec_illegal (isIllegal_withConsumerOf hp o hq), sameForProducer_respond rfl _ _ _⟩
  case ringFull a _ hb hf => exact ⟨_, exec_enq_full a hp hb hf, sameForProducer_respond rfl _ _ _⟩
  case enq a _ hb hf ha => exact ⟨_, exec_enq_next a hp hb hf ha, sameForProducer_respond rfl _ _ _⟩
  case grantNoneP len _ hb hn => exact ⟨_, exec_enqb_none len hp hb hn, sameForProducer_respond rfl _ _ _⟩
  case grantP len n _ hb hn h0 => exact ⟨_, exec_enqb_next len n hp hb hn h0, sameForProducer_respond rfl _ _ _⟩
  case beatP a n j _ hb ha hj => exact ⟨_, exec_enqd_beat a n j hp hb ha hj, sameForProducer_respond rfl _ _ _⟩
  case commitP a n j _ hb ha hj => exact ⟨_, exec_enqd_commit a n j hp hb ha hj, sameForProducer_respond rfl _ _ _⟩
  all_goals cases hp.symm.trans ‹s.port = .consumer›

/-- A command of P that stops, stops alike whatever the consumer's side. -/
theorem execStops_withConsumerOf {f : Fault} (hp : s.port = .producer) (o : State) (h : ExecStops s i f) :
    ExecStops (s.withConsumerOf o) i f := by
  cases h
  case enq a _ hb hf he =>
    have hfault := storeSlot_error_iff.mp he
    exact .enq a f hp hb hf (storeSlot_error_iff.mpr hfault)
  case enqd a n j _ hb he =>
    have hfault := storeSlot_error_iff.mp he
    exact .enqd a n j f hp hb (storeSlot_error_iff.mpr hfault)
  all_goals cases hp.symm.trans ‹s.port = .consumer›

end Noninterference

/-- Settles O41: both runs answer or both stop; what each stores, and where, is `exec_read`'s. -/
theorem producerLearnsNothingOfTheConsumer : Obligations.ProducerLearnsNothingOfTheConsumer := by
  intro i s s' hp hsame
  obtain ⟨o, rfl⟩ := sameForProducer_iff.mp hsame
  rcases exec_total i s with ⟨t, ht⟩ | ⟨f, hf, hstop⟩
  · obtain ⟨t', ht', hdiff⟩ := exec_withConsumerOf hp o ht
    refine .inl ⟨t, t', ht, ht', hdiff, fun x => ?_⟩
    rw [exec_read ht x, exec_read ht' x, storedSlot_withConsumerOf i s o]
    exact ⟨fun hx => by simp [hx, State.withConsumerOf], fun hx => by simp [hx]⟩
  · exact .inr ⟨f, hf, exec_stops (execStops_withConsumerOf hp o hstop)⟩

end Sys2Proof.Machine

/-! ## A burst of beats without a step of another agent (R162, R163, R115) -/

namespace Sys2Proof.Machine

open Sys2Proof

/-! ### Writing a list of items -/

/-- The storage `m` once the items are written in order, item `j` to slot `slot (k + j)`. -/
def Memory.writeItems (m : Memory) (slot : Nat → Nat) (k : Nat) : List Descriptor → Memory
  | [] => m
  | d :: ds => Memory.writeItems (m.write (slot k) d) slot (k + 1) ds

section WriteItems

variable {slot : Nat → Nat} {ds : List Descriptor} {k : Nat} {m : Memory}

/-- The other slots read as before. -/
theorem Memory.read_writeItems_other {x : Nat} (h : ∀ j < ds.length, x ≠ slot (k + j)) :
    (m.writeItems slot k ds).read x = m.read x := by
  induction ds generalizing k m with
  | nil => rfl
  | cons d ds ih =>
    have hnext : ∀ j < ds.length, x ≠ slot (k + 1 + j) := fun j hj => by
      rw [Nat.add_right_comm, Nat.add_assoc]
      exact h (j + 1) (Nat.succ_lt_succ hj)
    rw [writeItems, ih hnext]
    exact Memory.read_write_other _ _ _ _ (h 0 (Nat.succ_pos _))

/-- Slots that are all different hold the items. -/
theorem Memory.read_writeItems_item (hne : ∀ j < ds.length, ∀ j' < j, slot (k + j) ≠ slot (k + j')) {j : Nat}
    (hj : j < ds.length) : (m.writeItems slot k ds).read (slot (k + j)) = ds[j]? := by
  induction ds generalizing k m j with
  | nil => cases hj
  | cons d ds ih =>
    have hassoc : ∀ j, slot (k + (j + 1)) = slot (k + 1 + j) := fun j => by rw [Nat.add_right_comm, Nat.add_assoc]
    cases j with
    | zero =>
      rw [writeItems, read_writeItems_other fun j' hj' => ?_, Nat.add_zero, read_write_same, List.getElem?_cons_zero]
      rw [← hassoc]
      exact (hne (j' + 1) (Nat.succ_lt_succ hj') 0 (Nat.succ_pos _)).symm
    | succ j =>
      rw [writeItems, hassoc, List.getElem?_cons_succ]
      refine ih (fun i hi i' hi' => ?_) (Nat.lt_of_succ_lt_succ hj)
      rw [← hassoc, ← hassoc]
      exact hne (i + 1) (Nat.succ_lt_succ hi) (i' + 1) (Nat.succ_lt_succ hi')

end WriteItems

/-! ### The beats of a burst, one after the other -/

/-- The responses of the last `k` beats of a burst, the last of them 0 (R162). -/
def beatResponses (k : Nat) : List Response := (List.range k).map fun j => ⟨.ok, BitVec.ofNat 32 (k - 1 - j), none⟩

theorem beatResponses_succ (k : Nat) : beatResponses (k + 1) = ⟨.ok, BitVec.ofNat 32 k, none⟩ :: beatResponses k := by
  rw [beatResponses, List.range_succ_eq_map, List.map_cons, List.map_map, beatResponses]
  congr 1
  refine List.map_congr_left fun j _ => ?_
  simp only [Function.comp, Nat.succ_eq_add_one, Nat.add_sub_cancel, Nat.sub_sub, Nat.add_comm 1]

/-- The slot of beat `j` of an enqueue burst (R162). -/
def beatSlot (s : State) (j : Nat) : Nat := enqdSlot (BitVec.ofNat 32 j) s

/-- In `u` the burst of `n` items is open with `k` beats done, the beats for the other items `ds` are presented, and P has
the next turns. -/
structure BeatsPresented (n : Word) (k : Nat) (ds : List Descriptor) (pr : List PCmd) (ts : List Turn) (u : State) : Prop where
  live : u.live = true
  slot : ∀ j, beatSlot u j < u.build.maxCapacity
  desc : ∀ d ∈ ds, d.wf u.build = true
  count : k + ds.length = n.toNat
  burst : u.pBurst = .opened n (BitVec.ofNat 32 k)
  pIn : u.pIn = ds.map (presented u.build (.enqd 0)) ++ pr
  turns : u.turns = List.replicate ds.length .p ++ ts

/-- `u` once the beats for the items `ds` have committed the burst of `n`, `d` being the last item. -/
def afterBeats (n : Word) (k : Nat) (ds : List Descriptor) (pr : List PCmd) (ts : List Turn) (d : Descriptor) (u : State) :
    State :=
  { u with
    slots := u.slots.writeItems (beatSlot u) k ds, head := idxAdd u.build u.head n,
    hFlight := u.hFlight ++ [idxAdd u.build u.head n], pBurst := .idle, pOut := u.pOut ++ beatResponses ds.length,
    pIn := pr, turns := ts, port := .producer, descIn := d }

theorem unpack_packDescriptor {b : Params} {d : Descriptor} (h : d.wf b = true) : unpackDescriptor b (packDescriptor b d) = d :=
  (descriptorBitsFollowTheLayout.2 b d h).2

section Beats

variable {s u : State} {n : Word} {k : Nat} {d : Descriptor} {ds : List Descriptor} {pr : List PCmd} {ts : List Turn}

/-- P's turn runs the command presented to it with its descriptor. -/
theorem step_presented {i : Instr} (hl : s.live = true) (hd : d.wf s.build = true) (hi : s.pIn = presented s.build i d :: pr)
    (hts : s.turns = .p :: ts) :
    step s = exec i { s with turns := ts, pIn := pr, port := .producer, descIn := d } := by
  rw [step_commandP hts hl hi (decode_encode i), acceptedP, presented, unpack_packDescriptor hd]

/-- A beat that is not the last leaves the others presented, and it does its part of `afterBeats`. -/
theorem BeatsPresented.step_beat {d' : Descriptor} (h : BeatsPresented n k (d :: d' :: ds) pr ts u) :
    ∃ v, step u = .next v ∧ BeatsPresented n (k + 1) (d' :: ds) pr ts v
      ∧ ∀ e, afterBeats n (k + 1) (d' :: ds) pr ts e v = afterBeats n k (d :: d' :: ds) pr ts e u := by
  have hn := n.isLt
  have hcount := h.count
  simp only [List.length_cons] at hcount
  have hk : (BitVec.ofNat 32 k).toNat = k := Nat.mod_eq_of_lt (by omega)
  have hsucc : BitVec.ofNat 32 k + 1 = BitVec.ofNat 32 (k + 1) := (BitVec.ofNat_add ..).symm
  have hval : n - BitVec.ofNat 32 k - 1 = BitVec.ofNat 32 (ds.length + 1) := by
    apply BitVec.eq_of_toNat_eq
    rw [BitVec.toNat_sub, BitVec.toNat_sub, hk, one_toNat, BitVec.toNat_ofNat]
    omega
  have hx := step_presented h.live (h.desc d List.mem_cons_self) h.pIn h.turns
  refine ⟨_, hx.trans (exec_enqd_beat_producer 0 n (BitVec.ofNat 32 k) rfl h.burst (h.slot k) (by omega)),
    ⟨h.live, h.slot, fun e he => h.desc e (List.mem_cons_of_mem _ he), ?_, ?_, rfl, rfl⟩, fun e => ?_⟩
  · simp only [List.length_cons]; omega
  · exact congrArg _ hsucc
  · simp only [afterBeats, List.length_cons, beatResponses_succ (ds.length + 1), hval, List.append_assoc]
    rfl

/-- The last beat commits the burst. -/
theorem BeatsPresented.step_commit (h : BeatsPresented n k [d] pr ts u) : step u = .next (afterBeats n k [d] pr ts d u) := by
  have hn := n.isLt
  have hcount : k + 1 = n.toNat := h.count
  have hk : (BitVec.ofNat 32 k).toNat = k := Nat.mod_eq_of_lt (by omega)
  refine (step_presented h.live (h.desc d List.mem_cons_self) h.pIn h.turns).trans ?_
  exact exec_enqd_commit_producer 0 n (BitVec.ofNat 32 k) rfl h.burst (h.slot k) (by omega)

/-- All beats that are left commit the burst. -/
theorem BeatsPresented.stepN (h : BeatsPresented n k ds pr ts u) (hne : ds ≠ []) :
    ∃ d, stepN ds.length u = .next (afterBeats n k ds pr ts d u) := by
  induction ds generalizing k u with
  | nil => exact absurd rfl hne
  | cons d ds ih =>
    cases ds with
    | nil => exact ⟨d, by simp only [List.length_singleton, Machine.stepN, h.step_commit]⟩
    | cons d' ds =>
      obtain ⟨v, hx, hv, hafter⟩ := h.step_beat
      obtain ⟨e, he⟩ := ih hv (List.cons_ne_nil d' ds)
      exact ⟨e, by rw [List.length_cons, Machine.stepN, hx, ← hafter e]; exact he⟩

end Beats

/-! ### The whole transaction (R163) -/

/-- In `s` with P's burst idle the expansion of `enqueue_bulk items` is presented, `n` being the grant, and P has the next
turns. -/
structure BulkPresented (items : List Descriptor) (n : Nat) (pr : List PCmd) (ts : List Turn) (s : State) : Prop where
  live : s.live = true
  idle : s.pBurst = .idle
  length : items.length < 2 ^ 32
  desc : ∀ d ∈ items, d.wf s.build = true
  grant : n = min items.length (flagOutputs .producer s).space.toNat
  pIn : s.pIn = (PCall.enqueueBulk items).expand s.build n ++ pr
  turns : s.turns = List.replicate (n + 1) .p ++ ts

/-- `s` once the ENQB of the expansion is granted `n` items. -/
def afterEnqb (items : List Descriptor) (n : Nat) (pr : List PCmd) (ts : List Turn) (s : State) : State :=
  { s with
    pBurst := if BitVec.ofNat 32 n = 0 then .idle else .opened (BitVec.ofNat 32 n) 0
    pOut := s.pOut ++ [⟨.ok, BitVec.ofNat 32 n, none⟩]
    pIn := (items.take n).map (presented s.build (.enqd 0)) ++ pr
    turns := List.replicate n .p ++ ts
    port := .producer, descIn := .zero }

/-- `s` once the whole expansion has run: `n` items stored and committed, one value in flight unless `n` is 0, the latch of
the descriptor wires holding `d`. -/
def afterBulk (items : List Descriptor) (n : Nat) (pr : List PCmd) (ts : List Turn) (d : Descriptor) (s : State) : State :=
  { s with
    slots := s.slots.writeItems (beatSlot s) 0 (items.take n), head := idxAdd s.build s.head (BitVec.ofNat 32 n),
    hFlight := s.hFlight ++ (if n = 0 then [] else [idxAdd s.build s.head (BitVec.ofNat 32 n)]),
    pOut := s.pOut ++ ⟨.ok, BitVec.ofNat 32 n, none⟩ :: beatResponses n,
    pIn := pr, turns := ts, port := .producer, descIn := d }

theorem descriptor_zero_wf (b : Params) : Descriptor.zero.wf b = true := by
  simp [Descriptor.wf, Descriptor.zero]

section Bulk

variable {g : Ghost} {s : State} {items : List Descriptor} {n : Nat} {pr : List PCmd} {ts : List Turn}

theorem LiveInv.beatSlot_eq (hs : s.build.wf = true) (h : LiveInv g s) {j : Nat} (hj : j < 2 ^ 32) :
    beatSlot s j = (g.H + j) % s.capacity.toNat := by
  rw [beatSlot, h.enqdSlot hs, BitVec.toNat_ofNat, Nat.mod_eq_of_lt hj]

theorem LiveInv.beatSlot_lt (hs : s.build.wf = true) (h : LiveInv g s) (j : Nat) : beatSlot s j < s.build.maxCapacity := by
  rw [beatSlot, h.enqdSlot hs]
  exact h.slot_lt _

/-- Beats fewer than a capacity apart go to different slots. -/
theorem LiveInv.beatSlot_ne (hs : s.build.wf = true) (h : LiveInv g s) {j j' : Nat} (hlt : j' < j)
    (hj : j < s.capacity.toNat) : beatSlot s j ≠ beatSlot s j' := by
  have hcap := s.capacity.isLt
  rw [h.beatSlot_eq hs (by omega), h.beatSlot_eq hs (by omega)]
  exact mod_ne_of_lt (by omega) (by omega)

theorem BulkPresented.length_take (h : BulkPresented items n pr ts s) : (items.take n).length = n := by
  have := h.grant
  rw [List.length_take]
  omega

theorem BulkPresented.toNat_grant (h : BulkPresented items n pr ts s) : (BitVec.ofNat 32 n).toNat = n := by
  have := h.grant; have := h.length
  exact Nat.mod_eq_of_lt (by omega)

/-- A grant leaves the reserved slot free (R36 I6). -/
theorem BulkPresented.grant_lt (h : BulkPresented items n pr ts s) (hs : s.build.wf = true) (hg : LiveInv g s) :
    n < s.capacity.toNat := by
  have hgrant := h.grant; have hcap := hg.capMin
  rw [flagOutputs_live h.live, hg.pSpace hs] at hgrant
  omega

theorem BulkPresented.step_enqb (h : BulkPresented items n pr ts s) : step s = .next (afterEnqb items n pr ts s) := by
  have hgrant : (BitVec.ofNat 32 n).toNat
      = min (BitVec.ofNat 32 items.length).toNat (flagOutputs .producer s).space.toNat := by
    rw [h.toNat_grant, BitVec.toNat_ofNat, Nat.mod_eq_of_lt h.length]
    exact h.grant
  rw [flagOutputs_live h.live] at hgrant
  refine (step_presented h.live (descriptor_zero_wf _) h.pIn h.turns).trans ?_
  exact (enqbGrantsMinOfLengthAndSpace _ (BitVec.ofNat 32 n) _ rfl).2 h.idle hgrant

/-- A grant of no items is the whole transaction: `head` plus 0 is `head`. -/
theorem BulkPresented.afterEnqb_none (h : BulkPresented items 0 pr ts s) (hs : s.build.wf = true) (hg : LiveInv g s) :
    afterEnqb items 0 pr ts s = afterBulk items 0 pr ts .zero s := by
  have hhead : idxAdd s.build s.head (BitVec.ofNat 32 0) = s.head := (hg.idxAdd_head hs _).trans hg.headEq.symm
  simp [afterEnqb, afterBulk, Memory.writeItems, beatResponses, hhead, h.idle]

theorem BulkPresented.beats (h : BulkPresented items n pr ts s) (hs : s.build.wf = true) (hg : LiveInv g s) (h0 : n ≠ 0) :
    BeatsPresented (BitVec.ofNat 32 n) 0 (items.take n) pr ts (afterEnqb items n pr ts s) where
  live := h.live
  slot j := (hg.beatSlot_lt hs j :)
  desc d hd := h.desc d (List.mem_of_mem_take hd)
  count := by rw [h.length_take, h.toNat_grant, Nat.zero_add]
  burst := if_neg fun e => h0 (by rw [← h.toNat_grant, e]; rfl)
  pIn := rfl
  turns := by rw [h.length_take]; rfl

theorem BulkPresented.afterBeats_eq (h : BulkPresented items n pr ts s) (h0 : n ≠ 0) (d : Descriptor) :
    afterBeats (BitVec.ofNat 32 n) 0 (items.take n) pr ts d (afterEnqb items n pr ts s) = afterBulk items n pr ts d s := by
  simp only [afterBeats, afterBulk, h.length_take, if_neg h0, ← h.idle]
  simp only [afterEnqb, List.append_assoc, List.singleton_append]
  rfl

/-- The expansion runs to its end. -/
theorem BulkPresented.stepN (h : BulkPresented items n pr ts s) (hs : s.build.wf = true) (hg : LiveInv g s) :
    ∃ d, stepN (n + 1) s = .next (afterBulk items n pr ts d s) := by
  by_cases h0 : n = 0
  · subst h0
    exact ⟨.zero, by simp only [Machine.stepN, h.step_enqb, h.afterEnqb_none hs hg]⟩
  · have hne : items.take n ≠ [] := fun e => h0 (by rw [← h.length_take, e]; rfl)
    obtain ⟨d, hd⟩ := (h.beats hs hg h0).stepN hne
    rw [h.length_take, h.afterBeats_eq h0] at hd
    exact ⟨d, by simp only [Machine.stepN, h.step_enqb, hd]⟩

/-- Item `j` ends in the slot `j` places after `head`. -/
theorem BulkPresented.read_item (h : BulkPresented items n pr ts s) (hs : s.build.wf = true) (hg : LiveInv g s) {j : Nat}
    (hj : j < n) (d : Descriptor) : (afterBulk items n pr ts d s).slots.read (beatSlot s j) = items[j]? := by
  have hlen := h.length_take; have hcap := h.grant_lt hs hg
  have hread := Memory.read_writeItems_item (m := s.slots) (slot := beatSlot s) (k := 0) (ds := items.take n) (j := j)
    (fun i hi i' hi' => by
      rw [Nat.zero_add, Nat.zero_add]
      exact hg.beatSlot_ne hs hi' (by omega))
    (by omega)
  rwa [Nat.zero_add, List.getElem?_take_of_lt hj] at hread

theorem BulkPresented.read_other (h : BulkPresented items n pr ts s) {x : Nat} (hx : ∀ j < n, x ≠ beatSlot s j)
    (d : Descriptor) : (afterBulk items n pr ts d s).slots.read x = s.slots.read x := by
  refine Memory.read_writeItems_other fun j hj => ?_
  rw [Nat.zero_add]
  exact hx j (h.length_take ▸ hj)

end Bulk

/-- Settles O55: the grant (`BulkPresented.step_enqb`), then by induction the beats (`BeatsPresented.stepN`), end in
`afterBulk`, whose slots are all different. -/
theorem enqueueBulkIsOneTransaction : Obligations.EnqueueBulkIsOneTransaction := by
  intro s items n pr ts hinv hl hb hlen hd hn hi hts
  obtain ⟨g, hg⟩ := hinv.live hl
  have h : BulkPresented items n pr ts s := ⟨hl, hb, hlen, hd, hn, hi, hts⟩
  obtain ⟨d, hx⟩ := h.stepN hinv.build hg
  exact ⟨_, hx, fun j hj => h.read_item hinv.build hg hj d, fun x hne => h.read_other hne d, rfl, rfl, rfl, rfl⟩

end Sys2Proof.Machine

/-! ## The consumer's commands, whole (R180 to R184, R186) -/

namespace Sys2Proof.Machine

open Sys2Proof

/-! ### One command (R180, R182, R183, R184) -/

section Command

variable {s : State} {i : Instr} {b : Burst} {d : Descriptor}

/-- What a command that is illegal on C answers (R109, R110). -/
theorem exec_badCmd_consumer (hp : s.port = .consumer) (h : i.opcode ∉ legalOpcodes .consumer s.cBurst) :
    exec i s = .next { s with cOut := s.cOut ++ [⟨.badCmd, 0, none⟩] } := by
  have hill : isIllegal s i := by rw [isIllegal, hp]; exact h
  rw [exec_illegal hill, fail, respond_consumer hp]

/-- DEQ, PEEK and DEQB are illegal while a dequeue burst is open (R110). -/
theorem single_dequeues_illegal_in_burst (hi : ∃ a, i = .deq a ∨ i = .peek a ∨ i = .deqb a) (hb : b ≠ .idle) :
    i.opcode ∉ legalOpcodes .consumer b := by
  obtain ⟨a, rfl | rfl | rfl⟩ := hi <;> simp [opcode_mem_legalOpcodes, isQuery, hb]

theorem deqd_illegal_idle (a : Word) : (Instr.deqd a).opcode ∉ legalOpcodes .consumer .idle := by
  simp [opcode_mem_legalOpcodes, isQuery]

/-! A beat of C with its response, as one update of the state. -/

theorem exec_deqd_beat_consumer (a n i : Word) (hp : s.port = .consumer) (hb : s.cBurst = .opened n i)
    (ha : deqdSlot i s < s.build.maxCapacity) (hr : s.slots.read (deqdSlot i s) = some d) (hi : i.toNat + 1 < n.toNat) :
    exec (.deqd a) s = .next { s with
      cBurst := .opened n (i + 1), cOut := s.cOut ++ [⟨.ok, n - i - 1, some d⟩] } := by
  rw [exec_deqd_beat a n i hp hb ha hr hi, respond_consumer]
  exact hp

theorem exec_deqd_commit_consumer (a n i : Word) (hp : s.port = .consumer) (hb : s.cBurst = .opened n i)
    (ha : deqdSlot i s < s.build.maxCapacity) (hr : s.slots.read (deqdSlot i s) = some d) (hi : n.toNat ≤ i.toNat + 1) :
    exec (.deqd a) s = .next { s with
      tail := idxAdd s.build s.tail n, tFlight := s.tFlight ++ [idxAdd s.build s.tail n], cBurst := .idle,
      cOut := s.cOut ++ [⟨.ok, 0, some d⟩] } := by
  rw [exec_deqd_commit a n i hp hb ha hr hi, respond_consumer]
  · rfl
  · exact hp

end Command

/-- Settles O22: illegal in a burst, `RingEmpty` on an empty view, else the slot is read and `tail` advances. -/
theorem deqReturnsTheSlotAndAdvancesTail : Obligations.DeqReturnsTheSlotAndAdvancesTail := by
  intro a d s hp
  refine ⟨fun hb => exec_badCmd_consumer hp (single_dequeues_illegal_in_burst ⟨a, .inl rfl⟩ hb), fun hb he => ?_,
    fun hb he ha hr => ?_⟩
  · rw [exec_deq_empty a hp hb he, fail, respond_consumer hp]
  · rw [exec_deq_next a hp hb he ha hr, respond_consumer]
    · rfl
    · exact hp

/-- Settles O23: the cases of DEQ, with nothing but the response written. -/
theorem peekReturnsTheSlotAndWritesNothing : Obligations.PeekReturnsTheSlotAndWritesNothing := by
  intro a d s hp
  refine ⟨fun hb => exec_badCmd_consumer hp (single_dequeues_illegal_in_burst ⟨a, .inr (.inl rfl)⟩ hb), fun hb he => ?_,
    fun hb he ha hr => ?_⟩
  · rw [exec_peek_empty a hp hb he, fail, respond_consumer hp]
  · rw [exec_peek_next a hp hb he ha hr, respond_consumer hp]

/-- Settles O24: the grant `n` is `minWord` of the request and the C count, and a burst is opened unless it is 0. -/
theorem deqbGrantsMinOfRequestAndCount : Obligations.DeqbGrantsMinOfRequestAndCount := by
  intro req n s hp
  refine ⟨fun hb => exec_badCmd_consumer hp (single_dequeues_illegal_in_burst ⟨req, .inr (.inr rfl)⟩ hb), fun hb hn => ?_⟩
  have hmin : n = minWord req (countOf s.build s.mask (viewOf .consumer s)) :=
    BitVec.eq_of_toNat_eq (hn.trans (minWord_toNat ..).symm)
  by_cases h0 : n = 0
  · subst h0
    rw [exec_deqb_none req hp hb hmin.symm, respond_consumer hp, if_pos rfl, ← hb]
  · rw [exec_deqb_next req n hp hb hmin h0, respond_consumer, if_neg h0]
    exact hp

/-- Settles O25: illegal when idle, else the slot of the beat is read, and only the last beat advances `tail`. -/
theorem deqdReturnsABeatAndCommitsTheLast : Obligations.DeqdReturnsABeatAndCommitsTheLast := by
  intro a n i d s hp
  exact ⟨fun hb => exec_badCmd_consumer hp (hb ▸ deqd_illegal_idle a), fun hb ha hr =>
    ⟨exec_deqd_beat_consumer a n i hp hb ha hr, fun hi => exec_deqd_commit_consumer a n i hp hb ha hr hi.ge⟩⟩

/-! ### What C learns of P (R186) -/

section Noninterference

variable {s t u : State} {i : Instr}

/-- `s` with the producer's side, all that C may not read, as it is in `o`. -/
def State.withProducerOf (s o : State) : State :=
  { s with
    head := o.head, tailP := o.tailP, pBurst := o.pBurst, hFlight := o.hFlight,
    cfgStatus := o.cfgStatus, pIn := o.pIn, pOut := o.pOut, descIn := o.descIn }

theorem sameForConsumer_iff {s' : State} : SameForConsumer s s' ↔ ∃ o, s' = s.withProducerOf o :=
  ⟨fun h => ⟨s', h⟩, by rintro ⟨o, rfl⟩; rfl⟩

/-- The same response leaves two states different in the producer's side only. -/
theorem sameForConsumer_respond {u' : State} (h : u' = u.withProducerOf u') (st : Status) (v : Word) (d : Option Descriptor) :
    SameForConsumer (respond st v d u) (respond st v d u') := by
  rw [SameForConsumer, h]
  unfold respond State.withProducerOf
  cases u.port <;> rfl

theorem isIllegal_withProducerOf (hp : s.port = .consumer) (o : State) (h : isIllegal s i) :
    isIllegal (s.withProducerOf o) i := by
  rw [isIllegal, hp] at h
  have hp' : (s.withProducerOf o).port = .consumer := hp
  rw [isIllegal, hp']
  exact h

theorem query_withProducerOf (hp : s.port = .consumer) (o : State) (hq : isQuery i) (h : exec i s = .next t) :
    ∃ t', exec i (s.withProducerOf o) = .next t' ∧ SameForConsumer t t' := by
  have hview : viewOf (s.withProducerOf o).port (s.withProducerOf o) = viewOf s.port s := by
    have hp' : (s.withProducerOf o).port = .consumer := hp
    rw [hp, hp']; rfl
  cases i with
  | isEmpty a => cases h; exact ⟨_, by rw [exec_isEmpty, hview], sameForConsumer_respond rfl _ _ _⟩
  | isFull a => cases h; exact ⟨_, by rw [exec_isFull, hview]; rfl, sameForConsumer_respond rfl _ _ _⟩
  | space a => cases h; exact ⟨_, by rw [exec_space, hview]; rfl, sameForConsumer_respond rfl _ _ _⟩
  | count a => cases h; exact ⟨_, by rw [exec_count, hview]; rfl, sameForConsumer_respond rfl _ _ _⟩
  | enq | enqb | enqd | deq | peek | deqb | deqd => exact hq.elim

/-- A command of C answers a next state whatever the producer's side, and the two next states differ there only. -/
theorem exec_withProducerOf (hp : s.port = .consumer) (o : State) (h : exec i s = .next t) :
    ∃ t', exec i (s.withProducerOf o) = .next t' ∧ SameForConsumer t t' := by
  cases exec_kind h
  case query v hq => exact query_withProducerOf hp o hq h
  case badCmd hq => exact ⟨_, exec_illegal (isIllegal_withProducerOf hp o hq), sameForConsumer_respond rfl _ _ _⟩
  case ringEmptyDeq a _ hb he => exact ⟨_, exec_deq_empty a hp hb he, sameForConsumer_respond rfl _ _ _⟩
  case ringEmptyPeek a _ hb he => exact ⟨_, exec_peek_empty a hp hb he, sameForConsumer_respond rfl _ _ _⟩
  case deq a d _ hb he ha hr => exact ⟨_, exec_deq_next a hp hb he ha hr, sameForConsumer_respond rfl _ _ _⟩
  case peek a d _ hb he ha hr => exact ⟨_, exec_peek_next a hp hb he ha hr, sameForConsumer_respond rfl _ _ _⟩
  case grantNoneC req _ hb hn => exact ⟨_, exec_deqb_none req hp hb hn, sameForConsumer_respond rfl _ _ _⟩
  case grantC req n _ hb hn h0 => exact ⟨_, exec_deqb_next req n hp hb hn h0, sameForConsumer_respond rfl _ _ _⟩
  case beatC a n j d _ hb ha hr hj => exact ⟨_, exec_deqd_beat a n j hp hb ha hr hj, sameForConsumer_respond rfl _ _ _⟩
  case commitC a n j d _ hb ha hr hj => exact ⟨_, exec_deqd_commit a n j hp hb ha hr hj, sameForConsumer_respond rfl _ _ _⟩
  all_goals cases hp.symm.trans ‹s.port = .producer›

/-- A command of C that stops, stops alike whatever the producer's side. -/
theorem execStops_withProducerOf {f : Fault} (hp : s.port = .consumer) (o : State) (h : ExecStops s i f) :
    ExecStops (s.withProducerOf o) i f := by
  cases h
  case deq a _ hb he h => exact .deq a f hp hb he h
  case peek a _ hb he h => exact .peek a f hp hb he h
  case deqd a n j _ hb h => exact .deqd a n j f hp hb h
  all_goals cases hp.symm.trans ‹s.port = .producer›

end Noninterference

/-- Settles O42: with the producer's side replaced, a command that answers answers alike and one that stops stops alike. -/
theorem consumerLearnsNothingOfTheProducer : Obligations.ConsumerLearnsNothingOfTheProducer := by
  intro i s s' hp hsame
  obtain ⟨o, rfl⟩ := sameForConsumer_iff.mp hsame
  rcases exec_total i s with ⟨t, ht⟩ | ⟨f, hf, hstop⟩
  · obtain ⟨t', ht', hdiff⟩ := exec_withProducerOf hp o ht
    exact .inl ⟨t, t', ht, ht', hdiff⟩
  · exact .inr ⟨f, hf, exec_stops (execStops_withProducerOf hp o hstop)⟩

/-! ### A PEEK while the other agents step (R182) -/

section Peek

variable {g : Ghost} {s t : State} {i : Instr} {x : Turn} {ts : List Turn}

/-- A command of P leaves C's burst. -/
theorem exec_cBurst_producer (h : exec i s = .next t) (hp : s.port = .producer) : t.cBurst = s.cBurst := by
  cases exec_kind h
  case query | badCmd | ringFull | enq | grantNoneP | grantP | beatP | commitP => simp [fail]
  all_goals cases hp.symm.trans ‹s.port = .consumer›

/-- A step of P, SH or ST ends no ring and leaves C's burst. -/
theorem step_live_cBurst (hx : step s = .next t) (hts : s.turns = x :: ts)
    (hother : x = .p ∨ (∃ k, x = .sh k) ∨ (∃ k, x = .st k)) : t.live = s.live ∧ t.cBurst = s.cBurst := by
  have hk := step_kind_next hx
  generalize hr : Host.Outcome.next t = r at hk
  cases hk with
  | idle | passP | reservedP => cases hr; exact ⟨rfl, rfl⟩
  | commandP ts c rest i =>
    exact ⟨(exec_sameConfig hr.symm).live, exec_cBurst_producer (s := acceptedP s ts c rest) hr.symm rfl⟩
  | sh k ts =>
    cases hr
    rcases deliverHead_cases k { s with turns := ts } with ⟨e, _⟩ | ⟨_, _, _, _, e⟩ <;> rw [e] <;> exact ⟨rfl, rfl⟩
  | st k ts =>
    cases hr
    rcases deliverTail_cases k { s with turns := ts } with ⟨e, _⟩ | ⟨_, _, _, _, e⟩ <;> rw [e] <;> exact ⟨rfl, rfl⟩
  | passC _ h | reservedC _ _ _ _ h | commandC _ _ _ _ h | construct _ _ h | resetRing _ h =>
    cases (List.cons.inj (hts.symm.trans h)).1
    simp at hother

/-- No step of a ring that stays live overwrites a pending item (R36 I6). -/
theorem LiveInv.step_window (h : LiveInv g s) (hs : s.build.wf = true) (hx : step s = .next t) (hl : s.live = true)
    (ht : t.live = true) :
    window t.slots s.capacity.toNat g.T (g.H - g.T) = window s.slots s.capacity.toNat g.T (g.H - g.T) := by
  cases step_move hx with
  | pass => rfl
  | reserved u ha => rw [fail, respond_slots, ha.latches]
  | command i u t ha hx =>
    have hexec := (ha.liveInv h).exec_window (ha.sameConfig.build ▸ hs) hx
    rw [ha.sameConfig.capacity] at hexec
    rw [hexec, ha.latches]
  | sh k ts => rcases deliverHead_cases k { s with turns := ts } with ⟨e, _⟩ | ⟨_, _, _, _, e⟩ <;> rw [e]
  | st k ts => rcases deliverTail_cases k { s with turns := ts } with ⟨e, _⟩ | ⟨_, _, _, _, e⟩ <;> rw [e]
  | construct cap ts => rw [hostConstruct_live (s := { s with turns := ts }) hl]
  | resetRing => cases ht

/-- The oldest pending item stays in its slot over every step of a ring that stays live. -/
theorem LiveInv.step_oldest (h : LiveInv g s) (hs : s.build.wf = true) (hx : step s = .next t) (hl : s.live = true)
    (ht : t.live = true) (hitem : g.T < g.H) :
    t.slots.read (Machine.deqSlot s) = s.slots.read (Machine.deqSlot s) := by
  have hfirst := congrArg (·[0]?) (h.step_window hs hx hl ht)
  simp only [window_getElem? (Nat.sub_pos_of_lt hitem)] at hfirst
  rw [h.deqSlot hs]
  exact Option.some.inj hfirst

end Peek

/-- Settles O50: P, SH and ST leave `tail`, the slot there and C's burst, and the view stays not empty, so the second PEEK
reads what the first read. -/
theorem peekIsRepeatable : Obligations.PeekIsRepeatable := by
  intro s t a x ts hinv hl hb he hts hother hx
  obtain ⟨g, h⟩ := hinv.live hl
  have hw := hinv.build
  obtain ⟨hlive, hburst⟩ := step_live_cBurst hx hts hother
  have ht := hlive.trans hl
  have hne : x ≠ .c := by rintro rfl; simp at hother
  have hconfig := step_sameConfig hx hl ht
  have htail := step_tail_of_ne hx hl ht hts hne
  have hview : isEmptyView (viewOf .consumer s) = false := beq_eq_false_iff_ne.mpr he
  have hviewT := h.not_empty_step hw (step_channels hx hl ht).1 htail hview
  have hitem := h.item_of_not_empty hw hview
  have hlt : deqSlot s < s.build.maxCapacity := h.deqSlot hw ▸ h.slot_lt _
  obtain ⟨d, hd⟩ := h.exists_item (j := 0) (by omega)
  have hr : s.slots.read (deqSlot s) = some d := h.deqSlot hw ▸ hd
  have hslot : deqSlot t = deqSlot s := by rw [deqSlot, deqSlot, hconfig.mask, htail]
  have hrT : t.slots.read (deqSlot t) = some d := by
    rw [hslot, h.step_oldest hw hx hl ht (lt_of_lt_of_le hitem h.chainH), hr]
  have hltT : deqSlot t < t.build.maxCapacity := by rw [hslot, hconfig.build]; exact hlt
  exact ⟨d, (peekReturnsTheSlotAndWritesNothing a d _ rfl).2.2 hb he hlt hr,
    (peekReturnsTheSlotAndWritesNothing a d _ rfl).2.2 (hburst.trans hb) (beq_eq_false_iff_ne.mp hviewT) hltT hrT⟩

end Sys2Proof.Machine

/-! ## A burst of reads without a step of another agent (R184, R185, R115) -/

namespace Sys2Proof.Machine

open Sys2Proof

/-! ### The reads of a burst, one after the other -/

/-- The responses of the last `r` beats of a dequeue burst of `s` with `k` beats done: the items from place `k` on, the last
with 0 (R184). -/
def readResponses (s : State) (k r : Nat) : List Response :=
  (List.range r).map fun j => ⟨.ok, BitVec.ofNat 32 (r - 1 - j), pendingAt s (k + j)⟩

theorem readResponses_succ (s : State) (k r : Nat) :
    readResponses s k (r + 1) = ⟨.ok, BitVec.ofNat 32 r, pendingAt s k⟩ :: readResponses s (k + 1) r := by
  rw [readResponses, List.range_succ_eq_map, List.map_cons, List.map_map, readResponses]
  congr 1
  refine List.map_congr_left fun j _ => ?_
  simp only [Function.comp, Nat.succ_eq_add_one, Nat.add_sub_cancel, Nat.sub_sub, Nat.add_comm 1, Nat.add_assoc]

/-- In `u` the dequeue burst of `n` items is open with `k` beats done, its slots hold values, the `r` beats that are left are
presented, and C has the next turns. -/
structure ReadsPresented (n : Word) (k r : Nat) (cr : List Header) (ts : List Turn) (u : State) : Prop where
  live : u.live = true
  count : k + r = n.toNat
  slot : ∀ j, deqdSlot (BitVec.ofNat 32 j) u < u.build.maxCapacity
  item : ∀ j < n.toNat, ∃ d, pendingAt u j = some d
  burst : u.cBurst = .opened n (BitVec.ofNat 32 k)
  cIn : u.cIn = List.replicate r (encode (.deqd 0)) ++ cr
  turns : u.turns = List.replicate r .c ++ ts

/-- `u` once the `r` beats that are left have committed the burst of `n`. -/
def afterReads (n : Word) (k r : Nat) (cr : List Header) (ts : List Turn) (u : State) : State :=
  { u with
    tail := idxAdd u.build u.tail n, tFlight := u.tFlight ++ [idxAdd u.build u.tail n], cBurst := .idle,
    cOut := u.cOut ++ readResponses u k r, cIn := cr, turns := ts, port := .consumer }

section Reads

variable {s u : State} {n : Word} {k r : Nat} {cr : List Header} {ts : List Turn}

/-- C's turn runs the command presented to it. -/
theorem step_presentedC {i : Instr} (hl : s.live = true) (hi : s.cIn = encode i :: cr) (hts : s.turns = .c :: ts) :
    step s = exec i (acceptedC s ts cr) := step_commandC hts hl hi (decode_encode i)

/-- A beat that is not the last leaves the others presented, and it does its part of `afterReads`. -/
theorem ReadsPresented.step_beat (h : ReadsPresented n k (r + 2) cr ts u) :
    ∃ v, step u = .next v ∧ ReadsPresented n (k + 1) (r + 1) cr ts v
      ∧ afterReads n (k + 1) (r + 1) cr ts v = afterReads n k (r + 2) cr ts u := by
  have hn := n.isLt
  have hcount := h.count
  have hk : (BitVec.ofNat 32 k).toNat = k := Nat.mod_eq_of_lt (by omega)
  have hsucc : BitVec.ofNat 32 k + 1 = BitVec.ofNat 32 (k + 1) := (BitVec.ofNat_add ..).symm
  have hval : n - BitVec.ofNat 32 k - 1 = BitVec.ofNat 32 (r + 1) := by
    apply BitVec.eq_of_toNat_eq
    rw [BitVec.toNat_sub, BitVec.toNat_sub, hk, one_toNat, BitVec.toNat_ofNat]
    omega
  obtain ⟨d, hd⟩ := h.item k (by omega)
  have hx := step_presentedC h.live h.cIn h.turns
  refine ⟨_, hx.trans (exec_deqd_beat_consumer 0 n (BitVec.ofNat 32 k) rfl h.burst (h.slot k) hd (by omega)),
    ⟨h.live, by omega, h.slot, h.item, congrArg _ hsucc, rfl, rfl⟩, ?_⟩
  simp only [afterReads, readResponses_succ u k (r + 1), hd, hval]
  simp only [List.append_assoc, List.singleton_append]
  rfl

/-- The last beat commits the burst. -/
theorem ReadsPresented.step_commit (h : ReadsPresented n k 1 cr ts u) : step u = .next (afterReads n k 1 cr ts u) := by
  have hn := n.isLt
  have hcount := h.count
  have hk : (BitVec.ofNat 32 k).toNat = k := Nat.mod_eq_of_lt (by omega)
  obtain ⟨d, hd⟩ := h.item k (by omega)
  rw [afterReads, readResponses_succ, hd]
  refine (step_presentedC h.live h.cIn h.turns).trans ?_
  exact exec_deqd_commit_consumer 0 n (BitVec.ofNat 32 k) rfl h.burst (h.slot k) hd (by omega)

/-- All beats that are left commit the burst. -/
theorem ReadsPresented.stepN (h : ReadsPresented n k (r + 1) cr ts u) :
    stepN (r + 1) u = .next (afterReads n k (r + 1) cr ts u) := by
  induction r generalizing k u with
  | zero => simp only [Machine.stepN, h.step_commit]
  | succ r ih =>
    obtain ⟨v, hx, hv, hafter⟩ := h.step_beat
    rw [Machine.stepN, hx, ← hafter]
    exact ih hv

end Reads

/-! ### The whole transaction (R185) -/

/-- In `s` with C's burst idle the expansion of `dequeue_bulk req` is presented, `n` being the grant, and C has the next
turns. -/
structure BulkReadPresented (req : Word) (n : Nat) (cr : List Header) (ts : List Turn) (s : State) : Prop where
  live : s.live = true
  idle : s.cBurst = .idle
  grant : n = min req.toNat (flagOutputs .consumer s).count.toNat
  cIn : s.cIn = (CCall.dequeueBulk req).expand n ++ cr
  turns : s.turns = List.replicate (n + 1) .c ++ ts

/-- `s` once the DEQB of the expansion is granted `n` items. -/
def afterDeqb (n : Nat) (cr : List Header) (ts : List Turn) (s : State) : State :=
  { s with
    cBurst := if BitVec.ofNat 32 n = 0 then .idle else .opened (BitVec.ofNat 32 n) 0
    cOut := s.cOut ++ [⟨.ok, BitVec.ofNat 32 n, none⟩]
    cIn := List.replicate n (encode (.deqd 0)) ++ cr
    turns := List.replicate n .c ++ ts
    port := .consumer }

/-- `s` once the whole expansion has run: `n` items read and committed, one value in flight unless `n` is 0. -/
def afterBulkRead (n : Nat) (cr : List Header) (ts : List Turn) (s : State) : State :=
  { s with
    tail := idxAdd s.build s.tail (BitVec.ofNat 32 n)
    tFlight := s.tFlight ++ (if n = 0 then [] else [idxAdd s.build s.tail (BitVec.ofNat 32 n)])
    cOut := s.cOut ++ ⟨.ok, BitVec.ofNat 32 n, none⟩ :: readResponses s 0 n
    cIn := cr, turns := ts, port := .consumer }

section BulkRead

variable {g : Ghost} {s : State} {req : Word} {n j : Nat} {cr : List Header} {ts : List Turn}

/-- With `tail` moved past `k` items that C may read, those items are no longer pending. -/
theorem LiveInv.pending_advanceTail (h : LiveInv g s) (hs : s.build.wf = true) {k : Word} (hk : k.toNat ≤ g.Hc - g.T) :
    pending { s with tail := idxAdd s.build s.tail k } = (pending s).drop k.toNat := by
  by_cases h0 : k.toNat = 0
  · rw [h.idxAdd_tail hs, h0, Nat.add_zero, ← h.tailEq, List.drop_zero]
  · have hmoved := h.commitTail hs (Nat.one_le_iff_ne_zero.mpr h0) hk
    calc pending { s with tail := idxAdd s.build s.tail k }
        = pending { advanceTail k s with cBurst := .idle } := pending_congr ⟨rfl, rfl, rfl, rfl, rfl⟩ rfl rfl rfl
      _ = window s.slots s.capacity.toNat (g.T + k.toNat) (g.H - (g.T + k.toNat)) := hmoved.pending_eq hs
      _ = (pending s).drop k.toNat := by
        rw [h.pending_eq hs, h.window_take hk, List.drop_left' (window_length ..)]

/-- The item at place `j` of those pending. -/
theorem pending_getElem? (hj : j < (occupancy s).toNat) : (pending s)[j]? = some (pendingAt s j) := by
  simp [pending, hj]

theorem BulkReadPresented.toNat_grant (h : BulkReadPresented req n cr ts s) : (BitVec.ofNat 32 n).toNat = n := by
  have hgrant := h.grant; have hreq := req.isLt
  exact Nat.mod_eq_of_lt (by omega)

/-- C is granted only items that it may read. -/
theorem BulkReadPresented.grant_le (h : BulkReadPresented req n cr ts s) (hs : s.build.wf = true) (hg : LiveInv g s) :
    n ≤ g.Hc - g.T := by
  have hgrant := h.grant
  rw [flagOutputs_live h.live, hg.cView hs] at hgrant
  omega

/-- Each granted item is pending and is a descriptor (R183 v). -/
theorem BulkReadPresented.item (h : BulkReadPresented req n cr ts s) (hs : s.build.wf = true) (hg : LiveInv g s)
    (hj : j < n) : (pending s)[j]? = some (pendingAt s j) ∧ ∃ d, pendingAt s j = some d := by
  have hle := h.grant_le hs hg; have hH := hg.chainH; have hHc := hg.chainHc
  obtain ⟨d, hd⟩ := hg.exists_item (j := j) (by omega)
  have hget := pending_getElem? (s := s) (j := j) (by rw [hg.occupancy hs]; omega)
  refine ⟨hget, d, ?_⟩
  rw [hg.pending_eq hs, window_getElem? (by omega), hd] at hget
  exact (Option.some.inj hget).symm

theorem BulkReadPresented.step_deqb (h : BulkReadPresented req n cr ts s) : step s = .next (afterDeqb n cr ts s) := by
  have hgrant : (BitVec.ofNat 32 n).toNat = min req.toNat (flagOutputs .consumer s).count.toNat := h.toNat_grant.trans h.grant
  rw [flagOutputs_live h.live] at hgrant
  refine (step_presentedC h.live h.cIn h.turns).trans ?_
  exact (deqbGrantsMinOfRequestAndCount req (BitVec.ofNat 32 n) _ rfl).2 h.idle hgrant

/-- A grant of no items is the whole transaction: `tail` plus 0 is `tail`. -/
theorem BulkReadPresented.afterDeqb_none (h : BulkReadPresented req 0 cr ts s) (hs : s.build.wf = true) (hg : LiveInv g s) :
    afterDeqb 0 cr ts s = afterBulkRead 0 cr ts s := by
  have htail : idxAdd s.build s.tail (BitVec.ofNat 32 0) = s.tail := (hg.idxAdd_tail hs _).trans hg.tailEq.symm
  simp [afterDeqb, afterBulkRead, readResponses, htail, h.idle]

theorem BulkReadPresented.reads (h : BulkReadPresented req n cr ts s) (hs : s.build.wf = true) (hg : LiveInv g s)
    (h0 : n ≠ 0) : ReadsPresented (BitVec.ofNat 32 n) 0 n cr ts (afterDeqb n cr ts s) where
  live := h.live
  count := by rw [h.toNat_grant, Nat.zero_add]
  slot j := (hg.deqdSlot hs (BitVec.ofNat 32 j) ▸ hg.slot_lt _ : deqdSlot (BitVec.ofNat 32 j) s < s.build.maxCapacity)
  item j hj := (h.item hs hg (h.toNat_grant ▸ hj)).2
  burst := if_neg fun e => h0 (by rw [← h.toNat_grant, e]; rfl)
  cIn := rfl
  turns := rfl

theorem BulkReadPresented.afterReads_eq (h : BulkReadPresented req n cr ts s) (h0 : n ≠ 0) :
    afterReads (BitVec.ofNat 32 n) 0 n cr ts (afterDeqb n cr ts s) = afterBulkRead n cr ts s := by
  simp only [afterReads, afterBulkRead, if_neg h0, ← h.idle]
  simp only [afterDeqb, List.append_assoc, List.singleton_append]
  rfl

/-- The expansion runs to its end. -/
theorem BulkReadPresented.stepN (h : BulkReadPresented req n cr ts s) (hs : s.build.wf = true) (hg : LiveInv g s) :
    stepN (n + 1) s = .next (afterBulkRead n cr ts s) := by
  rw [Machine.stepN, h.step_deqb]
  cases n with
  | zero => exact congrArg _ (h.afterDeqb_none hs hg)
  | succ r => exact h.afterReads_eq r.succ_ne_zero ▸ (h.reads hs hg r.succ_ne_zero).stepN

/-- The beats return the `n` oldest pending items in order. -/
theorem BulkReadPresented.readResponses_eq (h : BulkReadPresented req n cr ts s) (hs : s.build.wf = true) (hg : LiveInv g s) :
    readResponses s 0 n = (List.range n).map fun j => ⟨.ok, BitVec.ofNat 32 (n - 1 - j), (pending s)[j]?.join⟩ := by
  refine List.map_congr_left fun j hj => ?_
  rw [(h.item hs hg (List.mem_range.mp hj)).1, Option.join_some, Nat.zero_add]

theorem BulkReadPresented.pending_after (h : BulkReadPresented req n cr ts s) (hs : s.build.wf = true) (hg : LiveInv g s) :
    pending (afterBulkRead n cr ts s) = (pending s).drop n := by
  have hdrop := hg.pending_advanceTail hs (h.toNat_grant.symm ▸ h.grant_le hs hg)
  rw [h.toNat_grant] at hdrop
  exact (pending_congr ⟨rfl, rfl, rfl, rfl, rfl⟩ rfl rfl rfl).trans hdrop

end BulkRead

/-- Settles O56: the grant (`BulkReadPresented.step_deqb`), then by induction the beats (`ReadsPresented.stepN`), end in
`afterBulkRead`, where the items granted are no longer pending. -/
theorem dequeueBulkIsOneTransaction : Obligations.DequeueBulkIsOneTransaction := by
  intro s req n cr ts hinv hl hb hn hi hts
  obtain ⟨g, hg⟩ := hinv.live hl
  have hw := hinv.build
  have h : BulkReadPresented req n cr ts s := ⟨hl, hb, hn, hi, hts⟩
  refine ⟨_, h.stepN hw hg, rfl, rfl, ?_, fun j hj => ?_, h.pending_after hw hg, rfl⟩
  · rw [← h.readResponses_eq hw hg]
    rfl
  · obtain ⟨hget, d, hd⟩ := h.item hw hg hj
    exact ⟨d, hget.trans (congrArg some hd)⟩

end Sys2Proof.Machine

/-! ## Failures, the frame of a command, and the two ports side by side (R204, R206, R208, R210, R79) -/

namespace Sys2Proof.Machine

open Sys2Proof

/-! ### Illegal headers (R109, R110, R111, R204) -/

/-- What P's step does with a header, whether it decodes or not: it executes a command that is legal only where the header
is. For a reserved header that is DEQ, never legal on P. -/
theorem exists_command_producer (c : PCmd) : ∃ i : Instr,
    (∀ b, headerOp c.hdr ∉ legalOpcodes .producer b → i.opcode ∉ legalOpcodes .producer b) ∧
    ∀ s ts rest, s.turns = .p :: ts → s.live = true → s.pIn = c :: rest → step s = exec i (acceptedP s ts c rest) := by
  cases hd : decode c.hdr with
  | ok i => exact ⟨i, fun _ h => (decode_fields hd).1 ▸ h, fun s ts rest hts hl hi => step_commandP hts hl hi hd⟩
  | error e =>
    have hill : ∀ b, (Instr.deq 0).opcode ∉ legalOpcodes .producer b := fun b => by simp [opcode_mem_legalOpcodes, isQuery]
    refine ⟨.deq 0, fun b _ => hill b, fun s ts rest hts hl hi => ?_⟩
    exact (step_reservedP hts hl hi hd).trans (exec_illegal (s := acceptedP s ts c rest) (hill s.pBurst)).symm

/-- What C's step does with a header; a reserved one does what ENQ does, never legal on C. -/
theorem exists_command_consumer (w : Header) : ∃ i : Instr,
    (∀ b, headerOp w ∉ legalOpcodes .consumer b → i.opcode ∉ legalOpcodes .consumer b) ∧
    ∀ s ts rest, s.turns = .c :: ts → s.live = true → s.cIn = w :: rest → step s = exec i (acceptedC s ts rest) := by
  cases hd : decode w with
  | ok i => exact ⟨i, fun _ h => (decode_fields hd).1 ▸ h, fun s ts rest hts hl hi => step_commandC hts hl hi hd⟩
  | error e =>
    have hill : ∀ b, (Instr.enq 0).opcode ∉ legalOpcodes .consumer b := fun b => by simp [opcode_mem_legalOpcodes, isQuery]
    refine ⟨.enq 0, fun b _ => hill b, fun s ts rest hts hl hi => ?_⟩
    exact (step_reservedC hts hl hi hd).trans (exec_illegal (s := acceptedC s ts rest) (hill s.cBurst)).symm

/-- Settles O7: the header is executed as a command that is illegal too, which answers `BadCmd`. -/
theorem illegalCommandAnswersBadCmd : Obligations.IllegalCommandAnswersBadCmd := by
  intro s ts hl
  constructor
  · intro c rest hts hi hop
    obtain ⟨i, hill, hstep⟩ := exists_command_producer c
    exact (hstep s ts rest hts hl hi).trans (exec_badCmd_producer rfl (hill _ hop))
  · intro w rest hts hi hop
    obtain ⟨i, hill, hstep⟩ := exists_command_consumer w
    exact (hstep s ts rest hts hl hi).trans (exec_badCmd_consumer rfl (hill _ hop))

/-! ### A failure writes nothing (R206) -/

/-- `exec_responds`, with what a failing command writes before its response: nothing. -/
theorem exec_responds_ok_or_unchanged {i : Instr} {s t : State} (h : exec i s = .next t) :
    ∃ st v d u, t = respond st v d u ∧ SameStreams s u ∧ (st = .ok ∨ u = s) := by
  cases exec_kind h
  case badCmd | ringFull | ringEmptyDeq | ringEmptyPeek => exact ⟨_, _, _, _, rfl, .refl s, .inr rfl⟩
  all_goals exact ⟨_, _, _, _, rfl, ⟨rfl, rfl, rfl, rfl, rfl⟩, .inl rfl⟩

/-- The one response that `respond` appends, on whichever port, has its status. -/
theorem status_of_respond {st : Status} {v : Word} {d : Option Descriptor} {u : State} {r : Response}
    (h : (respond st v d u).pOut = u.pOut ++ [r] ∨ (respond st v d u).cOut = u.cOut ++ [r]) : r.status = st := by
  cases hp : u.port with
  | producer =>
    rcases h with h | h
    · obtain rfl : ⟨st, v, none⟩ = r := by simpa [hp] using h
      rfl
    · simp [hp] at h
  | consumer =>
    rcases h with h | h
    · simp [hp] at h
    · obtain rfl : ⟨st, v, d⟩ = r := by simpa [hp] using h
      rfl

theorem respond_writes_responses (st : Status) (v : Word) (d : Option Descriptor) (s : State) :
    respond st v d s = { s with pOut := (respond st v d s).pOut, cOut := (respond st v d s).cOut } := by
  unfold respond
  cases s.port <;> rfl

/-- Settles O11: a response that is not `OK` is appended to the state as it was (`exec_responds_ok_or_unchanged`). -/
theorem failingCommandChangesNothing : Obligations.FailingCommandChangesNothing := by
  intro i s t r h hr hout
  obtain ⟨st, v, d, u, rfl, hu, hst⟩ := exec_responds_ok_or_unchanged h
  rw [← hu.pOut, ← hu.cOut] at hout
  obtain rfl : u = s := hst.resolve_left (status_of_respond hout ▸ hr)
  exact respond_writes_responses st v d u

/-! ### What a command writes (R26, R210) -/

section Frame

variable {i : Instr} {s t u : State} {x : Nat}

theorem onlyProducerState_respond
    (h : u = { s with slots := u.slots, head := u.head, hFlight := u.hFlight, pBurst := u.pBurst, pOut := u.pOut })
    (hp : s.port = .producer) (st : Status) (v : Word) (d : Option Descriptor) :
    OnlyProducerState s (respond st v d u) := by
  have hu : u.port = .producer := (congrArg State.port h).trans hp
  rw [respond_producer hu]
  exact congrArg (fun w : State => ({ w with pOut := u.pOut ++ [⟨st, v, none⟩] } : State)) h

theorem onlyConsumerState_respond
    (h : u = { s with tail := u.tail, tFlight := u.tFlight, cBurst := u.cBurst, cOut := u.cOut })
    (hp : s.port = .consumer) (st : Status) (v : Word) (d : Option Descriptor) :
    OnlyConsumerState s (respond st v d u) := by
  have hu : u.port = .consumer := (congrArg State.port h).trans hp
  rw [respond_consumer hu]
  exact congrArg (fun w : State => ({ w with cOut := u.cOut ++ [⟨st, v, d⟩] } : State)) h

theorem exec_onlyProducerState (h : exec i s = .next t) (hp : s.port = .producer) : OnlyProducerState s t := by
  cases exec_kind h
  case query | badCmd | ringFull | enq | grantNoneP | grantP | beatP | commitP =>
    exact onlyProducerState_respond rfl hp _ _ _
  all_goals cases hp.symm.trans ‹s.port = .consumer›

theorem exec_onlyConsumerState (h : exec i s = .next t) (hp : s.port = .consumer) : OnlyConsumerState s t := by
  cases exec_kind h
  case query | badCmd | ringEmptyDeq | ringEmptyPeek | deq | peek | grantNoneC | grantC | beatC | commitC =>
    exact onlyConsumerState_respond rfl hp _ _ _
  all_goals cases hp.symm.trans ‹s.port = .producer›

theorem eq_enqSlot_of_storedSlot {a : Word} (h : storedSlot (.enq a) s = some x) : x = enqSlot s := by
  rw [storedSlot] at h
  split at h
  · exact (Option.some.inj h).symm
  · cases h

theorem eq_enqdSlot_of_storedSlot {a n j : Word} (hb : s.pBurst = .opened n j) (h : storedSlot (.enqd a) s = some x) :
    x = enqdSlot j s := by
  cases hp : s.port with
  | producer => simpa [storedSlot, hp, hb, eq_comm] using h
  | consumer => simp [storedSlot, hp] at h

theorem storedSlot_eq_none (he : ∀ a, i ≠ .enq a) (hd : ∀ a, i ≠ .enqd a) : storedSlot i s = none := by
  cases i with
  | enq a => exact absurd rfl (he a)
  | enqd a => exact absurd rfl (hd a)
  | isEmpty | isFull | space | count | enqb | deq | peek | deqb | deqd => rfl

theorem exec_read_other (h : exec i s = .next t) (hx : storedSlot i s ≠ some x) : t.slots.read x = s.slots.read x := by
  rw [exec_read h, if_neg hx]

theorem exec_slots_of_none (h : exec i s = .next t) (hn : storedSlot i s = none) : t.slots = s.slots := by
  rw [exec_slots h, hn]

end Frame

/-- Settles O40: the registers port by port, the storage by `storedSlot`. -/
theorem portsWriteOnlyTheirOwnState : Obligations.PortsWriteOnlyTheirOwnState := by
  intro i s t h
  refine ⟨exec_onlyProducerState h, exec_onlyConsumerState h, fun x hx => by rw [exec_read h, if_pos hx],
    fun x => exec_read_other h, exec_slots_of_none h, ?_, ?_, fun he hd => exec_slots_of_none h (storedSlot_eq_none he hd)⟩
  · rintro a x rfl hx
    exact exec_read_other h fun he => hx (eq_enqSlot_of_storedSlot he)
  · rintro a n j x rfl hb hx
    exact exec_read_other h fun he => hx (eq_enqdSlot_of_storedSlot hb he)

/-! ### What a command reads of the storage and the schedule (R61, R65) -/

/-- The one slot that C's command may read, none where it reads nothing: `tail & mask` for a DEQ or PEEK that is neither illegal
nor answered `RingEmpty` (R180, R182), `(tail + j) & mask` for a beat of an open dequeue burst (R184). P reads no slot, and the
port is not looked at. `exec_otherTurns` ties it to `exec`. -/
def readSlot (i : Instr) (s : State) : Option Nat :=
  match i, s.cBurst with
  | .deq _, .idle => if s.headC = s.tail then none else some (deqSlot s)
  | .peek _, .idle => if s.headC = s.tail then none else some (deqSlot s)
  | .deqd _, .opened _ j => some (deqdSlot j s)
  | _, _ => none

section Reads

variable {i : Instr} {s t u u' : State} {m : Memory} {ts : List Turn} {g : Ghost} {x y : Nat}

/-- `u'` is `u` with the schedule `ts`, but for the slots. -/
def OtherTurns (ts : List Turn) (u u' : State) : Prop := u' = { u with slots := u'.slots, turns := ts }

theorem otherTurns_respond (h : u' = { u with slots := u'.slots, turns := ts }) (st : Status) (v : Word)
    (d : Option Descriptor) : OtherTurns ts (respond st v d u) (respond st v d u') := by
  rw [OtherTurns, h]
  unfold respond
  cases u.port <;> rfl

theorem query_otherTurns (m : Memory) (ts : List Turn) (hq : isQuery i) (h : exec i s = .next t) :
    ∃ t', exec i { s with slots := m, turns := ts } = .next t' ∧ OtherTurns ts t t' := by
  cases i with
  | isEmpty | isFull | space | count => cases h; exact ⟨_, rfl, otherTurns_respond rfl _ _ _⟩
  | enq | enqb | enqd | deq | peek | deqb | deqd => exact hq.elim

/-- No command reads the schedule, and none a slot but `readSlot`: with another schedule and other slots a command answers a
next state too, which differs in the schedule and the slots only. -/
theorem exec_otherTurns (ts : List Turn) (hm : ∀ x, readSlot i s = some x → m.read x = s.slots.read x)
    (h : exec i s = .next t) : ∃ t', exec i { s with slots := m, turns := ts } = .next t' ∧ OtherTurns ts t t' := by
  cases exec_kind h with
  | query _ v hq => exact query_otherTurns m ts hq h
  | badCmd _ hq => exact ⟨_, exec_illegal hq, otherTurns_respond rfl _ _ _⟩
  | ringFull a hp hb hf => exact ⟨_, exec_enq_full a hp hb hf, otherTurns_respond rfl _ _ _⟩
  | enq a hp hb hf ha => exact ⟨_, exec_enq_next a hp hb hf ha, otherTurns_respond rfl _ _ _⟩
  | grantNoneP len hp hb hn => exact ⟨_, exec_enqb_none len hp hb hn, otherTurns_respond rfl _ _ _⟩
  | grantP len n hp hb hn h0 => exact ⟨_, exec_enqb_next len n hp hb hn h0, otherTurns_respond rfl _ _ _⟩
  | beatP a n j hp hb ha hj => exact ⟨_, exec_enqd_beat a n j hp hb ha hj, otherTurns_respond rfl _ _ _⟩
  | commitP a n j hp hb ha hj => exact ⟨_, exec_enqd_commit a n j hp hb ha hj, otherTurns_respond rfl _ _ _⟩
  | ringEmptyDeq a hp hb he => exact ⟨_, exec_deq_empty a hp hb he, otherTurns_respond rfl _ _ _⟩
  | ringEmptyPeek a hp hb he => exact ⟨_, exec_peek_empty a hp hb he, otherTurns_respond rfl _ _ _⟩
  | deq a d hp hb he ha hr =>
    have hr' := (hm _ (by simp [readSlot, hb, he])).trans hr
    exact ⟨_, exec_deq_next a hp hb he ha hr', otherTurns_respond rfl _ _ _⟩
  | peek a d hp hb he ha hr =>
    have hr' := (hm _ (by simp [readSlot, hb, he])).trans hr
    exact ⟨_, exec_peek_next a hp hb he ha hr', otherTurns_respond rfl _ _ _⟩
  | grantNoneC req hp hb hn => exact ⟨_, exec_deqb_none req hp hb hn, otherTurns_respond rfl _ _ _⟩
  | grantC req n hp hb hn h0 => exact ⟨_, exec_deqb_next req n hp hb hn h0, otherTurns_respond rfl _ _ _⟩
  | beatC a n j d hp hb ha hr hj =>
    have hr' := (hm _ (by simp [readSlot, hb])).trans hr
    exact ⟨_, exec_deqd_beat a n j hp hb ha hr' hj, otherTurns_respond rfl _ _ _⟩
  | commitC a n j d hp hb ha hr hj =>
    have hr' := (hm _ (by simp [readSlot, hb])).trans hr
    exact ⟨_, exec_deqd_commit a n j hp hb ha hr' hj, otherTurns_respond rfl _ _ _⟩

/-- A command reads the slot of a pending item (R28). -/
theorem LiveInv.readSlot_pending (h : LiveInv g s) (hs : s.build.wf = true) (hx : readSlot i s = some x) :
    ∃ y, x = y % s.capacity.toNat ∧ g.T ≤ y ∧ y < g.H := by
  have h2 := h.chainHc; have h3 := h.chainH
  have hoccupied : s.headC ≠ s.tail → g.T < g.H := fun he => by
    have := (h.empty_iff hs).not.mp he
    omega
  unfold readSlot at hx
  split at hx
  case h_1 | h_2 =>
    split at hx
    · cases hx
    · rename_i he
      exact ⟨g.T, (Option.some.inj hx).symm.trans (h.deqSlot hs), le_rfl, hoccupied he⟩
  case h_3 n j hb =>
    obtain ⟨_, h4, h5⟩ := h.cOk n j hb
    exact ⟨g.T + j.toNat, (Option.some.inj hx).symm.trans (h.deqdSlot hs j), Nat.le_add_right _ _, by omega⟩
  case h_4 => cases hx

/-- No command overwrites the slot of a pending item, `exec_window` slot by slot. -/
theorem LiveInv.exec_read_pending (h : LiveInv g s) (hs : s.build.wf = true) (hx : exec i s = .next t) (h1 : g.T ≤ y)
    (h2 : y < g.H) : t.slots.read (y % s.capacity.toNat) = s.slots.read (y % s.capacity.toNat) := by
  refine exec_read_other hx fun he => ?_
  obtain ⟨a, hslot, h3, h4⟩ := h.storedSlot_free hs he
  have h5 := h.chainT
  exact mod_ne_of_lt (c := s.capacity.toNat) (x := y) (y := a) (by omega) (by omega) hslot.symm

end Reads

/-! ### A command beside one of the other port (R79, R208) -/

section Beside

variable {i : Instr} {s s' t t' : State}

/-- The storage after a command, in two runs of it that store alike. -/
theorem exec_slots_congr (h : exec i s = .next t) (h' : exec i s' = .next t') (hstored : storedSlot i s' = storedSlot i s)
    (hslots : s'.slots = s.slots) (hdesc : s'.descIn = s.descIn) : t'.slots = t.slots := by
  rw [exec_slots h, exec_slots h', hstored, hslots, hdesc]

/-- P's command beside changes `o` on the consumer's side, under another schedule: they stay, and P's effect is the same. -/
theorem exec_besideConsumer (h : exec i s = .next t) (hp : s.port = .producer) (o : State) (ts : List Turn) :
    exec i { s.withConsumerOf o with slots := s.slots, turns := ts }
      = .next { t.withConsumerOf o with slots := t.slots, turns := ts } := by
  obtain ⟨t₁, h₁, hturns⟩ := exec_otherTurns (m := s.slots) ts (fun _ _ => rfl) h
  obtain ⟨t₂, h₂, hside⟩ := exec_withConsumerOf (s := { s with turns := ts }) hp { o with slots := s.slots } h₁
  have hslots : t₂.slots = t.slots := exec_slots_congr h h₂ (by cases i <;> rfl) rfl rfl
  refine h₂.trans (congrArg _ ?_)
  calc t₂ = t₁.withConsumerOf t₂ := hside
    _ = t₁.withConsumerOf { o with slots := t₂.slots } := by rw [exec_onlyProducerState h₂ hp]; rfl
    _ = { t.withConsumerOf o with slots := t.slots, turns := ts } := by rw [hslots, hturns]; rfl

/-- C's command beside changes `o` on the producer's side that leave the slot it reads, under another schedule: they stay, and
C's effect is the same. -/
theorem exec_besideProducer (h : exec i s = .next t) (hp : s.port = .consumer) (o : State) (ts : List Turn)
    (hread : ∀ x, readSlot i s = some x → o.slots.read x = s.slots.read x) :
    exec i { s.withProducerOf o with slots := o.slots, turns := ts }
      = .next { t.withProducerOf o with slots := o.slots, turns := ts } := by
  obtain ⟨t₁, h₁, hturns⟩ := exec_otherTurns (m := o.slots) ts hread h
  obtain ⟨t₂, h₂, hside⟩ := exec_withProducerOf (s := { s with slots := o.slots, turns := ts }) hp o h₁
  have hslots : t₁.slots = o.slots := by rw [exec_onlyConsumerState h₁ hp]
  refine h₂.trans (congrArg _ ?_)
  calc t₂ = t₁.withProducerOf t₂ := hside
    _ = t₁.withProducerOf o := by rw [exec_onlyConsumerState h₂ hp]; rfl
    _ = { t.withProducerOf o with slots := o.slots, turns := ts } := by rw [hturns, hslots]; rfl

end Beside

theorem stepN_two {s t u : State} (h : step s = .next t) (h' : step t = .next u) : stepN 2 s = .next u := by
  simp only [stepN, h, h']

/-- Settles O54: each order is one port's command beside what the other's has changed (`exec_besideConsumer`,
`exec_besideProducer`); P stores to no slot that C reads, since that one is pending. -/
theorem commandsOfTheTwoPortsCommute : Obligations.CommandsOfTheTwoPortsCommute := by
  intro s c w pr cr ts hinv hl hpIn hcIn
  obtain ⟨g, hg⟩ := hinv.live hl
  have hb := hinv.build
  obtain ⟨i, -, hstepP⟩ := exists_command_producer c
  obtain ⟨j, -, hstepC⟩ := exists_command_consumer w
  have hgP := (accepted_acceptedP hl (.c :: ts) c pr).liveInv hg
  have hgC := (accepted_acceptedC hl (.p :: ts) cr).liveInv hg
  obtain ⟨p, hp⟩ := hgP.exec_next hb i
  obtain ⟨q, hq⟩ := hgC.exec_next hb j
  have hread : ∀ x, readSlot j (acceptedC s (.p :: ts) cr) = some x → p.slots.read x = s.slots.read x := by
    intro x hx
    obtain ⟨y, rfl, h1, h2⟩ := hgC.readSlot_pending hb hx
    exact hgP.exec_read_pending hb hp h1 h2
  have honlyP := exec_onlyProducerState hp rfl
  have honlyC := exec_onlyConsumerState hq rfl
  have hthenC : step p = .next { q.withProducerOf p with slots := p.slots, turns := ts } := by
    refine Eq.trans ?_ (exec_besideProducer hq rfl p ts hread)
    rw [honlyP]
    exact hstepC _ ts cr rfl hl hcIn
  have hthenP : step q = .next { p.withConsumerOf q with slots := p.slots, turns := ts } := by
    refine Eq.trans ?_ (exec_besideConsumer hp rfl q ts)
    rw [honlyC]
    exact hstepP _ ts pr rfl hl hpIn
  have hfirstP := (hstepP { s with turns := .p :: .c :: ts } _ _ rfl hl hpIn).trans hp
  have hfirstC := (hstepC { s with turns := .c :: .p :: ts } _ _ rfl hl hcIn).trans hq
  refine ⟨_, _, stepN_two hfirstP hthenC, stepN_two hfirstC hthenP, ?_⟩
  rw [honlyP, honlyC]
  rfl

end Sys2Proof.Machine

/-! ## Construction, reset and turns that pass (R212, R240 to R247) -/

namespace Sys2Proof.Machine

open Sys2Proof

/-! ### HOST's steps (R240, R244) -/

section Host

variable {s t : State} {cap : Word} {ts : List Turn}

theorem step_construct (hts : s.turns = .construct cap :: ts) :
    step s = .next (hostConstruct cap { s with turns := ts }) := by
  simp only [step, takeTurn, hts]

theorem step_resetRing (hts : s.turns = .resetRing :: ts) : step s = .next (hostReset { s with turns := ts }) := by
  simp only [step, takeTurn, hts]

theorem hostConstruct_enabled (hl : s.live = false) (hst : s.cfgStatus = .ok) (cap : Word) :
    hostConstruct cap s = constructRing cap s := if_pos ⟨hl, hst⟩

/-- Outside its state CONSTRUCT is no step (R240). -/
theorem hostConstruct_pass (h : s.live = true ∨ s.cfgStatus ≠ .ok) (cap : Word) : hostConstruct cap s = s := by
  rcases h with h | h <;> simp [hostConstruct, h]

/-- A word of 32 bits is a power of two only of an exponent below 32. -/
theorem popcount_eq_one_iff_pow (w : Word) : popcount w = 1 ↔ ∃ k, w.toNat = 2 ^ k := by
  rw [popcount_eq_one_iff]
  refine exists_congr fun k => and_iff_right_of_imp fun hk => ?_
  exact (Nat.pow_lt_pow_iff_right (by decide)).mp (hk ▸ w.isLt)

theorem capacityStatus_invalid (b : Params) (h : cap.toNat < 2 ∨ ¬ ∃ k, cap.toNat = 2 ^ k) :
    capacityStatus b cap = .invalidCapacity := by
  rw [← popcount_eq_one_iff_pow] at h
  exact if_pos h

theorem capacityStatus_tooLarge {b : Params} (h2 : 2 ≤ cap.toNat) (hpow : ∃ k, cap.toNat = 2 ^ k)
    (hlt : b.maxCapacity < cap.toNat) : capacityStatus b cap = .allocFail := by
  rw [← popcount_eq_one_iff_pow] at hpow
  rw [capacityStatus, if_neg (by omega), if_pos hlt]

theorem capacityStatus_fits {b : Params} (h2 : 2 ≤ cap.toNat) (hpow : ∃ k, cap.toNat = 2 ^ k)
    (hle : cap.toNat ≤ b.maxCapacity) : capacityStatus b cap = .ok := by
  rw [← popcount_eq_one_iff_pow, popcount_eq_one_iff] at hpow
  exact (capacityStatus_ok_iff b cap).mpr ⟨h2, hpow, hle⟩

end Host

/-- Settles O33: the three clauses are the three results of `capacityStatus`, and `constructRing_cases` says what each
writes. -/
theorem constructMakesARingOrSaysWhyNot : Obligations.ConstructMakesARingOrSaysWhyNot := by
  intro s cap ts hts hl hst
  refine ⟨_, (step_construct hts).trans (congrArg _ (hostConstruct_enabled (s := { s with turns := ts }) hl hst cap)), ?_⟩
  rcases constructRing_cases cap { s with turns := ts } with ⟨hcap, e⟩ | ⟨st, hfail, hcap, e⟩ <;> rw [e]
  · refine ⟨rfl, rfl, rfl, rfl, rfl, rfl, rfl, rfl, fun hbad => ?_, fun h2 hpow hlt => ?_,
      fun _ _ _ => ⟨rfl, rfl, rfl, rfl, fun _ => rfl⟩, rfl, rfl, rfl, rfl, rfl, rfl⟩
    · cases hcap.symm.trans (capacityStatus_invalid _ hbad)
    · cases hcap.symm.trans (capacityStatus_tooLarge h2 hpow hlt)
  · refine ⟨rfl, rfl, rfl, rfl, rfl, rfl, rfl, rfl, fun hbad => ⟨hcap.symm.trans (capacityStatus_invalid _ hbad), rfl⟩,
      fun h2 hpow hlt => ⟨hcap.symm.trans (capacityStatus_tooLarge h2 hpow hlt), rfl⟩, fun h2 hpow hle => ?_,
      rfl, rfl, rfl, rfl, rfl, rfl⟩
    obtain rfl : st = .ok := hcap.symm.trans (capacityStatus_fits h2 hpow hle)
    simp at hfail

/-- Settles O35: `hostReset`, field by field. -/
theorem resetTearsTheRingDown : Obligations.ResetTearsTheRingDown := fun _ _ hts =>
  ⟨_, step_resetRing hts, rfl, rfl, rfl, rfl, rfl, rfl, rfl, rfl, rfl, rfl, rfl, rfl, rfl, rfl, rfl, rfl, rfl⟩

/-- Equal indices are an empty view with all of `capacity − 1` free, whatever the index (R140 to R143). -/
theorem flagOutputs_equalIndices {s : State} {p : Port} {x : Idx} (hl : s.live = true) (hmask : s.mask ≠ 0)
    (hview : viewOf p s = ⟨x, x⟩) : flagOutputs p s = ⟨true, false, 0, s.capacity - 1⟩ := by
  have hcount : countOf s.build s.mask ⟨x, x⟩ = 0 := by simp [countOf, idxSub, truncIdx]
  have hfull : isFullView s.build s.mask ⟨x, x⟩ = false := by
    rw [isFullView, hcount]; exact beq_eq_false_iff_ne.mpr hmask.symm
  simp [flagOutputs_live hl, hview, isEmptyView, hfull, spaceOf, hcount]

/-- Settles O34: all four indices of a new ring are 0 (`flagOutputs_equalIndices`). -/
theorem freshRingIsEmptyOnBothPorts : Obligations.FreshRingIsEmptyOnBothPorts := by
  intro s t cap ts hts hl hx ht
  cases (step_construct hts).symm.trans hx
  have hst : s.cfgStatus = .ok := by
    by_contra hst
    rw [hostConstruct_pass (s := { s with turns := ts }) (.inr hst)] at ht
    cases hl.symm.trans ht
  rw [hostConstruct_enabled (s := { s with turns := ts }) hl hst] at ht ⊢
  rcases constructRing_cases cap { s with turns := ts } with ⟨hcap, e⟩ | ⟨_, _, _, e⟩ <;> rw [e] at ht ⊢
  · obtain ⟨h2, _, _⟩ := (capacityStatus_ok_iff _ cap).mp hcap
    have hone : cap ≠ 1 := by
      rintro rfl
      exact absurd h2 (by decide)
    have hmask : cap - 1 ≠ 0 := sub_ne_zero.mpr hone
    exact ⟨rfl, fun p => flagOutputs_equalIndices (x := 0) rfl hmask (by cases p <;> rfl)⟩
  · cases ht

/-! ### Turns that pass (R212, R241, R243) -/

section Pass

variable {s : State} {ts : List Turn} {k : Nat}

theorem step_passP (hts : s.turns = .p :: ts) (hn : s.live = false ∨ s.pIn = []) :
    step s = .next { s with turns := ts } := by
  rcases hn with hn | hn <;> simp [step, takeTurn, hts, acceptProducer, hn]

theorem step_passC (hts : s.turns = .c :: ts) (hn : s.live = false ∨ s.cIn = []) :
    step s = .next { s with turns := ts } := by
  rcases hn with hn | hn <;> simp [step, takeTurn, hts, acceptConsumer, hn]

theorem step_passSh (hts : s.turns = .sh k :: ts) (hn : s.live = false ∨ k = 0 ∨ s.hFlight.length < k) :
    step s = .next { s with turns := ts } := by
  have hdel := deliverHead_pass (s := { s with turns := ts }) hn
  simp only [step, takeTurn, hts, hdel]

theorem step_passSt (hts : s.turns = .st k :: ts) (hn : s.live = false ∨ k = 0 ∨ s.tFlight.length < k) :
    step s = .next { s with turns := ts } := by
  have hdel := deliverTail_pass (s := { s with turns := ts }) hn
  simp only [step, takeTurn, hts, hdel]

end Pass

/-- Settles O36: each of the four turns passes where there is no ring. -/
theorem nothingStepsWithoutARing : Obligations.NothingStepsWithoutARing := by
  rintro s x ts hts hl (rfl | rfl | ⟨k, rfl⟩ | ⟨k, rfl⟩)
  · exact step_passP hts (.inl hl)
  · exact step_passC hts (.inl hl)
  · exact step_passSh hts (.inl hl)
  · exact step_passSt hts (.inl hl)

/-- Settles O37: the passing turn of each agent, and the empty schedule. -/
theorem disabledTurnsPass : Obligations.DisabledTurnsPass := by
  intro s ts
  refine ⟨fun hts => ?_, fun cap hts hn => ?_, fun k hts hn => step_passSh hts (.inr hn),
    fun k hts hn => step_passSt hts (.inr hn), fun hts hn => step_passP hts (.inr hn),
    fun hts hn => step_passC hts (.inr hn)⟩
  · simp only [step, takeTurn, hts]
  · exact (step_construct hts).trans (congrArg _ (hostConstruct_pass (s := { s with turns := ts }) hn cap))

/-! ### What a live ring does with no command, and an open burst (R255) -/

/-- A step of a live ring that accepts no command: a delivery, or a turn that passes. -/
inductive SyncMove (s : State) : State → Prop
  | pass (ts : List Turn) : SyncMove s { s with turns := ts }
  | sh (k : Nat) (ts : List Turn) : SyncMove s (deliverHead k { s with turns := ts })
  | st (k : Nat) (ts : List Turn) : SyncMove s (deliverTail k { s with turns := ts })

/-- P's command `c` is answered: by `BadCmd`, as a reserved header, or by what it decodes to. -/
def AnswersP (s : State) (ts : List Turn) (c : PCmd) (rest : List PCmd) (t : State) : Prop :=
  t = fail .badCmd (acceptedP s ts c rest) ∨ ∃ i, decode c.hdr = .ok i ∧ exec i (acceptedP s ts c rest) = .next t

/-- C's command `w` is answered: by `BadCmd`, as a reserved header, or by what it decodes to. -/
def AnswersC (s : State) (ts : List Turn) (w : Header) (rest : List Header) (t : State) : Prop :=
  t = fail .badCmd (acceptedC s ts rest) ∨ ∃ i, decode w = .ok i ∧ exec i (acceptedC s ts rest) = .next t

/-- Every way a ring that is live before and after steps. -/
inductive LiveMove (s t : State) : Prop
  | sync (h : SyncMove s t)
  | producer (ts : List Turn) (c : PCmd) (rest : List PCmd) (hts : s.turns = .p :: ts) (hi : s.pIn = c :: rest)
      (h : AnswersP s ts c rest t)
  | consumer (ts : List Turn) (w : Header) (rest : List Header) (hts : s.turns = .c :: ts) (hi : s.cIn = w :: rest)
      (h : AnswersC s ts w rest t)

section Live

variable {s t : State} {i : Instr} {n j : Word} {ts : List Turn}

theorem step_liveMove (hx : step s = .next t) (hl : s.live = true) (ht : t.live = true) : LiveMove s t := by
  have hk := step_kind_next hx
  generalize hr : Host.Outcome.next t = r at hk
  cases hk with
  | idle => cases hr; exact .sync (.pass s.turns)
  | passP ts | passC ts => cases hr; exact .sync (.pass ts)
  | reservedP ts c rest _ hts _ hi => cases hr; exact .producer ts c rest hts hi (.inl rfl)
  | reservedC ts w rest _ hts _ hi => cases hr; exact .consumer ts w rest hts hi (.inl rfl)
  | commandP ts c rest i hts _ hi hd => exact .producer ts c rest hts hi (.inr ⟨i, hd, hr.symm⟩)
  | commandC ts w rest i hts _ hi hd => exact .consumer ts w rest hts hi (.inr ⟨i, hd, hr.symm⟩)
  | sh k ts => cases hr; exact .sync (.sh k ts)
  | st k ts => cases hr; exact .sync (.st k ts)
  | construct cap ts => cases hr; rw [hostConstruct_live (s := { s with turns := ts }) hl]; exact .sync (.pass ts)
  | resetRing => cases hr; cases ht

theorem deliverHead_bursts (k : Nat) (s : State) :
    (deliverHead k s).pBurst = s.pBurst ∧ (deliverHead k s).cBurst = s.cBurst := by
  rcases deliverHead_cases k s with ⟨e, _⟩ | ⟨_, _, _, _, e⟩ <;> rw [e] <;> exact ⟨rfl, rfl⟩

theorem deliverTail_bursts (k : Nat) (s : State) :
    (deliverTail k s).pBurst = s.pBurst ∧ (deliverTail k s).cBurst = s.cBurst := by
  rcases deliverTail_cases k s with ⟨e, _⟩ | ⟨_, _, _, _, e⟩ <;> rw [e] <;> exact ⟨rfl, rfl⟩

theorem SyncMove.bursts (h : SyncMove s t) : t.pBurst = s.pBurst ∧ t.cBurst = s.cBurst := by
  cases h with
  | pass => exact ⟨rfl, rfl⟩
  | sh k ts => exact deliverHead_bursts k { s with turns := ts }
  | st k ts => exact deliverTail_bursts k { s with turns := ts }

/-- An open burst of P is left alone by every command but ENQD (R110). -/
theorem exec_pBurst_opened (h : exec i s = .next t) (hb : s.pBurst = .opened n j) (hne : ∀ a, i ≠ .enqd a) :
    t.pBurst = .opened n j := by
  cases exec_kind h
  case beatP a _ _ _ _ _ _ | commitP a _ _ _ _ _ _ => exact absurd rfl (hne a)
  case grantP _ hidle _ _ => cases hb.symm.trans hidle
  all_goals simp [fail, hb]

/-- An open burst of C is left alone by every command but DEQD (R110). -/
theorem exec_cBurst_opened (h : exec i s = .next t) (hb : s.cBurst = .opened n j) (hne : ∀ a, i ≠ .deqd a) :
    t.cBurst = .opened n j := by
  cases exec_kind h
  case beatC a _ _ _ _ _ _ _ _ | commitC a _ _ _ _ _ _ _ _ => exact absurd rfl (hne a)
  case grantC _ hidle _ _ => cases hb.symm.trans hidle
  all_goals simp [fail, hb]

theorem AnswersP.pBurst_opened {c : PCmd} {rest : List PCmd} (h : AnswersP s ts c rest t) (hb : s.pBurst = .opened n j) :
    t.pBurst = .opened n j ∨ ∃ a, decode c.hdr = .ok (.enqd a) := by
  rcases h with rfl | ⟨i, hd, hx⟩
  · exact .inl hb
  · by_cases hi : ∃ a, i = .enqd a
    · obtain ⟨a, rfl⟩ := hi
      exact .inr ⟨a, hd⟩
    · exact .inl (exec_pBurst_opened hx hb (not_exists.mp hi))

theorem AnswersC.cBurst_opened {w : Header} {rest : List Header} (h : AnswersC s ts w rest t) (hb : s.cBurst = .opened n j) :
    t.cBurst = .opened n j ∨ ∃ a, decode w = .ok (.deqd a) := by
  rcases h with rfl | ⟨i, hd, hx⟩
  · exact .inl hb
  · by_cases hi : ∃ a, i = .deqd a
    · obtain ⟨a, rfl⟩ := hi
      exact .inr ⟨a, hd⟩
    · exact .inl (exec_cBurst_opened hx hb (not_exists.mp hi))

theorem AnswersP.cBurst {c : PCmd} {rest : List PCmd} (h : AnswersP s ts c rest t) : t.cBurst = s.cBurst := by
  rcases h with rfl | ⟨i, _, hx⟩
  · rfl
  · rw [exec_onlyProducerState hx rfl]; rfl

theorem AnswersC.pBurst {w : Header} {rest : List Header} (h : AnswersC s ts w rest t) : t.pBurst = s.pBurst := by
  rcases h with rfl | ⟨i, _, hx⟩
  · rfl
  · rw [exec_onlyConsumerState hx rfl]; rfl

end Live

/-- Settles O43: of all steps of a live ring only a command of a port writes that port's burst, and an open one only a
beat. -/
theorem openBurstEndsOnlyByBeatsOrReset : Obligations.OpenBurstEndsOnlyByBeatsOrReset := by
  intro s t n i hx hl ht
  cases step_liveMove hx hl ht with
  | sync h =>
    obtain ⟨hp, hc⟩ := h.bursts
    exact ⟨fun hb => .inl (hp.trans hb), fun hb => .inl (hc.trans hb)⟩
  | producer ts c rest hts hi h =>
    exact ⟨fun hb => (h.pBurst_opened hb).imp_right fun ⟨a, hd⟩ => ⟨c, rest, ts, a, hts, hi, hd⟩,
      fun hb => .inl (h.cBurst.trans hb)⟩
  | consumer ts w rest hts hi h =>
    exact ⟨fun hb => .inl (h.pBurst.trans hb),
      fun hb => (h.cBurst_opened hb).imp_right fun ⟨a, hd⟩ => ⟨w, rest, ts, a, hts, hi, hd⟩⟩

/-! ### The end of a run (R247) -/

section Rest

variable {s t : State}

theorem deliverHead_length_le (k : Nat) (s : State) : (deliverHead k s).hFlight.length ≤ s.hFlight.length := by
  rcases deliverHead_cases k s with ⟨e, _⟩ | ⟨_, _, _, _, e⟩ <;> rw [e]
  exact (List.drop_sublist k s.hFlight).length_le

theorem deliverTail_length_le (k : Nat) (s : State) : (deliverTail k s).tFlight.length ≤ s.tFlight.length := by
  rcases deliverTail_cases k s with ⟨e, _⟩ | ⟨_, _, _, _, e⟩ <;> rw [e]
  exact (List.drop_sublist k s.tFlight).length_le

theorem deliverHead_tFlight (k : Nat) (s : State) : (deliverHead k s).tFlight = s.tFlight :=
  congrArg Channel.flight (deliverHead_channels k s).2

theorem deliverTail_hFlight (k : Nat) (s : State) : (deliverTail k s).hFlight = s.hFlight :=
  congrArg Channel.flight (deliverTail_channels k s).1

/-- With no command accepted nothing new comes in flight. -/
theorem SyncMove.flight_le (h : SyncMove s t) :
    t.hFlight.length ≤ s.hFlight.length ∧ t.tFlight.length ≤ s.tFlight.length := by
  cases h with
  | pass => exact ⟨le_rfl, le_rfl⟩
  | sh k ts => exact ⟨deliverHead_length_le k _, (congrArg List.length (deliverHead_tFlight k _)).le⟩
  | st k ts => exact ⟨(congrArg List.length (deliverTail_hFlight k _)).le, deliverTail_length_le k _⟩

/-- With nothing in flight there is no `k` to deliver. -/
theorem SyncMove.of_settled (h : SyncMove s t) (hh : s.hFlight = []) (ht : s.tFlight = []) :
    t = { s with turns := t.turns } := by
  have no_k : ∀ k, k = 0 ∨ 0 < k := Nat.eq_zero_or_pos
  cases h with
  | pass => rfl
  | sh k ts => rw [deliverHead_pass (.inr (by simpa [hh] using no_k k))]
  | st k ts => rw [deliverTail_pass (.inr (by simpa [ht] using no_k k))]

/-- With no command presented a live ring accepts none. -/
theorem step_syncMove (hx : step s = .next t) (hl : s.live = true) (ht : t.live = true) (hp : s.pIn = []) (hc : s.cIn = []) :
    SyncMove s t := by
  cases step_liveMove hx hl ht with
  | sync h => exact h
  | producer _ _ _ _ hi => cases hp.symm.trans hi
  | consumer _ _ _ _ hi => cases hc.symm.trans hi

/-- A step lengthens no stream, and a port that accepts a command shortens its own (R104). -/
theorem step_streams_le (hx : step s = .next t) :
    (t.pIn.length ≤ s.pIn.length ∧ (pSteps s → t.pIn.length < s.pIn.length))
      ∧ (t.cIn.length ≤ s.cIn.length ∧ (cSteps s → t.cIn.length < s.cIn.length)) := by
  cases step_streamsMove hx with
  | producer hp c _ hin _ hcIn _ => simp [hin, hcIn, pSteps_not_cSteps hp]
  | consumer hc w _ hin _ hpIn _ =>
    have hp : ¬ pSteps s := fun hp => pSteps_not_cSteps hp hc
    simp [hin, hpIn, hp]
  | neither hp hc h => simp [h.pIn, h.cIn, hp, hc]

theorem isQuiescent_iff (hp : s.pIn = []) (hc : s.cIn = []) (hset : isSettled s = true) :
    isQuiescent s = true ↔ s.pBurst = .idle ∧ s.cBurst = .idle := by
  simp [isQuiescent, hp, hc, hset]

end Rest

section Run

open Filter

variable {e : Nat → State} {n m : Nat}

/-- A list that in the end never grows, gets shorter by each step of its agent, and whose agent steps while it stays
non-empty, is in the end empty. -/
theorem eventually_empty {α : Type} {l : Nat → List α} {takes : Nat → Prop}
    (hmove : ∀ᶠ m in atTop, (l (m + 1)).length ≤ (l m).length ∧ (takes m → (l (m + 1)).length < (l m).length))
    (hfair : ∀ᶠ m in atTop, (∀ m', m ≤ m' → l m' ≠ []) → ∃ m', m ≤ m' ∧ takes m') : ∀ᶠ m in atTop, l m = [] := by
  obtain ⟨n, h⟩ := eventually_atTop.mp (hmove.and hfair)
  obtain ⟨m, hnm, h0⟩ := eventually_zero (f := fun m => (l m).length) (fun m hm => (h m hm).1.1) (fun m hm => (h m hm).1.2)
    (fun m hm hne => (h m hm).2 fun m' hm' h => hne m' hm' (List.length_eq_zero_iff.mpr h))
  refine eventually_atTop.mpr ⟨m, fun k hk => List.length_eq_zero_iff.mp ?_⟩
  induction k, hk using Nat.le_induction with
  | base => exact h0
  | succ k hk ih => exact Nat.le_zero.mp (ih ▸ (h k (hnm.trans hk)).1.1)

/-- Once the streams have ended, the outside world adds nothing to a step but turns. -/
theorem IsRun.step_of_streamsEnd (hr : IsRun e) (hlive : ∀ m, n ≤ m → (e m).live = true) (hend : StreamsEnd e n)
    (hm : n ≤ m) : ∃ t, step (e m) = .next t ∧ t.live = true ∧ e (m + 1) = { t with turns := (e (m + 1)).turns } := by
  obtain ⟨t, hx, hoff⟩ := hr m
  have hl : t.live = true := hoff.live.symm.trans (hlive (m + 1) (by omega))
  obtain ⟨hpIn, hcIn⟩ := hend m t hm hx
  obtain ⟨p, c, ts, he⟩ := hoff
  refine ⟨t, hx, hl, ?_⟩
  rw [he] at hpIn hcIn ⊢
  exact congrArg₂ (fun p c => { t with pIn := p, cIn := c, turns := t.turns ++ ts }) hpIn hcIn

theorem IsRun.eventually_exhausted (hr : IsRun e) (hserve : ServesPorts e) (hlive : ∀ m, n ≤ m → (e m).live = true)
    (hend : StreamsEnd e n) : ∀ᶠ m in atTop, (e m).pIn = [] ∧ (e m).cIn = [] := by
  have hmove : ∀ m, n ≤ m → ((e (m + 1)).pIn.length ≤ (e m).pIn.length
        ∧ (pSteps (e m) → (e (m + 1)).pIn.length < (e m).pIn.length))
      ∧ ((e (m + 1)).cIn.length ≤ (e m).cIn.length ∧ (cSteps (e m) → (e (m + 1)).cIn.length < (e m).cIn.length)) := by
    intro m hm
    obtain ⟨t, hx, _, he⟩ := hr.step_of_streamsEnd hlive hend hm
    have hle := step_streams_le hx
    rw [he]
    exact hle
  refine .and (eventually_empty (takes := fun m => pSteps (e m)) ?_ ?_)
    (eventually_empty (takes := fun m => cSteps (e m)) ?_ ?_) <;> filter_upwards [eventually_ge_atTop n] with m hm
  · exact (hmove m hm).1
  · exact fun hne => hserve.1 m fun m' hm' => ⟨hlive m' (hm.trans hm'), hne m' hm'⟩
  · exact (hmove m hm).2
  · exact fun hne => hserve.2 m fun m' hm' => ⟨hlive m' (hm.trans hm'), hne m' hm'⟩

theorem IsRun.eventually_settled (hr : IsRun e) (hfair : WeaklyFair e) (hserve : ServesPorts e)
    (hlive : ∀ m, n ≤ m → (e m).live = true) (hend : StreamsEnd e n) :
    ∀ᶠ m in atTop, (e m).hFlight = [] ∧ (e m).tFlight = [] := by
  have hmove : ∀ᶠ m in atTop, ((e (m + 1)).hFlight.length ≤ (e m).hFlight.length
        ∧ (shSteps (e m) → (e (m + 1)).hFlight.length < (e m).hFlight.length))
      ∧ ((e (m + 1)).tFlight.length ≤ (e m).tFlight.length
        ∧ (stSteps (e m) → (e (m + 1)).tFlight.length < (e m).tFlight.length)) := by
    filter_upwards [eventually_ge_atTop n, hr.eventually_exhausted hserve hlive hend] with m hm ⟨hp, hc⟩
    obtain ⟨t, hx, ht, he⟩ := hr.step_of_streamsEnd hlive hend hm
    obtain ⟨hhead, htail⟩ := (step_syncMove hx (hlive m hm) ht hp hc).flight_le
    rw [he]
    exact ⟨⟨hhead, fun hsh => (shSteps_delivers hsh hx).length_lt⟩, htail, fun hst => (stSteps_delivers hst hx).length_lt⟩
  refine .and (eventually_empty (hmove.mono fun _ h => h.1) ?_) (eventually_empty (hmove.mono fun _ h => h.2) ?_) <;>
    filter_upwards [eventually_ge_atTop n] with m hm
  · exact fun hne => hfair.1 m fun m' hm' => ⟨hlive m' (hm.trans hm'), hne m' hm'⟩
  · exact fun hne => hfair.2 m fun m' hm' => ⟨hlive m' (hm.trans hm'), hne m' hm'⟩

end Run

/-- Settles O60: in the end the streams are empty, so nothing new comes in flight; then nothing is in flight, so nothing but
the schedule changes. The invariant is not needed. -/
theorem fairRunsComeToRest : Obligations.FairRunsComeToRest := by
  intro e n hr hfair hserve _ hlive hend
  obtain ⟨m, h⟩ := Filter.eventually_atTop.mp ((Filter.eventually_ge_atTop n).and
    ((hr.eventually_exhausted hserve hlive hend).and (hr.eventually_settled hfair hserve hlive hend)))
  obtain ⟨hnm, -⟩ := h m le_rfl
  have hrests : ∀ k, m ≤ k → e k = { e m with turns := (e k).turns } := by
    intro k hk
    induction k, hk using Nat.le_induction with
    | base => rfl
    | succ k hk ih =>
      obtain ⟨hnk, ⟨hp, hc⟩, hh, ht⟩ := h k hk
      obtain ⟨t, hx, hl, he⟩ := hr.step_of_streamsEnd hlive hend hnk
      rw [he, (step_syncMove hx (hlive k hnk) hl hp hc).of_settled hh ht, ih]
  refine ⟨m, hnm, fun k hk => ?_⟩
  obtain ⟨-, ⟨hp, hc⟩, hh, ht⟩ := h k hk
  have hset : isSettled (e k) = true := by simp [isSettled, hh, ht]
  exact ⟨hrests k hk, hp, hc, hset, isQuiescent_iff hp hc hset⟩

end Sys2Proof.Machine
